-- ==== Sys2Proof/Word.lean ====
section
/-! DEFINITION. The word types of the BCE: bytes, 32-bit register words, and the three word sizes of the cipher. -/

namespace Sys2Proof

/-- One byte of a byte string or of BUF (00_scope R12). -/
abbrev Byte := BitVec 8

/-- A host register, a host bus word or a command word: 32 bits (00_scope R8, 10_state R21). -/
abbrev Word := BitVec 32

/-- The supported cipher word sizes `w ∈ {16, 32, 64}` (00_scope R5).
`WSEL = 3` names none of them, so it has no constructor here. -/
inductive WordSize where
  | w16
  | w32
  | w64
deriving DecidableEq, Repr, Inhabited

/-- The word size in bits, the `w` of every cipher rule (00_scope R5). -/
def WordSize.bits : WordSize → Nat
  | .w16 => 16
  | .w32 => 32
  | .w64 => 64

end Sys2Proof
end

