-- ==== Sys2Proof/Machine/Arith.lean ====
section
/-! DEFINITION. Word arithmetic of the datapath. `+w`, `-w` and `xor` are `+`, `-` and `^^^` of `BitVec w` (00_scope R11,
41 R152: unsigned, wrapping, no flag); the rotations are defined here. -/

namespace Sys2Proof

/-- `rotl_w(v, n)`, the amount taken mod w (41 R150). -/
def rotl {w : Nat} (v : BitVec w) (n : Nat) : BitVec w :=
  if n % w = 0 then v else (v <<< (n % w)) ||| (v >>> (w - n % w))

/-- `rotr_w(v, n)`, the amount taken mod w (41 R151). -/
def rotr {w : Nat} (v : BitVec w) (n : Nat) : BitVec w :=
  if n % w = 0 then v else (v >>> (n % w)) ||| (v <<< (w - n % w))

end Sys2Proof
end

