-- ==== Sys2Proof/Machine/Bytes.lean ====
section
/-! DEFINITION. The byte-string primitives of 00_scope R12. A byte string is a list, first byte at the lowest offset. -/

namespace Sys2Proof

/-- `zeros(n)`: n bytes 0x00. -/
def zeros (n : Nat) : List Byte := List.replicate n 0

/-- `s[a..b)`: bytes a to b-1. -/
def slice (s : List Byte) (a b : Nat) : List Byte := (s.drop a).take (b - a)

/-- The sum of `s[k] * 2^(8k)`, the value `le_word` gives. -/
def leNat : List Byte → Nat
  | [] => 0
  | b :: bs => b.toNat + 256 * leNat bs

/-- `le_word(s)` as a w-bit word. -/
def leWord (w : Nat) (s : List Byte) : BitVec w := BitVec.ofNat w (leNat s)

/-- `le_bytes(v, n)`: byte k is `(v >> 8k) mod 256`. -/
def leBytes (v : Nat) : Nat → List Byte
  | 0 => []
  | n + 1 => BitVec.ofNat 8 v :: leBytes (v / 256) n

/-- `rstrip0(s)`: s with every trailing 0x00 byte removed, possibly empty. -/
def rstrip0 (s : List Byte) : List Byte := (s.reverse.dropWhile (· == 0)).reverse

/-- Bytewise exclusive or of two byte strings of one length (43 R220). -/
def xorBytes (x y : List Byte) : List Byte := List.zipWith (· ^^^ ·) x y

end Sys2Proof
end

