-- ==== Sys2Proof/Syntax.lean ====
section
/-! DEFINITION. The instructions of the BCE: its eight commands, one constructor for each row of the opcode table. -/

namespace Sys2Proof

/-- The commands of 30_encoding R92. A command word carries no immediate and no register number (R95); its one operand
bit, STRIP, tells the last two codec rows apart, so no constructor has an argument. Every other operand is read from
the command latches (10_state R47). -/
inductive Instr where
  /-- KEYSETUP: build and latch a new schedule instance (40 R130). -/
  | keysetup
  /-- ENCBLK: encrypt one block (41 R160). -/
  | encblk
  /-- DECBLK: decrypt one block (41 R161). -/
  | decblk
  /-- CODEC_ENC: encrypt a byte range as a stream (42 R185). -/
  | codecEnc
  /-- CODEC_DEC: decrypt a byte range as a stream, strip mode off (42 R190). -/
  | codecDec
  /-- CODEC_DEC.STRIP: decrypt a byte range as a stream, strip mode on (42 R190). -/
  | codecDecStrip
  /-- HASH: hash a byte range (43 R225). -/
  | hash
  /-- DMCOMP: one Davies-Meyer compression step on Hreg (43 R230). -/
  | dmcomp
deriving DecidableEq, Repr

end Sys2Proof
end

