-- ==== Sys2Proof/WellFormed.lean ====
section
/-! DEFINITION. The checks of 30_encoding R93 on the raw fields of a command word, and well-formedness of instructions. -/

namespace Sys2Proof

/-- The fields of a command word (30_encoding R90): OPC is bits [7:0], STRIP bit [8], RSV bits [31:9]. -/
structure CommandFields where
  opc : BitVec 8
  strip : Bool
  rsv : BitVec 23
deriving DecidableEq, Repr

/-- `c[7:0] ∈ {0x01, …, 0x07}` (R93). -/
abbrev CommandFields.opcDefined (f : CommandFields) : Prop := 1 ≤ f.opc.toNat ∧ f.opc.toNat ≤ 7

/-- `c[31:9] = 0` (R93). -/
abbrev CommandFields.reservedZero (f : CommandFields) : Prop := f.rsv = 0

/-- `c[8] = 0 or c[7:0] = 0x05` (R93). -/
abbrev CommandFields.stripAllowed (f : CommandFields) : Prop := f.strip = false ∨ f.opc = 0x05

/-- A command word is legal exactly when the three checks of R93 hold. -/
abbrev CommandFields.WellFormed (f : CommandFields) : Prop :=
  f.opcDefined ∧ f.reservedZero ∧ f.stripAllowed

/-- An instruction carries no operand (R95), so each of the eight terms is well formed; what can be ill formed is the
word it comes from, `CommandFields.WellFormed`. -/
abbrev Instr.WellFormed (_i : Instr) : Prop := True

end Sys2Proof
end

