-- ==== Sys2Proof/Decode.lean ====
section
/-! DEFINITION. The decoder, total on any bytes and rejecting by name, and after it the encoder, both written from the
opcode map of 30_encoding R90 and R92. -/

namespace Sys2Proof

/-- Why some bytes are no command. The engine accepts every whole word and ends an illegal one in IllegalCommand
(30_encoding R93, 60 R251); the decoder names the reason. -/
inductive DecodeError where
  /-- Fewer than the four bytes of a command word (R91). -/
  | truncated
  /-- RSV is not zero (R94). -/
  | reservedBits (rsv : BitVec 23)
  /-- OPC is 0x00 or 0x08 to 0xFF (R94). -/
  | undefinedOpcode (opc : BitVec 8)
  /-- STRIP = 1 with an OPC other than 0x05 (R94). -/
  | stripNotAllowed (opc : BitVec 8)
deriving DecidableEq, Repr

/-- One row of the opcode map of R92; every row has RSV = 0. -/
structure OpcodeRow where
  opc : BitVec 8
  strip : Bool
  instr : Instr
deriving DecidableEq, Repr

/-- The opcode map of R92. -/
def opcodeTable : List OpcodeRow :=
  [ ⟨0x01, false, .keysetup⟩,
    ⟨0x02, false, .encblk⟩,
    ⟨0x03, false, .decblk⟩,
    ⟨0x04, false, .codecEnc⟩,
    ⟨0x05, false, .codecDec⟩,
    ⟨0x05, true, .codecDecStrip⟩,
    ⟨0x06, false, .hash⟩,
    ⟨0x07, false, .dmcomp⟩ ]

/-- The fields of a command word at their places in R90. -/
def CommandFields.ofWord (c : Word) : CommandFields where
  opc := c.extractLsb' 0 8
  strip := c.getLsbD 8
  rsv := c.extractLsb' 9 23

/-- The command word that holds the fields (R90). -/
def CommandFields.toWord (f : CommandFields) : Word := f.rsv ++ BitVec.ofBool f.strip ++ f.opc

/-- R93 and R94: RSV must be zero, and the pair (OPC, STRIP) must be a row of the map. -/
def CommandFields.decode (f : CommandFields) : Except DecodeError Instr :=
  if f.rsv ≠ 0 then .error (.reservedBits f.rsv)
  else match opcodeTable.find? fun r => r.opc == f.opc && r.strip == f.strip with
    | some r => .ok r.instr
    | none =>
      if opcodeTable.any fun r => r.opc == f.opc then .error (.stripNotAllowed f.opc)
      else .error (.undefinedOpcode f.opc)

/-- The instruction a whole command word stands for (R91: a decoder reads the whole word at once). -/
def decodeWord (c : Word) : Except DecodeError Instr := (CommandFields.ofWord c).decode

/-- The decoder on bytes in address order: the word is little-endian, OPC the first byte (R90, 20_memory R64 (d)). It
answers the instruction and the bytes after it. -/
def decode : List Byte → Except DecodeError (Instr × List Byte)
  | b0 :: b1 :: b2 :: b3 :: rest =>
    match decodeWord (b3 ++ b2 ++ b1 ++ b0) with
    | .ok i => .ok (i, rest)
    | .error e => .error e
  | _ => .error .truncated

/-- The bytes of a command word in address order (20_memory R64 (d)). -/
def wordBytesOf (c : Word) : List Byte := leBytes c.toNat 4

/-- The instruction the decoder reads from a row's word, `nbits` wide and zero above that. -/
def decodeTableWord (nbits w : Nat) : Option Instr :=
  match decode (wordBytesOf (BitVec.ofNat 32 (w % 2 ^ nbits))) with
  | .ok (i, _) => some i
  | .error _ => none

/-- The fields R92 gives each instruction. -/
def Instr.fields : Instr → CommandFields
  | .keysetup => ⟨0x01, false, 0⟩
  | .encblk => ⟨0x02, false, 0⟩
  | .decblk => ⟨0x03, false, 0⟩
  | .codecEnc => ⟨0x04, false, 0⟩
  | .codecDec => ⟨0x05, false, 0⟩
  | .codecDecStrip => ⟨0x05, true, 0⟩
  | .hash => ⟨0x06, false, 0⟩
  | .dmcomp => ⟨0x07, false, 0⟩

/-- The command word of an instruction (R92's column "word"). -/
def encodeWord (i : Instr) : Word := i.fields.toWord

/-- The encoder: the four bytes of an instruction's command word in address order. -/
def encode (i : Instr) : List Byte := wordBytesOf (encodeWord i)

end Sys2Proof
end

