-- ==== Sys2Proof/Config.lean ====
section
/-! DEFINITION. The build-time parameters of 00_scope R7 as a record the model takes as an argument, and the free values
(opaque constants, no body) that stand for what the spec leaves unspecified. -/

namespace Sys2Proof

/-- The named parameters of 00_scope R7 and of 20_memory R63 (`BCE_BASE`), and the magic-constant table of 10_state R44.
R7 says the model takes each as an argument; `step` has the state as its only argument, so the record is carried in
`State.params`, which no step changes (log entry 1). -/
structure Params where
  /-- `BUF_BYTES`, the size of the local buffer. -/
  bufBytes : Nat
  /-- `KEY_MAX_BYTES`, the longest key KEYSETUP accepts. -/
  keyMaxBytes : Nat
  /-- `BCE_BASE`, the host address of the aperture's first byte. -/
  bceBase : Word
  p16 : BitVec 16
  q16 : BitVec 16
  p32 : BitVec 32
  q32 : BitVec 32
  p64 : BitVec 64
  q64 : BitVec 64
deriving DecidableEq, Repr

/-- The default values of 00_scope R7 and the constants of 10_state R44 (general knowledge by the spec's own mark, log
entry 2); `BCE_BASE = 0` is the model's own default (DESIGN CHOICE, log entry 3). -/
def Params.default : Params where
  bufBytes := 65536
  keyMaxBytes := 255
  bceBase := 0
  p16 := 0xB7E1
  q16 := 0x9E37
  p32 := 0xB7E15163
  q32 := 0x9E3779B9
  p64 := 0xB7E151628AED2A6B
  q64 := 0x9E3779B97F4A7C15

/-- The legal ranges of 00_scope R7. -/
abbrev Params.legal (p : Params) : Prop :=
  64 ≤ p.bufBytes ∧ p.bufBytes ≤ 2 ^ 31 ∧ 64 ≤ p.keyMaxBytes ∧ p.keyMaxBytes ≤ 255

/-- The scratch state of 10_state R20 (e): the aligned key `L` (R45, `c_MAX = 128` entries of 64 bits), the ephemeral
schedule `SE` (512 entries) and `LE` (2 entries) (R46), and the working words `A` and `B` (R48).
No host access and no later command reads any of it. -/
structure Scratch where
  alignedKey : Vector (BitVec 64) 128
  ephemeralS : Vector (BitVec 64) 512
  ephemeralL : Vector (BitVec 64) 2
  a : BitVec 64
  b : BitVec 64
deriving DecidableEq, Repr, Inhabited

/-- FREE VALUE (log entry 5). What the scratch state holds after a success completion: "after completion its content is
unspecified" (10_state R45, R46, R48; 93 I3). The argument is the state's counter of free values drawn so far. -/
opaque Config.scratchAfter : Nat → Scratch

/-- FREE VALUE (log entry 6). `LATENCY` of 00_scope R7 and 70 R310, "unspecified, finite": for one accepted command, the
number of host events that the one total order of 20_memory R73 puts between its acceptance and its completion, if the
host offers that many that need not wait. The argument is the state's counter of free values drawn so far. -/
opaque Config.latency : Nat → Nat

end Sys2Proof
end

