-- ==== Sys2Proof/Machine/State.lean ====
section
/-! DEFINITION. The state of the BCE as plain data (10_state), the host events that are its input, the reasons a step
stops, and the state after reset (10_state R52). -/

namespace Sys2Proof.Machine

/-- The widths of a host access: 8, 16 or 32 bits (20_memory R65). -/
inductive AccessSize where
  | byte
  | half
  | word
deriving DecidableEq, Repr

/-- One host bus transaction (20_memory R65, 30_encoding R112). `addr` is the host byte address; the aperture offset is
`addr - BCE_BASE`. The write data stand on the bus lanes of 20_memory R64 (d). -/
inductive HostAccess where
  | read (size : AccessSize) (addr : Word)
  | write (size : AccessSize) (addr : Word) (wdata : Word)
deriving DecidableEq, Repr

/-- What the outside world does to the BCE, one event at a time in the host's program order (00_scope R16): an access,
a `poll` (30_encoding R110: STATUS is read until BUSY reads 0), and the two edges of the `rst` input (70 R290). -/
inductive HostEvent where
  | access (a : HostAccess)
  | poll
  | assertReset
  | releaseReset
deriving DecidableEq, Repr

/-- What a host read returned: the bytes of the access in address order (byte k is the byte at `addr + k`, 20_memory
R64 (d)). -/
structure HostRead where
  addr : Word
  bytes : List Byte
deriving DecidableEq, Repr

/-- The local buffer BUF (20_memory R61) as (offset, byte) pairs, offsets strictly rising. A byte that is not listed is
unwritten and reads as no value (20_memory R62). -/
abbrev Memory := List Host.Cell

/-- CFG's two fields (10_state R22); its other bits read 0 and ignore writes. -/
structure Cfg where
  wsel : BitVec 2
  rounds : BitVec 8
deriving DecidableEq, Repr

/-- The STATUS bits that are state of their own (10_state R24). SCHED_VALID, SWSEL and SROUNDS are views of the schedule
instance; the other bits read 0. `busy` is also the engine phase, BUSY or IDLE (10_state R49). -/
structure Status where
  busy : Bool
  done : Bool
  err : Bool
  ovr : Bool
  errcode : BitVec 4
deriving DecidableEq, Repr

/-- IE's two fields (10_state R30); its other bits read 0 and ignore writes. -/
structure IntEnable where
  doneIe : Bool
  errIe : Bool
deriving DecidableEq, Repr

/-- The chaining-value register as its four host registers H0 to H3 (10_state R31): byte k of Hreg is byte `k mod 4`,
least significant first, of register `H(k div 4)`. -/
structure Hreg where
  h0 : Word
  h1 : Word
  h2 : Word
  h3 : Word
deriving DecidableEq, Repr

/-- The schedule instance less SCHED_VALID (10_state R40): SW, SR and the table `S[0..T-1]`, each entry held in 64 bits
(R42). Entries `T` to 511 of the storage hold no architectural value (R42) and are not in the list. -/
structure Schedule where
  sw : WordSize
  sr : BitVec 8
  table : List (BitVec 64)
deriving DecidableEq, Repr

/-- The command latches (10_state R47). -/
structure Latches where
  opc : BitVec 8
  strip : Bool
  rsv : BitVec 23
  src : Word
  dst : Word
  len : Word
  dsize : Word
  wsel : BitVec 2
  rounds : BitVec 8
deriving DecidableEq, Repr

/-- The whole machine (10_state R20), and after it the model's own fields: the parameters, the rest of LATENCY for the
command in flight, the host's events still to come, what its reads returned, and the counter of free values. -/
structure State where
  /-- CFG (10_state R22). -/
  cfg : Cfg
  /-- STATUS (10_state R24). -/
  status : Status
  /-- SRC (10_state R25). -/
  src : Word
  /-- DST (10_state R26). -/
  dst : Word
  /-- LEN (10_state R27). -/
  len : Word
  /-- DSIZE (10_state R28): bit 31 PRESENT, bits [30:0] SIZE. -/
  dsize : Word
  /-- OUTLEN (10_state R29). -/
  outlen : Word
  /-- IE (10_state R30). -/
  ie : IntEnable
  /-- H0 to H3, Hreg (10_state R31). -/
  hreg : Hreg
  /-- SCHED_VALID (10_state R24, R40). -/
  schedValid : Bool
  /-- SW, SR and S (10_state R40 to R43). -/
  sched : Schedule
  /-- The command latches (10_state R47). -/
  latch : Latches
  /-- The scratch state (10_state R45, R46, R48). -/
  scratch : Scratch
  /-- BUF (20_memory R61, R62). -/
  buf : Memory
  /-- The level of the `rst` input (70 R290, 30_encoding R112). -/
  rst : Bool
  /-- The model's own: 00_scope R7 and 10_state R44 (log entry 1). -/
  params : Params
  /-- The model's own: how many more host events are ordered before the completion of the command in flight (log 6). -/
  latency : Nat
  /-- The model's own: the host events still to come, in the host's program order (log entry 7). -/
  hostQueue : List HostEvent
  /-- The model's own: what the host's reads returned, oldest first (log entry 7). -/
  hostReads : List HostRead
  /-- The model's own: how many free values were drawn (log entries 5 and 6). -/
  freeCount : Nat
deriving DecidableEq, Repr

/-- Why the machine stops with a fault. Both are faults the spec asks of a model; neither sets a STATUS bit (60 R275). -/
inductive Fault where
  /-- A host access that ends in a bus error (20_memory R66): raised by the host port. Safe: the model takes no step
  where the hardware goes on with unchanged state. -/
  | busError
  /-- A read of an unwritten BUF byte by the host or by a command's input range (20_memory R62): raised by the host port
  and by every command that reads BUF. Safe: the hardware goes on with an unspecified value. -/
  | unwrittenRead
deriving DecidableEq, Repr

/-- Why a step is refused. -/
inductive Refusal where
  /-- An instruction the model gives no meaning: raised by an arm of `exec` only. Safe. -/
  | notModelled (mnemonic : String)
  /-- A host access or poll while `rst` is asserted: "a model has no host step during reset (such an access is
  refused)" (70 R293). Raised by `step`. Safe. -/
  | accessDuringReset
deriving DecidableEq, Repr

/-- What a step answers. -/
abbrev Outcome := Host.Outcome State Fault Refusal

/-- The scratch state after reset: "unspecified (unobservable)" (10_state R52); zero is the model's choice (DESIGN
CHOICE, log entry 5). -/
def Scratch.reset : Scratch where
  alignedKey := Vector.replicate 128 0
  ephemeralS := Vector.replicate 512 0
  ephemeralL := Vector.replicate 2 0
  a := 0
  b := 0

/-- S, SW and SR after reset: "unspecified (unobservable since SCHED_VALID = 0)" (10_state R52); SWSEL = 0 and SROUNDS
= 0 with a zero table of `T = 2` words is the model's choice (DESIGN CHOICE, log entry 4). -/
def Schedule.reset : Schedule where
  sw := .w16
  sr := 0
  table := [0, 0]

/-- The command latches after reset: "unspecified (unobservable)" (10_state R52); zero is the model's choice (DESIGN
CHOICE, log entry 4). -/
def Latches.reset : Latches where
  opc := 0
  strip := false
  rsv := 0
  src := 0
  dst := 0
  len := 0
  dsize := 0
  wsel := 0
  rounds := 0

/-- The state after reset with given parameters (10_state R52, 70 R290): CFG = 0x0000_0C01, everything else the host can
see is 0, the engine IDLE, every BUF byte unwritten, `rst` released. -/
def State.resetWith (p : Params) : State where
  cfg := { wsel := 1, rounds := 12 }
  status := { busy := false, done := false, err := false, ovr := false, errcode := 0 }
  src := 0
  dst := 0
  len := 0
  dsize := 0
  outlen := 0
  ie := { doneIe := false, errIe := false }
  hreg := { h0 := 0, h1 := 0, h2 := 0, h3 := 0 }
  schedValid := false
  sched := Schedule.reset
  latch := Latches.reset
  scratch := Scratch.reset
  buf := []
  rst := false
  params := p
  latency := 0
  hostQueue := []
  hostReads := []
  freeCount := 0

/-- The machine right after reset, with the default parameters of 00_scope R7 and no host event given. -/
def State.reset : State := State.resetWith Params.default

end Sys2Proof.Machine
end

