-- ==== Sys2Proof/Machine/Operands.lean ====
section
/-! DEFINITION. The derived quantities of 00_scope R6, the operands a command takes from its latches (30_encoding R95), the
digest length (43 R224), and the range conditions of 60 R262 and R263. All sums are of natural numbers and never wrap. -/

namespace Sys2Proof

/-- `wordBytes = w / 8` (00_scope R6). -/
def WordSize.wordBytes (sw : WordSize) : Nat := sw.bits / 8

/-- `blockBytes = 2 * wordBytes` (00_scope R6). -/
def WordSize.blockBytes (sw : WordSize) : Nat := 2 * sw.wordBytes

/-- The word size WSEL selects; 3 is unsupported (10_state R22). -/
def WordSize.ofWsel (wsel : BitVec 2) : Option WordSize :=
  match wsel.toNat with
  | 0 => some .w16
  | 1 => some .w32
  | 2 => some .w64
  | _ => none

/-- The WSEL value of a word size (10_state R22, R24 SWSEL; 30_encoding R111 `wsel`). -/
def WordSize.toWsel : WordSize → BitVec 2
  | .w16 => 0
  | .w32 => 1
  | .w64 => 2

/-- `T = 2 * (R + 1)`, the number of round keys (00_scope R6). -/
def roundKeys (rounds : Nat) : Nat := 2 * (rounds + 1)

/-- `ceil(a / b)` (00_scope R9). -/
def ceilDiv (a b : Nat) : Nat := (a + (b - 1)) / b

namespace Machine

/-- `R` of the schedule instance. -/
def Schedule.rounds (sc : Schedule) : Nat := sc.sr.toNat

/-- The schedule's entries as SW-bit words; the bits above SW are not read (10_state R42). -/
def Schedule.words (sc : Schedule) : List (BitVec sc.sw.bits) := sc.table.map (·.setWidth sc.sw.bits)

/-- A schedule instance from its SW-bit words, each held in a 64-bit entry (10_state R42). -/
def Schedule.ofWords (sw : WordSize) (rounds : BitVec 8) (words : List (BitVec sw.bits)) : Schedule where
  sw := sw
  sr := rounds
  table := words.map (·.setWidth 64)

/-- blockBytes of the schedule instance (30_encoding R97). -/
def State.bb (s : State) : Nat := s.sched.sw.blockBytes

/-- `SRC_L` as an unbounded integer (30_encoding R95). -/
def State.srcL (s : State) : Nat := s.latch.src.toNat

/-- `DST_L` as an unbounded integer (30_encoding R95). -/
def State.dstL (s : State) : Nat := s.latch.dst.toNat

/-- `LEN_L` as an unbounded integer (30_encoding R95). -/
def State.lenL (s : State) : Nat := s.latch.len.toNat

/-- DSIZE's PRESENT bit (10_state R28). -/
def dsizePresent (d : Word) : Bool := d.getLsbD 31

/-- DSIZE's SIZE field (10_state R28). -/
def dsizeSize (d : Word) : Nat := (d.extractLsb' 0 31).toNat

/-- The digest length of 43 R224 for a block of `bb` bytes. -/
def digestLength (d : Word) (bb : Nat) : Nat :=
  if dsizePresent d = false ∨ bb < dsizeSize d then bb else dsizeSize d

/-- `dlen` of the running HASH (43 R224, R225). -/
def State.dlen (s : State) : Nat := digestLength s.latch.dsize s.bb

/-- CODEC_ENC's output length `m = ceil(LEN_L / bb) * bb` (42 R185). -/
def State.encLen (s : State) : Nat := ceilDiv s.lenL s.bb * s.bb

/-- The range `[off, off + n)` lies inside BUF: `off + n ≤ BUF_BYTES` (60 R262). -/
abbrev State.inBuf (s : State) (off n : Nat) : Prop := off + n ≤ s.params.bufBytes

/-- `Overlaps(s, n, d, m)` of 60 R263. -/
abbrev Overlaps (s n d m : Nat) : Prop := 0 < n ∧ 0 < m ∧ s < d + m ∧ d < s + n

/-- The condition under which the codec raises Overlap: the ranges overlap and do not start at one offset (60 R257). -/
abbrev CodecOverlap (s n d m : Nat) : Prop := Overlaps s n d m ∧ s ≠ d

end Machine

end Sys2Proof
end

