-- ==== Sys2Proof/Machine/Flags.lean ====
section
/-! DEFINITION. The flags: the STATUS word as a read shows it, its write-one-to-clear bits (10_state R24), the interrupt
output (60 R280), and the words CFG, IE and their fields (10_state R22, R30). The BCE has no condition codes (R51). -/

namespace Sys2Proof.Machine

/-- STATUS.SWSEL: the latched WSEL, 0 while SCHED_VALID = 0 (10_state R24). -/
def State.swsel (s : State) : BitVec 2 := if s.schedValid then s.sched.sw.toWsel else 0

/-- STATUS.SROUNDS: the latched R, 0 while SCHED_VALID = 0 (10_state R24). -/
def State.srounds (s : State) : BitVec 8 := if s.schedValid then s.sched.sr else 0

/-- STATUS as a host read returns it, its fields at the places of 10_state R24 and its reserved bits 0. -/
def State.statusWord (s : State) : Word :=
  0#8 ++ s.srounds ++ 0#2 ++ s.swsel ++ s.status.errcode ++ 0#3 ++ BitVec.ofBool s.status.ovr
    ++ BitVec.ofBool s.schedValid ++ BitVec.ofBool s.status.err ++ BitVec.ofBool s.status.done
    ++ BitVec.ofBool s.status.busy

/-- A host write to STATUS: DONE (bit 1), ERR (bit 2) and OVR (bit 4) are cleared where the written bit is 1; every
other written bit is ignored (10_state R24, R33). -/
def Status.writeOneToClear (st : Status) (v : Word) : Status :=
  { st with
    done := st.done && !v.getLsbD 1
    err := st.err && !v.getLsbD 2
    ovr := st.ovr && !v.getLsbD 4 }

/-- The interrupt output: `(DONE and DONE_IE) or (ERR and ERR_IE)` (60 R280). -/
def State.irq (s : State) : Bool := (s.status.done && s.ie.doneIe) || (s.status.err && s.ie.errIe)

/-- CFG as a host read returns it (10_state R22). -/
def Cfg.word (c : Cfg) : Word := 0#16 ++ c.rounds ++ 0#6 ++ c.wsel

/-- CFG after a host write (10_state R22). -/
def Cfg.ofWord (v : Word) : Cfg where
  wsel := v.extractLsb' 0 2
  rounds := v.extractLsb' 8 8

/-- IE as a host read returns it (10_state R30). -/
def IntEnable.word (e : IntEnable) : Word := 0#30 ++ BitVec.ofBool e.errIe ++ BitVec.ofBool e.doneIe

/-- IE after a host write (10_state R30). -/
def IntEnable.ofWord (v : Word) : IntEnable where
  doneIe := v.getLsbD 0
  errIe := v.getLsbD 1

end Sys2Proof.Machine
end

