-- ==== Sys2Proof/Machine/Ops.lean ====
section
/-! DEFINITION. The operations every meaning shares: BUF (20_memory R61, R62), Hreg as bytes (10_state R31), acceptance
(60 R250), the error completion and the success completion (60 R270, R271; the BCE's trap entry), and the run of one
command's check and compute phases (00_scope R14). The BCE has no return from a completion (60 R272): the host
acknowledges it by a STATUS write (`Status.writeOneToClear`) or by the next acceptance. -/

namespace Sys2Proof.Machine

/-! ### BUF -/

/-- One byte of BUF; `none` when it is unwritten (20_memory R62). -/
def Memory.read : Memory → Nat → Option Byte
  | [], _ => none
  | (k, v) :: m, a => if k = a then some v else Memory.read m a

/-- Store one byte, keeping the offsets strictly rising. -/
def Memory.write : Memory → Nat → Byte → Memory
  | [], a, b => [(a, b)]
  | (k, v) :: m, a, b =>
    if a < k then (a, b) :: (k, v) :: m
    else if a = k then (a, b) :: m
    else (k, v) :: Memory.write m a b

/-- The canonical form: offsets strictly rising. An unlisted byte reads as no value, so no entry can equal it. -/
abbrev Memory.wf (m : Memory) : Prop := m.Pairwise fun x y => x.1 < y.1

/-- `MemRead(off, n)` (00_scope R13): the n bytes from `off`; `none` when one of them is unwritten (20_memory R62). -/
def Memory.readRange (m : Memory) (off : Nat) : Nat → Option (List Byte)
  | 0 => some []
  | n + 1 =>
    match m.read off, Memory.readRange m (off + 1) n with
    | some b, some bs => some (b :: bs)
    | _, _ => none

/-- `MemWrite(off, n, s)` (00_scope R13): the bytes of `s` from `off` on. -/
def Memory.writeRange (m : Memory) (off : Nat) : List Byte → Memory
  | [] => m
  | b :: bs => Memory.writeRange (m.write off b) (off + 1) bs

/-! ### Hreg -/

/-- Hreg[0..16) (10_state R31). -/
def Hreg.bytes (h : Hreg) : List Byte :=
  leBytes h.h0.toNat 4 ++ leBytes h.h1.toNat 4 ++ leBytes h.h2.toNat 4 ++ leBytes h.h3.toNat 4

/-- The four registers from the 16 bytes of Hreg (10_state R31). -/
def Hreg.ofBytes (x : List Byte) : Hreg where
  h0 := leWord 32 (slice x 0 4)
  h1 := leWord 32 (slice x 4 8)
  h2 := leWord 32 (slice x 8 12)
  h3 := leWord 32 (slice x 12 16)

/-! ### Error codes -/

/-- The error causes of 60 R255. -/
inductive ErrorCode where
  | unsupportedWordSize
  | invalidBlockLength
  | ioFailure
  | illegalCommand
  | noSchedule
  | keyTooLong
  | overlap
deriving DecidableEq, Repr

/-- The code STATUS.ERRCODE holds (60 R255). -/
def ErrorCode.code : ErrorCode → BitVec 4
  | .unsupportedWordSize => 1
  | .invalidBlockLength => 2
  | .ioFailure => 3
  | .illegalCommand => 4
  | .noSchedule => 5
  | .keyTooLong => 6
  | .overlap => 7

/-! ### Acceptance and completion -/

/-- The writes of acceptance (60 R250): the word's fields and the operand registers go to the latches, DONE and ERR fall
and BUSY rises. -/
def State.latchCommand (s : State) (c : Word) : State :=
  { s with
    latch :=
      { opc := (CommandFields.ofWord c).opc
        strip := (CommandFields.ofWord c).strip
        rsv := (CommandFields.ofWord c).rsv
        src := s.src
        dst := s.dst
        len := s.len
        dsize := s.dsize
        wsel := s.cfg.wsel
        rounds := s.cfg.rounds }
    status := { s.status with busy := true, done := false, err := false } }

/-- Acceptance of a command word (60 R250). The time to its completion is LATENCY's free value (log entry 6). -/
def State.accept (s : State) (c : Word) : State :=
  { s.latchCommand c with
    latency := Config.latency s.freeCount
    freeCount := s.freeCount + 1 }

/-- Error completion with a cause (60 R270): ERRCODE, ERR, OUTLEN = 0 and BUSY = 0; nothing else changes. -/
def State.errorCompletion (s : State) (e : ErrorCode) : State :=
  { s with
    status := { s.status with errcode := e.code, err := true, busy := false }
    outlen := 0 }

/-- Success completion (60 R271) of a command whose `pending` writes to BUF, Hreg and the schedule instance stand in
`s`: OUTLEN, ERRCODE = 0, DONE = 1, BUSY = 0. The scratch state is unspecified after it (10_state R45, R46, R48; log
entry 5). DESIGN CHOICE (log entry 22): the command latches, open between commands (93 I3), keep the values of the last
acceptance. -/
def State.successCompletion (s : State) (outlen : Nat) : State :=
  { s with
    status := { s.status with errcode := 0, done := true, busy := false }
    outlen := BitVec.ofNat 32 outlen
    scratch := Config.scratchAfter s.freeCount
    freeCount := s.freeCount + 1 }

/-! ### The run of one command -/

/-- The first check that applies, in the order listed (60 R258). -/
def firstError : List (Bool × ErrorCode) → Option ErrorCode
  | [] => none
  | (applies, e) :: rest => if applies then some e else firstError rest

/-- One command (00_scope R14): the check phase, which may end it in an error completion; the read of its input range,
a fault when a byte of it is unwritten (20_memory R62); and the compute phase, whose committed state is `commit` of
the input bytes. -/
def State.runCommand (s : State) (checks : List (Bool × ErrorCode)) (off n : Nat) (commit : List Byte → State) :
    Outcome :=
  match firstError checks with
  | some e => .next (s.errorCompletion e)
  | none =>
    match s.buf.readRange off n with
    | none => .fault .unwrittenRead
    | some input => .next (commit input)

/-- The bytes of the command word in flight, as CMD received them: the instruction `step` runs (10_state R47). -/
def State.fetchBytes (s : State) : List Byte :=
  wordBytesOf (CommandFields.toWord { opc := s.latch.opc, strip := s.latch.strip, rsv := s.latch.rsv })

end Sys2Proof.Machine
end

