-- ==== Sys2Proof/Machine/KeySchedule.lean ====
section
/-! DEFINITION. The key schedule expander (40_key_schedule): the function `KeyExpand` and the command KEYSETUP. -/

namespace Sys2Proof

/-- `P_w` of the magic-constant table (10_state R44, 40 R121). -/
def Params.magicP (p : Params) : (sw : WordSize) → BitVec sw.bits
  | .w16 => p.p16
  | .w32 => p.p32
  | .w64 => p.p64

/-- `Q_w` of the magic-constant table (10_state R44, 40 R121). -/
def Params.magicQ (p : Params) : (sw : WordSize) → BitVec sw.bits
  | .w16 => p.q16
  | .w32 => p.q32
  | .w64 => p.q64

/-- Step 1 of `KeyExpand` (40 R123), the padded key: zeros up to a multiple of wordBytes; the empty key is one zero
word. -/
def padKey (sw : WordSize) (key : List Byte) : List Byte :=
  if key.length = 0 then zeros sw.wordBytes
  else key ++ zeros ((sw.wordBytes - key.length % sw.wordBytes) % sw.wordBytes)

/-- Step 1 of `KeyExpand` (40 R123): the aligned key `L[0..c-1]`. -/
def alignKey (sw : WordSize) (key : List Byte) : List (BitVec sw.bits) :=
  (List.range ((padKey sw key).length / sw.wordBytes)).map fun j =>
    leWord sw.bits (slice (padKey sw key) (j * sw.wordBytes) ((j + 1) * sw.wordBytes))

/-- Step 2 of `KeyExpand` (40 R124): `S[i] = (P + i * Q) mod 2^w`. -/
def initTable (p : Params) (sw : WordSize) (t : Nat) : List (BitVec sw.bits) :=
  (List.range t).map fun i => p.magicP sw + BitVec.ofNat sw.bits i * p.magicQ sw

/-- What the mixing loop of 40 R125 carries. -/
structure Mix (w : Nat) where
  s : List (BitVec w)
  l : List (BitVec w)
  i : Nat
  j : Nat
  a : BitVec w
  b : BitVec w

/-- One iteration of the mixing loop (40 R125); the B update uses the A just computed. -/
def Mix.step {w : Nat} (m : Mix w) : Mix w :=
  let a := rotl (m.s.getD m.i 0 + m.a + m.b) 3
  let b := rotl (m.l.getD m.j 0 + a + m.b) ((a + m.b).toNat % w)
  { s := m.s.set m.i a
    l := m.l.set m.j b
    i := (m.i + 1) % m.s.length
    j := (m.j + 1) % m.l.length
    a := a
    b := b }

/-- `n` iterations of the mixing loop. -/
def Mix.run {w : Nat} : Nat → Mix w → Mix w
  | 0, m => m
  | n + 1, m => Mix.run n m.step

/-- `KeyExpand(w, R, key)` (40 R120): the table `S[0..T-1]`, after `3 * max(c, T)` iterations (40 R125). -/
def keyExpand (p : Params) (sw : WordSize) (rounds : Nat) (key : List Byte) : List (BitVec sw.bits) :=
  (Mix.run (3 * max (alignKey sw key).length (roundKeys rounds))
    { s := initTable p sw (roundKeys rounds), l := alignKey sw key, i := 0, j := 0, a := 0, b := 0 }).s

namespace Machine

/-- KEYSETUP's checks after UnsupportedWordSize, in order (40 R130, 60 R258). -/
def State.keysetupChecks (s : State) : List (Bool × ErrorCode) :=
  [ (decide (s.params.keyMaxBytes < s.lenL), .keyTooLong),
    (decide ¬ s.inBuf s.srcL s.lenL, .ioFailure) ]

/-- KEYSETUP's compute phase (40 R130): the new schedule instance, latched with SCHED_VALID at completion. -/
def State.keysetupCommit (s : State) (sw : WordSize) (key : List Byte) : State :=
  State.successCompletion
    { s with
      sched := Schedule.ofWords sw s.latch.rounds (keyExpand s.params sw s.latch.rounds.toNat key)
      schedValid := true } 0

/-- KEYSETUP (40 R130). -/
def execKeysetup (s : State) : Outcome :=
  match WordSize.ofWsel s.latch.wsel with
  | none => .next (s.errorCompletion .unsupportedWordSize)
  | some sw => s.runCommand s.keysetupChecks s.srcL s.lenL (s.keysetupCommit sw)

end Machine

end Sys2Proof
end

