-- ==== Sys2Proof/Machine/BlockCipher.lean ====
section
/-! DEFINITION. The block cipher datapath (41_block_cipher): the functions `Enc` and `Dec` and the commands ENCBLK and
DECBLK. -/

namespace Sys2Proof

/-- The two words of a block (41 R153): A is the first wordBytes bytes, B the next, both little-endian. -/
def splitBlock (sw : WordSize) (x : List Byte) : BitVec sw.bits × BitVec sw.bits :=
  (leWord sw.bits (slice x 0 sw.wordBytes), leWord sw.bits (slice x sw.wordBytes sw.blockBytes))

/-- `le_bytes(A, wordBytes) ++ le_bytes(B, wordBytes)` (41 R153, R154). -/
def joinBlock (sw : WordSize) (ab : BitVec sw.bits × BitVec sw.bits) : List Byte :=
  leBytes ab.1.toNat sw.wordBytes ++ leBytes ab.2.toNat sw.wordBytes

/-- Round i of `Enc` (41 R153); B's update uses the A just computed. -/
def encRound {w : Nat} (S : List (BitVec w)) (ab : BitVec w × BitVec w) (i : Nat) : BitVec w × BitVec w :=
  let a := rotl (ab.1 ^^^ ab.2) ab.2.toNat + S.getD (2 * i) 0
  let b := rotl (a ^^^ ab.2) a.toNat + S.getD (2 * i + 1) 0
  (a, b)

/-- Round i of `Dec` (41 R154); B's update uses the old A, A's the B just computed. -/
def decRound {w : Nat} (S : List (BitVec w)) (ab : BitVec w × BitVec w) (i : Nat) : BitVec w × BitVec w :=
  let b := rotr (ab.2 - S.getD (2 * i + 1) 0) ab.1.toNat ^^^ ab.1
  let a := rotr (ab.1 - S.getD (2 * i) 0) b.toNat ^^^ b
  (a, b)

/-- `Enc` on the two words: the initial subkeys, then rounds 1 to R (41 R153). -/
def encWords {w : Nat} (rounds : Nat) (S : List (BitVec w)) (ab : BitVec w × BitVec w) : BitVec w × BitVec w :=
  (List.range' 1 rounds).foldl (encRound S) (ab.1 + S.getD 0 0, ab.2 + S.getD 1 0)

/-- `Dec` on the two words: rounds R down to 1, then the initial subkeys (41 R154). -/
def decWords {w : Nat} (rounds : Nat) (S : List (BitVec w)) (ab : BitVec w × BitVec w) : BitVec w × BitVec w :=
  let r := (List.range' 1 rounds).reverse.foldl (decRound S) ab
  (r.1 - S.getD 0 0, r.2 - S.getD 1 0)

/-- `Enc(w, R, S, x)` (41 R153). -/
def enc (sw : WordSize) (rounds : Nat) (S : List (BitVec sw.bits)) (x : List Byte) : List Byte :=
  joinBlock sw (encWords rounds S (splitBlock sw x))

/-- `Dec(w, R, S, y)` (41 R154). -/
def dec (sw : WordSize) (rounds : Nat) (S : List (BitVec sw.bits)) (y : List Byte) : List Byte :=
  joinBlock sw (decWords rounds S (splitBlock sw y))

namespace Machine

/-- `Enc` under the schedule instance (41 R162, 30_encoding R95). -/
def State.encBlock (s : State) (x : List Byte) : List Byte := enc s.sched.sw s.sched.rounds s.sched.words x

/-- `Dec` under the schedule instance (41 R162, 30_encoding R95). -/
def State.decBlock (s : State) (y : List Byte) : List Byte := dec s.sched.sw s.sched.rounds s.sched.words y

/-- The checks of ENCBLK and DECBLK, in order (41 R160, R161, 60 R258). -/
def State.blockChecks (s : State) : List (Bool × ErrorCode) :=
  [ (!s.schedValid, .noSchedule),
    (decide (s.lenL ≠ s.bb), .invalidBlockLength),
    (decide ¬ s.inBuf s.srcL s.bb, .ioFailure),
    (decide ¬ s.inBuf s.dstL s.bb, .ioFailure) ]

/-- The commit of a command whose only pending writes are `out` at DST_L and its length in OUTLEN. -/
def State.commitOutput (s : State) (out : List Byte) : State :=
  State.successCompletion { s with buf := s.buf.writeRange s.dstL out } out.length

/-- ENCBLK (41 R160). -/
def execEncblk (s : State) : Outcome :=
  s.runCommand s.blockChecks s.srcL s.bb fun x => s.commitOutput (s.encBlock x)

/-- DECBLK (41 R161). -/
def execDecblk (s : State) : Outcome :=
  s.runCommand s.blockChecks s.srcL s.bb fun y => s.commitOutput (s.decBlock y)

end Machine

end Sys2Proof
end

