-- ==== Sys2Proof/Machine/HashUnit.lean ====
section
/-! DEFINITION. The hash unit (43_hash): padding, the Davies-Meyer compression, the hash function, and the commands HASH
and DMCOMP. -/

namespace Sys2Proof

/-- The number of zero bytes `Pad` appends: the least z that makes `n + 1 + z + 8` a multiple of `bb` (43 R210). -/
def padZeros (bb n : Nat) : Nat := (bb - (n + 9) % bb) % bb

/-- `Pad(w, data)` (43 R210): 0x80, zeros, and the original bit length as 8 little-endian bytes. -/
def hashPad (sw : WordSize) (data : List Byte) : List Byte :=
  data ++ [0x80] ++ zeros (padZeros sw.blockBytes data.length) ++ leBytes (8 * data.length) 8

/-- `Compress(w, R, H, m)` (43 R220): encrypt H under a schedule keyed with the block, and xor H. -/
def compress (p : Params) (sw : WordSize) (rounds : Nat) (h m : List Byte) : List Byte :=
  xorBytes (enc sw rounds (keyExpand p sw rounds m) h) h

/-- The fold of `HashFn` (43 R222) over the blocks of a padded message, from the chaining value `h`. -/
def compressBlocks (p : Params) (sw : WordSize) (rounds : Nat) (h padded : List Byte) : List Byte :=
  (List.range (padded.length / sw.blockBytes)).foldl
    (fun h k => compress p sw rounds h (slice padded (k * sw.blockBytes) ((k + 1) * sw.blockBytes))) h

/-- `HashFn(w, R, data)` (43 R222). -/
def hashFn (p : Params) (sw : WordSize) (rounds : Nat) (data : List Byte) : List Byte :=
  compressBlocks p sw rounds (zeros sw.blockBytes) (hashPad sw data)

namespace Machine

/-- HASH's checks, in order (43 R225, 60 R258). -/
def State.hashChecks (s : State) : List (Bool × ErrorCode) :=
  [ (!s.schedValid, .noSchedule),
    (decide ¬ s.inBuf s.srcL s.lenL, .ioFailure),
    (decide ¬ s.inBuf s.dstL s.dlen, .ioFailure) ]

/-- DMCOMP's checks, in order (43 R230, 60 R258). -/
def State.dmcompChecks (s : State) : List (Bool × ErrorCode) :=
  [ (!s.schedValid, .noSchedule),
    (decide (s.lenL ≠ s.bb), .invalidBlockLength),
    (decide ¬ s.inBuf s.srcL s.bb, .ioFailure) ]

/-- HASH's compute phase (43 R225): Hreg gets the chaining value and zeros above it, BUF the first `dlen` bytes. -/
def State.hashCommit (s : State) (data : List Byte) : State :=
  let h := hashFn s.params s.sched.sw s.sched.rounds data
  State.successCompletion
    { s with
      hreg := Hreg.ofBytes (h ++ zeros (16 - s.bb))
      buf := s.buf.writeRange s.dstL (h.take s.dlen) } s.dlen

/-- DMCOMP's compute phase (43 R230): one compression step on Hreg[0..bb); Hreg[bb..16) and BUF keep their values. -/
def State.dmcompCommit (s : State) (m : List Byte) : State :=
  State.successCompletion
    { s with
      hreg := Hreg.ofBytes (compress s.params s.sched.sw s.sched.rounds (s.hreg.bytes.take s.bb) m
        ++ s.hreg.bytes.drop s.bb) } 0

/-- HASH (43 R225). -/
def execHash (s : State) : Outcome := s.runCommand s.hashChecks s.srcL s.lenL s.hashCommit

/-- DMCOMP (43 R230). -/
def execDmcomp (s : State) : Outcome := s.runCommand s.dmcompChecks s.srcL s.bb s.dmcompCommit

end Machine

end Sys2Proof
end

