-- ==== Sys2Proof/Machine/StreamCodec.lean ====
section
/-! DEFINITION. The streaming codec (42_stream_codec): the functions `CodecEnc` and `CodecDec` and the commands CODEC_ENC,
CODEC_DEC and CODEC_DEC.STRIP. -/

namespace Sys2Proof

/-- A chunk right-padded with zero bytes to `bb` bytes (42 R180). -/
def padChunk (bb : Nat) (chunk : List Byte) : List Byte := chunk ++ zeros (bb - chunk.length)

/-- `CodecEnc(w, R, S, data)` (42 R180). -/
def codecEnc (sw : WordSize) (rounds : Nat) (S : List (BitVec sw.bits)) (data : List Byte) : List Byte :=
  (List.range (ceilDiv data.length sw.blockBytes)).flatMap fun k =>
    enc sw rounds S (padChunk sw.blockBytes (slice data (k * sw.blockBytes) ((k + 1) * sw.blockBytes)))

/-- `CodecDec(w, R, S, data, strip)` (42 R182); strip mode strips every block (42 R183). -/
def codecDec (sw : WordSize) (rounds : Nat) (S : List (BitVec sw.bits)) (data : List Byte) (strip : Bool) : List Byte :=
  (List.range (data.length / sw.blockBytes)).flatMap fun k =>
    let p := dec sw rounds S (slice data (k * sw.blockBytes) ((k + 1) * sw.blockBytes))
    if strip then rstrip0 p else p

namespace Machine

/-- CODEC_ENC's checks, in order (42 R185, 60 R258). -/
def State.codecEncChecks (s : State) : List (Bool × ErrorCode) :=
  [ (!s.schedValid, .noSchedule),
    (decide ¬ s.inBuf s.srcL s.lenL, .ioFailure),
    (decide ¬ s.inBuf s.dstL s.encLen, .ioFailure),
    (decide (CodecOverlap s.srcL s.lenL s.dstL s.encLen), .overlap) ]

/-- CODEC_DEC's checks, in order (42 R190, 60 R258). The output range checked is LEN_L bytes, strip mode or not. -/
def State.codecDecChecks (s : State) : List (Bool × ErrorCode) :=
  [ (!s.schedValid, .noSchedule),
    (decide (s.lenL % s.bb ≠ 0), .invalidBlockLength),
    (decide ¬ s.inBuf s.srcL s.lenL, .ioFailure),
    (decide ¬ s.inBuf s.dstL s.lenL, .ioFailure),
    (decide (CodecOverlap s.srcL s.lenL s.dstL s.lenL), .overlap) ]

/-- `CodecEnc` under the schedule instance. -/
def State.encStream (s : State) (data : List Byte) : List Byte := codecEnc s.sched.sw s.sched.rounds s.sched.words data

/-- `CodecDec` under the schedule instance. -/
def State.decStream (s : State) (data : List Byte) (strip : Bool) : List Byte :=
  codecDec s.sched.sw s.sched.rounds s.sched.words data strip

/-- CODEC_ENC (42 R185). -/
def execCodecEnc (s : State) : Outcome :=
  s.runCommand s.codecEncChecks s.srcL s.lenL fun data => s.commitOutput (s.encStream data)

/-- CODEC_DEC, strip mode off (42 R190). -/
def execCodecDec (s : State) : Outcome :=
  s.runCommand s.codecDecChecks s.srcL s.lenL fun data => s.commitOutput (s.decStream data false)

/-- CODEC_DEC.STRIP, strip mode on (42 R190). -/
def execCodecDecStrip (s : State) : Outcome :=
  s.runCommand s.codecDecChecks s.srcL s.lenL fun data => s.commitOutput (s.decStream data true)

end Machine

end Sys2Proof
end

