-- ==== Sys2Proof/Machine/Dispatch.lean ====
section
/-! DEFINITION. The dispatch from a decoded command to its meaning, one arm per constructor of Instr. -/

namespace Sys2Proof.Machine

/-- What a command in flight does to the state: its check phase, its compute phase and its completion (00_scope R14). -/
def exec (i : Instr) (s : State) : Host.Outcome State Fault Refusal :=
  match i with
  | .keysetup => Sys2Proof.Machine.execKeysetup s
  | .encblk => Sys2Proof.Machine.execEncblk s
  | .decblk => Sys2Proof.Machine.execDecblk s
  | .codecEnc => Sys2Proof.Machine.execCodecEnc s
  | .codecDec => Sys2Proof.Machine.execCodecDec s
  | .codecDecStrip => Sys2Proof.Machine.execCodecDecStrip s
  | .hash => Sys2Proof.Machine.execHash s
  | .dmcomp => Sys2Proof.Machine.execDmcomp s

end Sys2Proof.Machine
end

