-- ==== Sys2Proof/Machine/HostPort.lean ====
section
/-! DEFINITION. The host port: the aperture's address map (20_memory R63), access widths and bus errors (R65, R66), the
byte lanes (R64 (d)), register reads and writes (10_state R21 to R33), BUF accesses (R62, R72) and reset (70 R290). -/

namespace Sys2Proof.Machine

/-- The registers of 10_state R21. -/
inductive Reg where
  | cfg
  | cmd
  | status
  | src
  | dst
  | len
  | dsize
  | outlen
  | ie
  | h0
  | h1
  | h2
  | h3
deriving DecidableEq, Repr

/-- A register's aperture offset (10_state R21). -/
def Reg.offset : Reg → Nat
  | .cfg => 0x000
  | .cmd => 0x004
  | .status => 0x008
  | .src => 0x00C
  | .dst => 0x010
  | .len => 0x014
  | .dsize => 0x018
  | .outlen => 0x01C
  | .ie => 0x020
  | .h0 => 0x030
  | .h1 => 0x034
  | .h2 => 0x038
  | .h3 => 0x03C

/-- Every register of the map. -/
def Reg.all : List Reg := [.cfg, .cmd, .status, .src, .dst, .len, .dsize, .outlen, .ie, .h0, .h1, .h2, .h3]

/-- The register at an aperture offset; offsets that are no multiple of 4 or are reserved have none (10_state R32). -/
def regAt (off : Nat) : Option Reg := Reg.all.find? fun r => r.offset == off

/-- The number of bytes of an access. -/
def AccessSize.bytes : AccessSize → Nat
  | .byte => 1
  | .half => 2
  | .word => 4

/-- The size of an access. -/
def HostAccess.size : HostAccess → AccessSize
  | .read size _ => size
  | .write size _ _ => size

/-- The host address of an access. -/
def HostAccess.addr : HostAccess → Word
  | .read _ addr => addr
  | .write _ addr _ => addr

/-- The aperture offset of a host address: relative to BCE_BASE, modulo 2^32 (20_memory R63, log entry 3). -/
def State.offsetOf (s : State) (addr : Word) : Nat := (addr - s.params.bceBase).toNat

/-- The first aperture offset of BUF: host offset 0x1_0000 + k is BUF[k] (20_memory R63). -/
def bufWindow : Nat := 0x10000

/-- What a legal access reaches. -/
inductive Target where
  | register (r : Reg)
  | buf (off : Nat)
deriving DecidableEq, Repr

/-- The address map with the width and alignment rules (20_memory R63, R65): a register access is 32 bits wide at a
register's offset; a BUF access is naturally aligned and touches no byte at BUF_BYTES or above. `none` is a bus error
(20_memory R66). -/
def targetAt (bufBytes : Nat) (size : AccessSize) (off : Nat) : Option Target :=
  if off < bufWindow then
    if size = .word then (regAt off).map .register else none
  else if off + size.bytes ≤ bufWindow + bufBytes ∧ off % size.bytes = 0 then some (.buf (off - bufWindow))
  else none

/-- What an access reaches in a state. -/
def State.targetOf (s : State) (a : HostAccess) : Option Target :=
  targetAt s.params.bufBytes a.size (s.offsetOf a.addr)

/-- The port's `err` output for an access (30_encoding R112, 20_memory R66). -/
def State.busErr (s : State) (a : HostAccess) : Bool := (s.targetOf a).isNone

/-- The access is held while BUSY = 1: it is to BUF (20_memory R72). The port's `ready` output is low exactly then (30_encoding
R112). An access inside the BUF window that breaks the alignment rule is held too (log entry 9). -/
def State.holds (s : State) (a : HostAccess) : Bool :=
  s.status.busy && decide (bufWindow ≤ s.offsetOf a.addr ∧
    s.offsetOf a.addr < bufWindow + s.params.bufBytes)

/-- A 32-bit register read (10_state R21 to R31). CMD reads 0 (R23). -/
def State.readReg (s : State) : Reg → Word
  | .cfg => s.cfg.word
  | .cmd => 0
  | .status => s.statusWord
  | .src => s.src
  | .dst => s.dst
  | .len => s.len
  | .dsize => s.dsize
  | .outlen => s.outlen
  | .ie => s.ie.word
  | .h0 => s.hreg.h0
  | .h1 => s.hreg.h1
  | .h2 => s.hreg.h2
  | .h3 => s.hreg.h3

/-- A write to one of H0 to H3: ignored while BUSY = 1 (10_state R31, 70 R302). -/
def State.writeHreg (s : State) (h : Hreg) : State := if s.status.busy then s else { s with hreg := h }

/-- A 32-bit register write (10_state R21 to R33; while BUSY = 1, 70 R300 to R302). A CMD write is accepted when BUSY = 0
(60 R250) and dropped with OVR set when BUSY = 1 (70 R300); a write to OUTLEN is ignored (R29). -/
def State.writeReg (s : State) (r : Reg) (v : Word) : State :=
  match r with
  | .cfg => { s with cfg := Cfg.ofWord v }
  | .cmd => if s.status.busy then { s with status := { s.status with ovr := true } } else s.accept v
  | .status => { s with status := s.status.writeOneToClear v }
  | .src => { s with src := v }
  | .dst => { s with dst := v }
  | .len => { s with len := v }
  | .dsize => { s with dsize := v }
  | .outlen => s
  | .ie => { s with ie := IntEnable.ofWord v }
  | .h0 => s.writeHreg { s.hreg with h0 := v }
  | .h1 => s.writeHreg { s.hreg with h1 := v }
  | .h2 => s.writeHreg { s.hreg with h2 := v }
  | .h3 => s.writeHreg { s.hreg with h3 := v }

/-- Byte k of a write at aperture offset `off` travels on data bits `[8*((off+k) mod 4)+7 : 8*((off+k) mod 4)]` (20_memory
R64 (d)). -/
def laneByte (wdata : Word) (off k : Nat) : Byte := wdata.extractLsb' (8 * ((off + k) % 4)) 8

/-- The bytes of a write in address order, taken from their lanes. -/
def laneBytes (wdata : Word) (off : Nat) (size : AccessSize) : List Byte :=
  (List.range size.bytes).map (laneByte wdata off)

/-- Hand the bytes of a read back to the host. -/
def State.returnRead (s : State) (addr : Word) (bytes : List Byte) : State :=
  { s with hostReads := s.hostReads ++ [{ addr := addr, bytes := bytes }] }

/-- One host access, performed (20_memory R66, R68; 60 R275). -/
def State.hostAccess (s : State) (a : HostAccess) : Outcome :=
  match s.targetOf a with
  | none => .fault .busError
  | some (.register r) =>
    match a with
    | .read _ addr => .next (s.returnRead addr (leBytes (s.readReg r).toNat 4))
    | .write _ _ v => .next (s.writeReg r v)
  | some (.buf off) =>
    match a with
    | .read size addr =>
      match s.buf.readRange off size.bytes with
      | none => .fault .unwrittenRead
      | some bytes => .next (s.returnRead addr bytes)
    | .write size addr v =>
      .next { s with buf := s.buf.writeRange off (laneBytes v (s.offsetOf addr) size) }

/-- Reset asserted (70 R290 to R292): every piece of the machine's state takes its reset value, a command in flight is
abandoned, every BUF byte is unwritten. The parameters, the host's events and reads and the counter of free values are
not the machine's and stay. -/
def State.resetAsserted (s : State) : State :=
  { State.resetWith s.params with
    rst := true
    hostQueue := s.hostQueue
    hostReads := s.hostReads
    freeCount := s.freeCount }

/-- One host event with `rst` released, taken off the queue. A `poll` is performed as its last read, the one that returns
BUSY = 0: `step` holds it until then (30_encoding R110, log entry 8). -/
def State.hostEvent (s : State) (e : HostEvent) : Outcome :=
  match e with
  | .access a => s.hostAccess a
  | .poll => s.hostAccess (.read .word (s.params.bceBase + BitVec.ofNat 32 Reg.status.offset))
  | .assertReset => .next s.resetAsserted
  | .releaseReset => .next s

/-- The event cannot happen before the command in flight completes: a held BUF access (20_memory R72) or a poll
(30_encoding R110). -/
def State.waits (s : State) (e : HostEvent) : Bool :=
  match e with
  | .access a => s.holds a
  | .poll => s.status.busy
  | .assertReset => false
  | .releaseReset => false

end Sys2Proof.Machine
end

