-- ==== Sys2Proof/Machine/Engine.lean ====
section
/-! DEFINITION. The parts of a step: the completion of the command in flight, a host event, a reset cycle, and which of
them is next in the one total order of 20_memory R73. -/

namespace Sys2Proof.Machine

/-- The command in flight runs and completes (60 R250, R270, R271): the word in the latches is decoded; a legal word is
its instruction's meaning, any other ends in IllegalCommand (30_encoding R93, 60 R251). -/
def State.completeCommand (s : State) : Outcome :=
  match decode s.fetchBytes with
  | .ok (i, _) => exec i s
  | .error _ => .next (s.errorCompletion .illegalCommand)

/-- With `rst` asserted the machine keeps its reset state; the host may only release (or assert) `rst` (70 R290, R293). -/
def State.resetStep (s : State) : Outcome :=
  match s.hostQueue with
  | [] => .next s
  | .releaseReset :: q => .next { s with rst := false, hostQueue := q }
  | .assertReset :: q => .next { s with hostQueue := q }
  | .access _ :: _ => .refused .accessDuringReset
  | .poll :: _ => .refused .accessDuringReset

/-- The completion of the command in flight is the next event: no host event is ordered before it any more, or the host
offers none, or the next one must wait for the completion (20_memory R72, R73; log entry 6). DESIGN CHOICE (log entry
23): a reset queued behind a held access comes only after the completion and that access. -/
def State.completesNext (s : State) : Bool :=
  s.status.busy &&
    match s.hostQueue with
    | [] => true
    | e :: _ => s.latency == 0 || s.waits e

/-- The next host event is taken off the queue and performed. With nothing in flight and no host event the BCE waits and
keeps all its state (70 R290, 60 R289). -/
def State.hostStep (s : State) : Outcome :=
  match s.hostQueue with
  | [] => .next s
  | e :: q => State.hostEvent { s with hostQueue := q, latency := s.latency - 1 } e

/-- The word `c` as the command in flight, accepted with the registers as they stand, its completion the next event. -/
def State.fetching (s : State) (c : Word) : State := { s.latchCommand c with rst := false, latency := 0 }

end Sys2Proof.Machine
end

