-- ==== Sys2Proof/Machine/Step.lean ====
section
/-! DEFINITION. One step, the next event of the one total order of 20_memory R73, and where a command word is fetched
from. -/

namespace Sys2Proof.Machine

/-- One event: a cycle of reset, the completion of the command in flight, or a host event (20_memory R73, 70 R290). -/
def step (s : State) : Host.Outcome State Fault Refusal :=
  if s.rst then s.resetStep
  else if s.completesNext then s.completeCommand
  else s.hostStep

/-- The state in which the command word `w`, `nbits` wide, was just accepted and its completion is the very next event:
the next `step` runs exactly it (log entry 10). -/
def State.withFetchWord (s : State) (nbits w : Nat) : State := s.fetching (BitVec.ofNat 32 (w % 2 ^ nbits))

end Sys2Proof.Machine
end

