-- ==== Sys2Proof/Machine/HostProgram.lean ====
section
/-! DEFINITION. The host assembly of 30_encoding R110 and the pseudo-instructions of R111, as the host events they stand
for. The host's own control flow is outside the BCE (R110). -/

namespace Sys2Proof.Machine

/-- The host assembly (30_encoding R110). -/
inductive HostInstr where
  | wr (r : Reg) (v : Word)
  | rd (r : Reg)
  | wrb (k : Nat) (bytes : List Byte)
  | rdb (k n : Nat)
  | wrw (k : Nat) (v : Word)
  | rdw (k : Nat)
  | cmd (i : Instr)
  | poll
deriving DecidableEq, Repr

/-- The host address of an aperture offset (20_memory R63). -/
def hostAddr (p : Params) (off : Nat) : Word := p.bceBase + BitVec.ofNat 32 off

/-- A byte on the lane of its aperture offset (20_memory R64 (d)). -/
def onLane (off : Nat) (b : Byte) : Word := b.setWidth 32 <<< (8 * (off % 4))

/-- One byte write to BUF[k] (R110 `wrb`). -/
def writeByteEvent (p : Params) (k : Nat) (b : Byte) : HostEvent :=
  .access (.write .byte (hostAddr p (bufWindow + k)) (onLane (bufWindow + k) b))

/-- The bus transactions of one line (30_encoding R110). -/
def HostInstr.events (p : Params) : HostInstr → List HostEvent
  | .wr r v => [.access (.write .word (hostAddr p r.offset) v)]
  | .rd r => [.access (.read .word (hostAddr p r.offset))]
  | .wrb k bytes => bytes.zipIdx.map fun bi => writeByteEvent p (k + bi.2) bi.1
  | .rdb k n => (List.range n).map fun i => .access (.read .byte (hostAddr p (bufWindow + k + i)))
  | .wrw k v => [.access (.write .word (hostAddr p (bufWindow + k)) v)]
  | .rdw k => [.access (.read .word (hostAddr p (bufWindow + k)))]
  | .cmd i => [.access (.write .word (hostAddr p Reg.cmd.offset) (encodeWord i))]
  | .poll => [.poll]

/-- The pseudo-instructions (30_encoding R111); `sw` is the word size of the schedule instance the program set up. -/
inductive Pseudo where
  | cfg (sw : WordSize) (rounds : Nat)
  | keysetup (s n : Word)
  | encblk (sw : WordSize) (s d : Word)
  | decblk (sw : WordSize) (s d : Word)
  | cenc (s d n : Word)
  | cdec (s d n : Word)
  | cdecStrip (s d n : Word)
  | hash (s d n : Word) (k : Option Word)
  | dmcomp (sw : WordSize) (s : Word)
  | hclr
deriving DecidableEq, Repr

/-- The block size as the value `wr LEN, bb` writes. -/
def bbWord (sw : WordSize) : Word := BitVec.ofNat 32 sw.blockBytes

/-- `wr SRC, s ; wr DST, d ; wr LEN, n`. -/
def operands (s d n : Word) : List HostInstr := [.wr .src s, .wr .dst d, .wr .len n]

/-- The expansion of a pseudo-instruction (30_encoding R111). -/
def Pseudo.expand : Pseudo → List HostInstr
  | .cfg sw rounds => [.wr .cfg (BitVec.ofNat 32 rounds <<< 8 ||| sw.toWsel.setWidth 32)]
  | .keysetup s n => [.wr .src s, .wr .len n, .cmd .keysetup, .poll]
  | .encblk sw s d => operands s d (bbWord sw) ++ [.cmd .encblk, .poll]
  | .decblk sw s d => operands s d (bbWord sw) ++ [.cmd .decblk, .poll]
  | .cenc s d n => operands s d n ++ [.cmd .codecEnc, .poll]
  | .cdec s d n => operands s d n ++ [.cmd .codecDec, .poll]
  | .cdecStrip s d n => operands s d n ++ [.cmd .codecDecStrip, .poll]
  | .hash s d n none => operands s d n ++ [.wr .dsize 0, .cmd .hash, .poll]
  | .hash s d n (some k) => operands s d n ++ [.wr .dsize (0x80000000 ||| k), .cmd .hash, .poll]
  | .dmcomp sw s => [.wr .src s, .wr .len (bbWord sw), .cmd .dmcomp, .poll]
  | .hclr => [.wr .h0 0, .wr .h1 0, .wr .h2 0, .wr .h3 0]

/-- The host events of a host program. -/
def hostEvents (p : Params) (prog : List HostInstr) : List HostEvent := prog.flatMap (HostInstr.events p)

/-- The state in which the host goes on with a host program after the events it has still to do. -/
def State.withProgram (s : State) (prog : List HostInstr) : State :=
  { s with hostQueue := s.hostQueue ++ hostEvents s.params prog }

end Sys2Proof.Machine
end

