-- ==== Sys2Proof/Machine/Diffusion.lean ====
section
/-! DEFINITION. The diffusion analyzer of 44_diffusion_host, no part of the BCE (00_scope R4 (c)): the reference function over
`HashFn` (R241), and the host program that does it through two HASH commands (R240). -/

namespace Sys2Proof

/-- The report of 44 R241. -/
structure DiffusionReport where
  originalDigestHex : String
  modifiedDigestHex : String
  differingBitCount : Nat
  digestLength : Nat
deriving DecidableEq, Repr

/-- One lower-case hexadecimal digit. -/
def hexDigit (n : Nat) : Char := "0123456789abcdef".toList.getD n '0'

/-- `hex(s)`: two lower-case digits a byte, in byte order (44 R241). -/
def hexString (s : List Byte) : String :=
  String.ofList (s.flatMap fun b => [hexDigit (b.toNat / 16), hexDigit (b.toNat % 16)])

/-- The number of 1 bits of a byte string (44 R241). -/
def popcount (s : List Byte) : Nat := (s.map fun b => (List.range 8).countP fun k => b.getLsbD k).sum

/-- The buffer whose bit is flipped, and the index of the flipped byte (44 R241, R242). -/
def diffusionBuffer (data : List Byte) (byteIndex : Nat) : List Byte × Nat :=
  if data.length = 0 then (zeros (byteIndex + 1), byteIndex) else (data, byteIndex % data.length)

/-- `modified` of 44 R241: bit `bitIndex mod 8` flipped, bit 0 the least significant. -/
def diffusionModified (data : List Byte) (byteIndex bitIndex : Nat) : List Byte :=
  let b := diffusionBuffer data byteIndex
  b.1.set b.2 (b.1.getD b.2 0 ^^^ (1#8 <<< (bitIndex % 8)))

/-- The report on two digests (44 R241). -/
def diffusionReport (original modified : List Byte) : DiffusionReport where
  originalDigestHex := hexString original
  modifiedDigestHex := hexString modified
  differingBitCount := popcount (xorBytes original modified)
  digestLength := original.length

/-- `Compare(w, R, data, byteIndex, bitIndex)` (44 R241). -/
def diffusionCompare (p : Params) (sw : WordSize) (rounds : Nat) (data : List Byte) (byteIndex bitIndex : Nat) :
    DiffusionReport :=
  diffusionReport (hashFn p sw rounds data) (hashFn p sw rounds (diffusionModified data byteIndex bitIndex))

namespace Machine

/-- Write a message to BUF[src], hash it to BUF[dst] with DSIZE = 0, and read the digest of `bb` bytes (30_encoding R110,
R111 `hash s, d, n`). -/
def hashProgram (src dst bb : Nat) (data : List Byte) : List HostInstr :=
  [.wrb src data]
    ++ (Pseudo.hash (BitVec.ofNat 32 src) (BitVec.ofNat 32 dst) (BitVec.ofNat 32 data.length) none).expand
    ++ [.rdb dst bb]

/-- `Compare` as the host does it, through two HASH commands with DSIZE = 0 (44 R240). -/
def compareProgram (src dst bb : Nat) (data : List Byte) (byteIndex bitIndex : Nat) : List HostInstr :=
  hashProgram src dst bb data ++ hashProgram src dst bb (diffusionModified data byteIndex bitIndex)

/-- The report the host makes of the reads of `compareProgram`: each digest comes after the read of its `poll`. -/
def compareReport (bb : Nat) (reads : List HostRead) : DiffusionReport :=
  diffusionReport (((reads.drop 1).take bb).flatMap (·.bytes)) (((reads.drop (bb + 2)).take bb).flatMap (·.bytes))

end Machine

end Sys2Proof
end

