-- ==== Sys2Proof/Safety.lean ====
section
/-! DEFINITION. What the statements about runs are said in: the invariant of the reachable states, what a command never
changes, and the end of a run. -/

namespace Sys2Proof.Machine

/-- BUF is in its canonical form and lies inside `[0, BUF_BYTES)` (20_memory R61). -/
abbrev State.bufOk (s : State) : Prop := Memory.wf s.buf ∧ ∀ c ∈ s.buf, c.1 < s.params.bufBytes

/-- "`len(S) == T` always" (10_state R40). -/
abbrev State.schedOk (s : State) : Prop := s.sched.table.length = roundKeys s.sched.rounds

/-- DONE and ERR are never both 1, are both 0 while BUSY = 1, and go with their codes: 0 on success, 1 to 7 on an error
(10_state R24, 20_memory R71, 60 R255). -/
abbrev State.statusOk (s : State) : Prop :=
  ¬(s.status.done = true ∧ s.status.err = true) ∧
  (s.status.busy = true → s.status.done = false ∧ s.status.err = false) ∧
  (s.status.done = true → s.status.errcode = 0) ∧
  (s.status.err = true → s.status.errcode ≠ 0) ∧
  s.status.errcode.toNat ≤ 7

/-- While `rst` is asserted the engine is idle, no schedule instance is held, BUF is unwritten and irq is low (70 R290). -/
abbrev State.resetOk (s : State) : Prop :=
  s.rst = true → s.status.busy = false ∧ s.schedValid = false ∧ s.buf = [] ∧ s.irq = false

/-- The invariant of the reachable states. -/
structure State.Inv (s : State) : Prop where
  params_legal : s.params.legal
  buf_ok : s.bufOk
  sched_ok : s.schedOk
  status_ok : s.statusOk
  outlen_le : s.outlen.toNat ≤ s.params.bufBytes
  reset_ok : s.resetOk

/-- The state no command writes (30_encoding R96): the operand registers, CFG, IE, OVR, the reset level, the parameters, the
host's events and reads, and the rest of LATENCY. That the latches keep their values after a success completion is the
model's choice (log entry 22), no rule of the spec. -/
structure State.SameControl (s t : State) : Prop where
  cfg : t.cfg = s.cfg
  src : t.src = s.src
  dst : t.dst = s.dst
  len : t.len = s.len
  dsize : t.dsize = s.dsize
  ie : t.ie = s.ie
  ovr : t.status.ovr = s.status.ovr
  latch : t.latch = s.latch
  rst : t.rst = s.rst
  params : t.params = s.params
  latency : t.latency = s.latency
  hostQueue : t.hostQueue = s.hostQueue
  hostReads : t.hostReads = s.hostReads

/-- The STATUS bits of a success completion (60 R271): ERRCODE = 0, DONE = 1, BUSY = 0, ERR as it was. -/
structure State.Succeeded (s t : State) : Prop where
  errcode : t.status.errcode = 0
  done : t.status.done = true
  busy : t.status.busy = false
  err : t.status.err = s.status.err

/-- The schedule instance is the one of `s` (10_state R41). -/
structure State.SameSchedule (s t : State) : Prop where
  sched : t.sched = s.sched
  schedValid : t.schedValid = s.schedValid

/-- BUF of `t` is BUF of `s` with the bytes `out` stored from `off` on, and every other byte as it was. -/
abbrev State.Stores (s t : State) (off : Nat) (out : List Byte) : Prop :=
  (∀ k < out.length, Memory.read t.buf (off + k) = out[k]?) ∧
  ∀ a, a < off ∨ off + out.length ≤ a → Memory.read t.buf a = Memory.read s.buf a

/-- Every byte of BUF reads as before. -/
abbrev State.SameBuf (s t : State) : Prop := ∀ a, Memory.read t.buf a = Memory.read s.buf a

/-- The bytes of `[off, off + n)` are written and are `x` (00_scope R13, 20_memory R62). -/
abbrev State.InputIs (s : State) (off n : Nat) (x : List Byte) : Prop :=
  x.length = n ∧ ∀ k < n, Memory.read s.buf (off + k) = x[k]?

/-! ### What is next in the total order (20_memory R73) -/

/-- The next event is the host event `e`, with the events `q` after it. -/
abbrev State.NextIs (s : State) (e : HostEvent) (q : List HostEvent) : Prop :=
  s.rst = false ∧ s.hostQueue = e :: q ∧ (s.status.busy = false ∨ s.latency ≠ 0 ∧ s.waits e = false)

/-- The next event is the completion of the command in flight: the host offers no event, or none is ordered before it any
more, or the next one must wait. -/
abbrev State.CompletionIsNext (s : State) : Prop :=
  s.rst = false ∧ s.status.busy = true ∧
    (s.hostQueue = [] ∨ s.latency = 0 ∨ ∃ e q, s.hostQueue = e :: q ∧ s.waits e = true)

/-- The state in which the host event at the head of the queue is performed. -/
abbrev State.afterEvent (s : State) (q : List HostEvent) : State := { s with hostQueue := q, latency := s.latency - 1 }

/-- A 32-bit write to a register (30_encoding R110 `wr`). -/
abbrev State.wr (s : State) (r : Reg) (v : Word) : HostEvent := .access (.write .word (hostAddr s.params r.offset) v)

/-- A 32-bit read of a register (30_encoding R110 `rd`). -/
abbrev State.rd (s : State) (r : Reg) : HostEvent := .access (.read .word (hostAddr s.params r.offset))

/-- The accesses that end in no bus error (20_memory R63, R65, R66; 10_state R32). -/
abbrev State.LegalAccess (s : State) (a : HostAccess) : Prop :=
  (s.offsetOf a.addr < 0x40 ∧ a.size = .word ∧ s.offsetOf a.addr % 4 = 0 ∧
    ¬(0x24 ≤ s.offsetOf a.addr ∧ s.offsetOf a.addr < 0x30)) ∨
  (0x10000 ≤ s.offsetOf a.addr ∧ s.offsetOf a.addr + a.size.bytes ≤ 0x10000 + s.params.bufBytes ∧
    s.offsetOf a.addr % a.size.bytes = 0)

/-! ### The error rules as conditions (60 R251 to R263) -/

/-- The length of a command's input range, which begins at SRC_L (60 R262). -/
def State.inputLen (s : State) : Instr → Nat
  | .keysetup => s.lenL
  | .encblk => s.bb
  | .decblk => s.bb
  | .codecEnc => s.lenL
  | .codecDec => s.lenL
  | .codecDecStrip => s.lenL
  | .hash => s.lenL
  | .dmcomp => s.bb

/-- The length of a command's output range, which begins at DST_L, where it has one (60 R262). -/
def State.outputLen (s : State) : Instr → Option Nat
  | .keysetup => none
  | .encblk => some s.bb
  | .decblk => some s.bb
  | .codecEnc => some s.encLen
  | .codecDec => some s.lenL
  | .codecDecStrip => some s.lenL
  | .hash => some s.dlen
  | .dmcomp => none

/-- The condition of each error cause for a legal command (60 R252 to R257, R259). -/
def State.Applies (s : State) (i : Instr) : ErrorCode → Prop
  | .illegalCommand => False
  | .unsupportedWordSize => i = .keysetup ∧ s.latch.wsel = 3
  | .noSchedule => i ≠ .keysetup ∧ s.schedValid = false
  | .keyTooLong => i = .keysetup ∧ s.params.keyMaxBytes < s.lenL
  | .invalidBlockLength =>
    (i = .encblk ∨ i = .decblk ∨ i = .dmcomp) ∧ s.lenL ≠ s.bb ∨
      (i = .codecDec ∨ i = .codecDecStrip) ∧ s.lenL % s.bb ≠ 0
  | .ioFailure =>
    s.params.bufBytes < s.srcL + s.inputLen i ∨ ∃ m, s.outputLen i = some m ∧ s.params.bufBytes < s.dstL + m
  | .overlap =>
    (i = .codecEnc ∨ i = .codecDec ∨ i = .codecDecStrip) ∧
      ∃ m, s.outputLen i = some m ∧ Overlaps s.srcL s.lenL s.dstL m ∧ s.srcL ≠ s.dstL

/-- The place of an error cause in the order of 60 R258; the two IOFailure steps give one code and have no cause between
them. -/
def ErrorCode.priority : ErrorCode → Nat
  | .illegalCommand => 1
  | .unsupportedWordSize => 2
  | .noSchedule => 3
  | .keyTooLong => 4
  | .invalidBlockLength => 5
  | .ioFailure => 6
  | .overlap => 8

/-- The one error a legal command reports: its cause applies, and no cause before it in the order does (60 R258). -/
abbrev State.Reports (s : State) (i : Instr) (e : ErrorCode) : Prop :=
  s.Applies i e ∧ ∀ e' : ErrorCode, e'.priority < e.priority → ¬ s.Applies i e'

/-- No error cause applies: the command reaches its compute phase (00_scope R14). -/
abbrev State.Clean (s : State) (i : Instr) : Prop := ∀ e, ¬ s.Applies i e

/-! ### Hash by single compression steps (43 R231) -/

/-- `n` DMCOMP commands, the k-th with `SRC_L = off + k * bb` and `LEN_L = bb` (43 R231, 95 program P3). -/
def dmcompEach (off : Nat) : Nat → State → Outcome
  | 0, s => .next s
  | n + 1, s =>
    match dmcompEach off n s with
    | .next t =>
      exec .dmcomp { t with latch :=
        { t.latch with src := BitVec.ofNat 32 (off + n * t.bb), len := BitVec.ofNat 32 t.bb } }
    | .fault f => .fault f
    | .refused r => .refused r

/-! ### Runs -/

/-- The end of a host program's run (70 R312): the host has no further event, and no command is in flight. -/
abbrev State.final (s : State) : Prop := s.hostQueue = [] ∧ s.status.busy = false

/-- A run of `n` steps answers a next state: none of them faults or is refused. -/
abbrev SafeRun (n : Nat) (s : State) : Prop :=
  ∃ t : State, Host.Core.run Sys2Proof.core n s = .next t

end Sys2Proof.Machine
end

