-- ==== Sys2Proof/Certificates/Slice0/Obligations.lean ====
section
/-! DEFINITION. The statements for the provers: the rules of the spec as claims about the model. -/

open Sys2Proof Sys2Proof.Machine

/-! ### Encoding -/

/-- 30_encoding R92: the bytes of the eight command words, first byte lowest, decode to their commands. -/
def Obligations.SpecWordsDecode : Prop :=
  decode [0x01, 0x00, 0x00, 0x00] = .ok (.keysetup, []) ∧
  decode [0x02, 0x00, 0x00, 0x00] = .ok (.encblk, []) ∧
  decode [0x03, 0x00, 0x00, 0x00] = .ok (.decblk, []) ∧
  decode [0x04, 0x00, 0x00, 0x00] = .ok (.codecEnc, []) ∧
  decode [0x05, 0x00, 0x00, 0x00] = .ok (.codecDec, []) ∧
  decode [0x05, 0x01, 0x00, 0x00] = .ok (.codecDecStrip, []) ∧
  decode [0x06, 0x00, 0x00, 0x00] = .ok (.hash, []) ∧
  decode [0x07, 0x00, 0x00, 0x00] = .ok (.dmcomp, [])

/-- 30_encoding R93: which words are legal, in both of the rule's forms, and what becomes of every other word: a CMD write
of it while BUSY = 0 is accepted and BUSY rises, and its completion is the error completion with IllegalCommand. -/
def Obligations.ExactlyEightWordsAreLegal : Prop :=
  (∀ c : Word, (∃ i, decodeWord c = .ok i) ↔
    ((1 ≤ (c.extractLsb' 0 8).toNat ∧ (c.extractLsb' 0 8).toNat ≤ 7) ∧ c.extractLsb' 9 23 = 0 ∧
      (c.getLsbD 8 = false ∨ c.extractLsb' 0 8 = 0x05))) ∧
  (∀ c : Word, (∃ i, decodeWord c = .ok i) ↔
    c ∈ [0x00000001, 0x00000002, 0x00000003, 0x00000004, 0x00000005, 0x00000105, 0x00000006, (0x00000007 : Word)]) ∧
  (∀ (s : State) (c : Word) (q : List HostEvent), (∀ i, decodeWord c ≠ .ok i) → s.status.busy = false →
    s.NextIs (s.wr .cmd c) q →
    ∃ t, step s = .next t ∧ t.status.busy = true ∧ t.fetchBytes = wordBytesOf c ∧
      ∀ u : State, u.latch = t.latch → u.CompletionIsNext → step u = .next (u.errorCompletion .illegalCommand))

/-- Decode and encode agree, in both directions (30_encoding R90 to R93): some bytes decode to a command and a rest
exactly when they are the command's encoding followed by the rest. -/
def Obligations.DecodeAndEncodeAgree : Prop :=
  ∀ (bytes rest : List Byte) (i : Instr), decode bytes = .ok (i, rest) ↔ bytes = encode i ++ rest

/-! ### Steps -/

/-- When the completion of a command in flight is the next event and its word decodes to `i`, the step is `exec i`; and a
word placed by `withFetchWord` is run by the very next step. -/
def Obligations.StepRunsTheDecodedCommand : Prop :=
  (∀ (s : State) (i : Instr) (rest : List Byte), s.CompletionIsNext → decode s.fetchBytes = .ok (i, rest) →
    step s = exec i s) ∧
  (∀ (s : State) (i : Instr) (c : Word), decodeWord c = .ok i →
    step (s.withFetchWord 32 c.toNat) = exec i (s.withFetchWord 32 c.toNat))

/-- 60 R250: what a CMD write while BUSY = 0 latches and changes, and that it changes nothing else the host can see. -/
def Obligations.AcceptanceLatchesTheOperands : Prop :=
  ∀ (s : State) (c : Word) (q : List HostEvent), s.status.busy = false → s.NextIs (s.wr .cmd c) q →
    ∃ t, step s = .next t ∧
      t.latch.opc = c.extractLsb' 0 8 ∧ t.latch.strip = c.getLsbD 8 ∧ t.latch.rsv = c.extractLsb' 9 23 ∧
      t.latch.src = s.src ∧ t.latch.dst = s.dst ∧ t.latch.len = s.len ∧ t.latch.dsize = s.dsize ∧
      t.latch.wsel = s.cfg.wsel ∧ t.latch.rounds = s.cfg.rounds ∧
      t.status = { s.status with done := false, err := false, busy := true } ∧
      t.cfg = s.cfg ∧ t.src = s.src ∧ t.dst = s.dst ∧ t.len = s.len ∧ t.dsize = s.dsize ∧ t.outlen = s.outlen ∧
      t.ie = s.ie ∧ t.hreg = s.hreg ∧ t.schedValid = s.schedValid ∧ t.sched = s.sched ∧ t.buf = s.buf ∧
      t.scratch = s.scratch ∧ t.params = s.params ∧ t.rst = false ∧ t.hostQueue = q ∧ t.hostReads = s.hostReads

/-- 70 R300: a CMD write while BUSY = 1 sets OVR and changes nothing else of the machine. -/
def Obligations.CommandWriteWhileBusyIsDropped : Prop :=
  ∀ (s : State) (c : Word) (q : List HostEvent), s.status.busy = true → s.NextIs (s.wr .cmd c) q →
    step s = .next { s.afterEvent q with status := { s.status with ovr := true } }

/-- With nothing in flight and no host event, the state stays as it is (70 R290, 60 R289): the end of a run (70 R312) is a
fixpoint of the step, with reset asserted or not. -/
def Obligations.FinalStateKeepsItsState : Prop :=
  ∀ s : State, s.final → step s = .next s

/-! ### The commands

The frame of the command statements is `State.SameControl`; its clause about the latches is the model's choice (log entry 22),
and what they say of the schedule's storage rests on log entry 14. -/

/-- 40 R130: a KEYSETUP none of whose checks applies, with its key written, latches the schedule of the key. -/
def Obligations.KeysetupLatchesTheSchedule : Prop :=
  ∀ (s : State) (sw : WordSize) (key : List Byte),
    s.latch.wsel = sw.toWsel → s.lenL ≤ s.params.keyMaxBytes → s.srcL + s.lenL ≤ s.params.bufBytes →
    s.InputIs s.srcL s.lenL key →
    ∃ t, exec .keysetup s = .next t ∧
      t.schedValid = true ∧
      t.sched = Schedule.ofWords sw s.latch.rounds (keyExpand s.params sw s.latch.rounds.toNat key) ∧
      t.swsel = s.latch.wsel ∧ t.srounds = s.latch.rounds ∧
      t.outlen = 0 ∧ s.Succeeded t ∧ s.SameControl t ∧ t.hreg = s.hreg ∧ s.SameBuf t

/-- The storage of the schedule loses no bit of its words (10_state R40, R42): what is latched is what the commands read
back, T words of SW bits. -/
def Obligations.LatchedScheduleReadsBack : Prop :=
  ∀ (sw : WordSize) (rounds : BitVec 8) (words : List (BitVec sw.bits)),
    (Schedule.ofWords sw rounds words).words = words ∧ (Schedule.ofWords sw rounds words).rounds = rounds.toNat ∧
      (Schedule.ofWords sw rounds words).table.length = words.length

/-- 41 R160: an ENCBLK none of whose checks applies, with its input written, stores `Enc` of the block. -/
def Obligations.EncblkStoresTheCiphertext : Prop :=
  ∀ (s : State) (x : List Byte),
    s.schedValid = true → s.lenL = s.bb → s.srcL + s.bb ≤ s.params.bufBytes → s.dstL + s.bb ≤ s.params.bufBytes →
    s.InputIs s.srcL s.bb x →
    ∃ t out, exec .encblk s = .next t ∧ out = enc s.sched.sw s.sched.rounds s.sched.words x ∧ out.length = s.bb ∧
      s.Stores t s.dstL out ∧ t.outlen.toNat = s.bb ∧ s.Succeeded t ∧ s.SameControl t ∧ s.SameSchedule t ∧
      t.hreg = s.hreg

/-- 41 R161: a DECBLK none of whose checks applies, with its input written, stores `Dec` of the block. -/
def Obligations.DecblkStoresThePlaintext : Prop :=
  ∀ (s : State) (y : List Byte),
    s.schedValid = true → s.lenL = s.bb → s.srcL + s.bb ≤ s.params.bufBytes → s.dstL + s.bb ≤ s.params.bufBytes →
    s.InputIs s.srcL s.bb y →
    ∃ t out, exec .decblk s = .next t ∧ out = dec s.sched.sw s.sched.rounds s.sched.words y ∧ out.length = s.bb ∧
      s.Stores t s.dstL out ∧ t.outlen.toNat = s.bb ∧ s.Succeeded t ∧ s.SameControl t ∧ s.SameSchedule t ∧
      t.hreg = s.hreg

/-- 42 R185: a CODEC_ENC none of whose checks applies, with its input written, stores `CodecEnc` of the stream. -/
def Obligations.CodecEncStoresTheCiphertext : Prop :=
  ∀ (s : State) (data : List Byte) (m : Nat),
    s.schedValid = true → m = ceilDiv s.lenL s.bb * s.bb → s.srcL + s.lenL ≤ s.params.bufBytes →
    s.dstL + m ≤ s.params.bufBytes → (Overlaps s.srcL s.lenL s.dstL m → s.srcL = s.dstL) →
    s.params.bufBytes ≤ 2 ^ 31 → s.InputIs s.srcL s.lenL data →
    ∃ t out, exec .codecEnc s = .next t ∧ out = codecEnc s.sched.sw s.sched.rounds s.sched.words data ∧
      out.length = m ∧ s.Stores t s.dstL out ∧ t.outlen.toNat = m ∧ s.Succeeded t ∧ s.SameControl t ∧
      s.SameSchedule t ∧ t.hreg = s.hreg

/-- 42 R190, strip off: a CODEC_DEC none of whose checks applies, with its input written, stores `CodecDec` of the
stream, as long as the input. -/
def Obligations.CodecDecStoresThePlaintext : Prop :=
  ∀ (s : State) (data : List Byte),
    s.schedValid = true → s.lenL % s.bb = 0 → s.srcL + s.lenL ≤ s.params.bufBytes →
    s.dstL + s.lenL ≤ s.params.bufBytes → (Overlaps s.srcL s.lenL s.dstL s.lenL → s.srcL = s.dstL) →
    s.InputIs s.srcL s.lenL data →
    ∃ t out, exec .codecDec s = .next t ∧ out = codecDec s.sched.sw s.sched.rounds s.sched.words data false ∧
      out.length = s.lenL ∧ s.Stores t s.dstL out ∧ t.outlen = s.latch.len ∧ s.Succeeded t ∧ s.SameControl t ∧
      s.SameSchedule t ∧ t.hreg = s.hreg

/-- 42 R190, strip on: a CODEC_DEC.STRIP none of whose checks applies, with its input written, stores `CodecDec` of the
stream with each block stripped; no byte beyond OUTLEN is written. -/
def Obligations.CodecDecStripStoresTheStripped : Prop :=
  ∀ (s : State) (data : List Byte),
    s.schedValid = true → s.lenL % s.bb = 0 → s.srcL + s.lenL ≤ s.params.bufBytes →
    s.dstL + s.lenL ≤ s.params.bufBytes → (Overlaps s.srcL s.lenL s.dstL s.lenL → s.srcL = s.dstL) →
    s.InputIs s.srcL s.lenL data →
    ∃ t out, exec .codecDecStrip s = .next t ∧ out = codecDec s.sched.sw s.sched.rounds s.sched.words data true ∧
      out.length ≤ s.lenL ∧ s.Stores t s.dstL out ∧ t.outlen.toNat = out.length ∧ s.Succeeded t ∧ s.SameControl t ∧
      s.SameSchedule t ∧ t.hreg = s.hreg

/-- 43 R225: a HASH none of whose checks applies, with its message written, leaves `HashFn` of the message in Hreg with
zeros above it, and its first `dlen` bytes at DST_L. -/
def Obligations.HashStoresTheDigest : Prop :=
  ∀ (s : State) (data : List Byte) (h : List Byte),
    s.schedValid = true → s.srcL + s.lenL ≤ s.params.bufBytes → s.dstL + s.dlen ≤ s.params.bufBytes →
    s.InputIs s.srcL s.lenL data → h = hashFn s.params s.sched.sw s.sched.rounds data →
    ∃ t, exec .hash s = .next t ∧ h.length = s.bb ∧ t.hreg.bytes = h ++ zeros (16 - s.bb) ∧
      s.Stores t s.dstL (h.take s.dlen) ∧ (h.take s.dlen).length = s.dlen ∧ t.outlen.toNat = s.dlen ∧
      s.Succeeded t ∧ s.SameControl t ∧ s.SameSchedule t

/-- 43 R230: a DMCOMP none of whose checks applies, with its block written, compresses Hreg[0..bb) and leaves
Hreg[bb..16) and BUF. -/
def Obligations.DmcompCompressesHreg : Prop :=
  ∀ (s : State) (m : List Byte),
    s.schedValid = true → s.lenL = s.bb → s.srcL + s.bb ≤ s.params.bufBytes → s.InputIs s.srcL s.bb m →
    ∃ t, exec .dmcomp s = .next t ∧
      t.hreg.bytes.take s.bb = compress s.params s.sched.sw s.sched.rounds (s.hreg.bytes.take s.bb) m ∧
      t.hreg.bytes.drop s.bb = s.hreg.bytes.drop s.bb ∧
      s.SameBuf t ∧ t.outlen = 0 ∧ s.Succeeded t ∧ s.SameControl t ∧ s.SameSchedule t

/-! ### Errors -/

/-- 60 R258: which error a command reports. A legal command ends in the error completion with `e` exactly when the cause
of `e` applies and no cause before it in the order does; a word that is no command ends in IllegalCommand whatever
else applies. -/
def Obligations.FirstErrorInOrderIsReported : Prop :=
  (∀ (i : Instr) (s : State) (e : ErrorCode), exec i s = .next (s.errorCompletion e) ↔ s.Reports i e) ∧
  (∀ s : State, s.CompletionIsNext → (∀ i rest, decode s.fetchBytes ≠ .ok (i, rest)) →
    step s = .next (s.errorCompletion .illegalCommand))

/-- 60 R270: after an error completion the state is the state at acceptance but for ERRCODE, ERR, OUTLEN and BUSY. -/
def Obligations.ErrorCompletionIsPrecise : Prop :=
  ∀ s t : State, s.CompletionIsNext → step s = .next t → t.status.errcode ≠ 0 →
    ∃ e : ErrorCode, t = { s with
      status := { s.status with errcode := e.code, err := true, busy := false }
      outlen := 0 }

/-- 20_memory R62, 60 R275: a command faults exactly when its checks pass and a byte of its input range is unwritten, and
then with UnwrittenRead; it is never refused. That the checks come first is the model's reading (log entry 11). -/
def Obligations.CommandFaultsOnUnwrittenInputOnly : Prop :=
  ∀ (i : Instr) (s : State),
    (∀ f, exec i s = .fault f ↔ f = .unwrittenRead ∧ s.Clean i ∧
      ∃ k < s.inputLen i, Memory.read s.buf (s.srcL + k) = none) ∧
    (∀ r, exec i s ≠ .refused r)

/-- 60 R271: a command none of whose checks applies, with its input written, ends in a success completion. -/
def Obligations.CleanCommandSucceeds : Prop :=
  ∀ (i : Instr) (s : State), s.Clean i → (∀ k < s.inputLen i, Memory.read s.buf (s.srcL + k) ≠ none) →
    ∃ t, exec i s = .next t ∧ s.Succeeded t ∧ s.SameControl t

/-- 40 R131, 10_state R41, 40 R132: S, SW, SR and SCHED_VALID change only at a successful KEYSETUP completion and at a
reset; in particular a KEYSETUP that ends in an error leaves them. -/
def Obligations.OnlyKeysetupOrResetChangesTheSchedule : Prop :=
  ∀ s t : State, step s = .next t → (t.sched ≠ s.sched ∨ t.schedValid ≠ s.schedValid) →
    (s.CompletionIsNext ∧ (∃ rest, decode s.fetchBytes = .ok (.keysetup, rest)) ∧ t.schedValid = true ∧
      t.status.done = true ∧ t.status.errcode = 0) ∨
    (∃ q, s.NextIs .assertReset q ∧ t.schedValid = false)

/-! ### The cipher functions -/

/-- 41 R151 with R150: rotations undo each other; amounts 0 and w leave the word; amount w + 1 is amount 1; bit i goes
to bit (i + n) mod w. -/
def Obligations.RotationsInvertEachOther : Prop :=
  ∀ (sw : WordSize) (v : BitVec sw.bits) (n : Nat),
    rotr (rotl v n) n = v ∧ rotl (rotr v n) n = v ∧ rotl v 0 = v ∧ rotl v sw.bits = v ∧
      rotl v (sw.bits + 1) = rotl v 1 ∧
      ∀ i < sw.bits, (rotl v n).getLsbD ((i + n) % sw.bits) = v.getLsbD i

/-- 40 R122: the number of aligned key words and of round keys, and their bounds. -/
def Obligations.KeyScheduleSizes : Prop :=
  ∀ (p : Params) (sw : WordSize) (rounds : Nat) (key : List Byte), rounds ≤ 255 →
    sw.wordBytes = sw.bits / 8 ∧
    (alignKey sw key).length = max 1 ((key.length + sw.wordBytes - 1) / sw.wordBytes) ∧
    1 ≤ (alignKey sw key).length ∧
    (keyExpand p sw rounds key).length = 2 * (rounds + 1) ∧
    2 ≤ (keyExpand p sw rounds key).length ∧ (keyExpand p sw rounds key).length ≤ 512

/-- 40 R126 (a), (b): the empty key is one zero word; zeros up to the next multiple of wordBytes change nothing. -/
def Obligations.KeyPaddingChangesNothing : Prop :=
  ∀ (p : Params) (sw : WordSize) (rounds : Nat),
    keyExpand p sw rounds [] = keyExpand p sw rounds (zeros sw.wordBytes) ∧
    ∀ (key : List Byte) (n : Nat), key ≠ [] →
      n ≤ (sw.wordBytes - key.length % sw.wordBytes) % sw.wordBytes →
      keyExpand p sw rounds (key ++ zeros n) = keyExpand p sw rounds key

/-- 41 R155: `Dec` undoes `Enc`, and `Enc` undoes `Dec`, on every block. -/
def Obligations.DecryptionInvertsEncryption : Prop :=
  ∀ (sw : WordSize) (rounds : Nat) (S : List (BitVec sw.bits)) (x : List Byte), x.length = sw.blockBytes →
    dec sw rounds S (enc sw rounds S x) = x ∧ enc sw rounds S (dec sw rounds S x) = x

/-- 42 R181: the length of `CodecEnc`, and that zeros filling the last block leave the output as it is, so the input's
length is not recorded in it. -/
def Obligations.CodecEncLengthIsWholeBlocks : Prop :=
  ∀ (sw : WordSize) (rounds : Nat) (S : List (BitVec sw.bits)) (data : List Byte) (m : Nat),
    m = (data.length + sw.blockBytes - 1) / sw.blockBytes * sw.blockBytes →
    (codecEnc sw rounds S data).length = m ∧ (data = [] → codecEnc sw rounds S data = []) ∧
      codecEnc sw rounds S (data ++ zeros (m - data.length)) = codecEnc sw rounds S data

/-- 42 R184 (b), (c): decrypting an encrypted stream gives the stream back, filled with zeros to whole blocks. -/
def Obligations.CodecRoundTripPadsWithZeros : Prop :=
  ∀ (sw : WordSize) (rounds : Nat) (S : List (BitVec sw.bits)) (data : List Byte),
    codecDec sw rounds S (codecEnc sw rounds S data) false =
      data ++ zeros ((data.length + sw.blockBytes - 1) / sw.blockBytes * sw.blockBytes - data.length)

/-- 42 R191: OUTLEN of CODEC_DEC and CODEC_DEC.STRIP on success, and how the output blocks are packed in either mode: block k
begins where the blocks before it end. -/
def Obligations.StripPacksTheStrippedBlocks : Prop :=
  ∀ (s : State) (data : List Byte) (block : Nat → List Byte),
    s.Clean .codecDecStrip → s.InputIs s.srcL s.lenL data →
    (∀ k, block k = rstrip0 (dec s.sched.sw s.sched.rounds s.sched.words (slice data (k * s.bb) ((k + 1) * s.bb)))) →
    (∃ t, exec .codecDecStrip s = .next t ∧
      t.outlen.toNat = ((List.range (s.lenL / s.bb)).map fun k => (block k).length).sum ∧
      t.outlen.toNat ≤ s.lenL ∧
      ∀ k < s.lenL / s.bb, ∀ j < (block k).length,
        Memory.read t.buf (s.dstL + ((List.range k).map fun l => (block l).length).sum + j) = (block k)[j]?) ∧
    (∃ t, exec .codecDec s = .next t ∧ t.outlen.toNat = s.lenL ∧
      ∀ k < s.lenL / s.bb, ∀ j < s.bb, Memory.read t.buf (s.dstL + k * s.bb + j) =
        (dec s.sched.sw s.sched.rounds s.sched.words (slice data (k * s.bb) ((k + 1) * s.bb)))[j]?)

/-- 43 R211 with R210: the length, beginning and end of the padded message, and that the zeros are the fewest. -/
def Obligations.PaddedMessageIsWholeBlocks : Prop :=
  ∀ (sw : WordSize) (data : List Byte),
    (hashPad sw data).length % sw.blockBytes = 0 ∧ 9 ≤ (hashPad sw data).length ∧
    data <+: hashPad sw data ∧
    (hashPad sw data).drop ((hashPad sw data).length - 8) = leBytes (8 * data.length) 8 ∧
    (data.length < 2 ^ 32 → leNat ((hashPad sw data).drop ((hashPad sw data).length - 8)) = 8 * data.length) ∧
    ∀ z, (data.length + 1 + z + 8) % sw.blockBytes = 0 → (hashPad sw data).length ≤ data.length + 1 + z + 8

/-- 43 R224, R226: the digest length, and that a truncated digest is the beginning of the full one and leaves the same
Hreg. -/
def Obligations.DigestTruncationIsAPrefix : Prop :=
  ∀ (s t : State) (k : Nat), s.Clean .hash → s.latch.dsize = 0 → exec .hash s = .next t → 0 < k → k ≤ s.bb →
    ∃ u, exec .hash { s with latch := { s.latch with dsize := 0x80000000 ||| BitVec.ofNat 32 k } } = .next u ∧
      t.outlen.toNat = s.bb ∧ u.outlen.toNat = k ∧ u.hreg = t.hreg ∧
      ∀ j < k, Memory.read u.buf (s.dstL + j) = Memory.read t.buf (s.dstL + j)

/-- 43 R223: HASH and DMCOMP do not depend on the schedule's table S, nor on the key it was built from. -/
def Obligations.HashIgnoresTheScheduleTable : Prop :=
  ∀ (i : Instr) (s t : State) (table : List (BitVec 64)), i = .hash ∨ i = .dmcomp → exec i s = .next t →
    ∃ u, exec i { s with sched := { s.sched with table := table } } = .next u ∧
      u.buf = t.buf ∧ u.hreg = t.hreg ∧ u.outlen = t.outlen ∧ u.status = t.status

/-- 43 R231: one DMCOMP a block over the padded message from a zero Hreg leaves `HashFn` of the message in Hreg[0..bb),
the value HASH gives. -/
def Obligations.DmcompPerBlockIsHash : Prop :=
  ∀ (s : State) (data : List Byte) (off : Nat),
    s.schedValid = true → s.params.legal → s.hreg = { h0 := 0, h1 := 0, h2 := 0, h3 := 0 } →
    off + (hashPad s.sched.sw data).length ≤ s.params.bufBytes →
    s.InputIs off (hashPad s.sched.sw data).length (hashPad s.sched.sw data) →
    ∃ t, dmcompEach off ((hashPad s.sched.sw data).length / s.bb) s = .next t ∧
      t.hreg.bytes.take s.bb = hashFn s.params s.sched.sw s.sched.rounds data ∧
      ∀ u v : State, u.params = s.params → u.sched.sw = s.sched.sw → u.sched.sr = s.sched.sr →
        u.InputIs u.srcL u.lenL data → u.Clean .hash → exec .hash u = .next v →
        v.hreg.bytes.take s.bb = t.hreg.bytes.take s.bb

/-- 41 R155, R160, R161 at the machine: after a successful ENCBLK, a DECBLK of its output under the same schedule
instance stores the original block. -/
def Obligations.DecblkAfterEncblkRestoresTheBlock : Prop :=
  ∀ (s t : State) (x : List Byte) (d : Word), s.Clean .encblk → s.InputIs s.srcL s.bb x → exec .encblk s = .next t →
    d.toNat + s.bb ≤ s.params.bufBytes →
    ∃ u, exec .decblk { t with latch := { s.latch with src := s.latch.dst, dst := d } } = .next u ∧
      u.InputIs d.toNat s.bb x ∧ u.outlen.toNat = s.bb

/-! ### The host port -/

/-- 10_state R22 to R33: what a register other than CMD reads right after a host write to it while BUSY = 0, for every value:
reserved fields read 0, OUTLEN and the read-only STATUS fields are unchanged, the STATUS bits 1, 2 and 4 are cleared where
the written bit is 1. A CMD write is the issue of a command, not a register write (R23); what CMD reads is stated in
`RegisterReadHasNoEffect`, and writes in any phase in `RegisterWriteChangesThatRegisterOnly`. -/
def Obligations.RegisterReadsBackAsWritten : Prop :=
  ∀ (s : State) (r : Reg) (v : Word) (q : List HostEvent), r ≠ .cmd → s.status.busy = false →
    s.NextIs (s.wr r v) (s.rd r :: q) →
    ∃ t x, Host.Core.run Sys2Proof.core 2 s = .next t ∧
      (t : State).hostReads = s.hostReads ++ [{ addr := hostAddr s.params r.offset, bytes := leBytes (x : Word).toNat 4 }] ∧
      x = match r with
        | .cfg => v &&& 0x0000FF03
        | .cmd => 0
        | .status => s.statusWord &&& ~~~(v &&& 0x00000016)
        | .src => v
        | .dst => v
        | .len => v
        | .dsize => v
        | .outlen => s.outlen
        | .ie => v &&& 0x00000003
        | .h0 => v
        | .h1 => v
        | .h2 => v
        | .h3 => v

/-- 10_state R22 to R33, R51, 70 R301, R302: a host write to a register other than CMD, in any phase, is performed on that
register, which then reads its new value (H0 to H3 only while BUSY = 0), and changes that register alone: of STATUS only
the bits DONE, ERR and OVR can fall, none can rise. -/
def Obligations.RegisterWriteChangesThatRegisterOnly : Prop :=
  ∀ (s : State) (r : Reg) (v : Word) (q : List HostEvent), r ≠ .cmd → s.NextIs (s.wr r v) q →
    ∃ t, step s = .next t ∧
      (∀ r', r' ≠ r → t.readReg r' = s.readReg r') ∧
      t.readReg r = (match r with
        | .cfg => v &&& 0x0000FF03
        | .cmd => 0
        | .status => s.statusWord &&& ~~~(v &&& 0x00000016)
        | .src => v
        | .dst => v
        | .len => v
        | .dsize => v
        | .outlen => s.outlen
        | .ie => v &&& 0x00000003
        | .h0 => if s.status.busy then s.hreg.h0 else v
        | .h1 => if s.status.busy then s.hreg.h1 else v
        | .h2 => if s.status.busy then s.hreg.h2 else v
        | .h3 => if s.status.busy then s.hreg.h3 else v) ∧
      t.statusWord &&& ~~~s.statusWord = 0 ∧
      t.buf = s.buf ∧ t.sched = s.sched ∧ t.schedValid = s.schedValid ∧ t.latch = s.latch ∧ t.hostReads = s.hostReads

/-- 70 R302: while BUSY = 1 a write to H0 to H3 is ignored, and a write to STATUS clears OVR where written 1 and has no
other effect. -/
def Obligations.BusyProtectsHregAndStatus : Prop :=
  ∀ (s : State) (r : Reg) (v : Word) (q : List HostEvent), s.status.busy = true → s.statusOk →
    s.NextIs (s.wr r v) q →
    (r = .h0 ∨ r = .h1 ∨ r = .h2 ∨ r = .h3 → step s = .next (s.afterEvent q)) ∧
    (r = .status → step s = .next { s.afterEvent q with
      status := { s.status with ovr := s.status.ovr && !v.getLsbD 4 } })

/-- 70 R301, 10_state R47: a register write while BUSY = 1 does not change what the command in flight does: with it or
without it the command faults alike or commits the same BUF, Hreg, schedule instance, OUTLEN and result bits. -/
def Obligations.BusyWritesDoNotReachTheCommand : Prop :=
  ∀ (i : Instr) (s : State) (r : Reg) (v : Word), s.status.busy = true → s.statusOk →
    (∀ f, exec i s = .fault f ↔ exec i (s.writeReg r v) = .fault f) ∧
    ∀ t, exec i s = .next t → ∃ u, exec i (s.writeReg r v) = .next u ∧
      u.buf = t.buf ∧ u.hreg = t.hreg ∧ u.sched = t.sched ∧ u.schedValid = t.schedValid ∧ u.outlen = t.outlen ∧
      u.status.errcode = t.status.errcode ∧ u.status.done = t.status.done ∧ u.status.err = t.status.err ∧
      u.status.busy = t.status.busy

/-- 20_memory R66 with R63, R65 and 10_state R32: a host access faults with BusError exactly when it is no legal access;
and a legal one never does. -/
def Obligations.BusErrorExactlyOnIllegalAccess : Prop :=
  ∀ (s : State) (a : HostAccess) (q : List HostEvent), s.NextIs (.access a) q →
    (step s = .fault .busError ↔ ¬ s.LegalAccess a)

/-- 20_memory R64 (d), R65: a host write of 8, 16 or 32 bits to BUF stores its bytes little-endian, each from the lane of
its offset, and nothing else. -/
def Obligations.HostBufWriteStoresItsBytes : Prop :=
  ∀ (s : State) (size : AccessSize) (k : Nat) (v : Word) (q : List HostEvent), s.status.busy = false →
    s.params.legal → k + size.bytes ≤ s.params.bufBytes → k % size.bytes = 0 →
    s.NextIs (.access (.write size (hostAddr s.params (0x10000 + k)) v)) q →
    ∃ t, step s = .next t ∧
      s.Stores t k (leBytes (v.toNat / 2 ^ (8 * (k % 4))) size.bytes) ∧
      (∀ r, t.readReg r = s.readReg r) ∧ t.latch = s.latch ∧ t.sched = s.sched ∧ t.schedValid = s.schedValid ∧
      t.hostReads = s.hostReads ∧ t.hostQueue = q

/-- 20_memory R62, R64 (d), R68: a legal BUF read returns the bytes in address order when all are written, faults with
UnwrittenRead when one is not, and has no effect on the machine. -/
def Obligations.HostBufReadReturnsItsBytes : Prop :=
  ∀ (s : State) (size : AccessSize) (k : Nat) (q : List HostEvent), s.status.busy = false →
    s.params.legal → k + size.bytes ≤ s.params.bufBytes → k % size.bytes = 0 →
    s.NextIs (.access (.read size (hostAddr s.params (0x10000 + k)))) q →
    (∀ x, s.InputIs k size.bytes x → step s = .next { s.afterEvent q with
      hostReads := s.hostReads ++ [{ addr := hostAddr s.params (0x10000 + k), bytes := x }] }) ∧
    ((∃ j < size.bytes, Memory.read s.buf (k + j) = none) → step s = .fault .unwrittenRead)

/-- 20_memory R72: a BUF access while BUSY = 1 is held until the completion, which is the next event; the access is still
to come after it and is then performed on the committed state. -/
def Obligations.BufAccessIsHeldUntilCompletion : Prop :=
  ∀ (s t : State) (a : HostAccess) (q : List HostEvent) (k : Nat), s.rst = false → s.status.busy = true →
    s.hostQueue = .access a :: q → s.targetOf a = some (.buf k) →
    step s = s.completeCommand ∧
    (step s = .next t → t.status.busy = false ∧ t.hostQueue = .access a :: q ∧
      step t = State.hostAccess (t.afterEvent q) a)

/-- 30_encoding R110 `poll`: while BUSY = 1 a poll waits for the completion; then it returns STATUS with bit 0 = 0. -/
def Obligations.PollReturnsAfterCompletion : Prop :=
  ∀ (s : State) (q : List HostEvent), s.rst = false → s.hostQueue = .poll :: q →
    (s.status.busy = true → step s = s.completeCommand) ∧
    (s.status.busy = false → step s = .next { s.afterEvent q with
      hostReads := s.hostReads ++ [{ addr := hostAddr s.params 0x008, bytes := leBytes s.statusWord.toNat 4 }] } ∧
      s.statusWord.getLsbD 0 = false)

/-- 10_state R24, R31 layouts: the STATUS word's fields at their bits, and Hreg's bytes in H0 to H3. -/
def Obligations.RegisterFieldsAtTheirBits : Prop :=
  ∀ s : State,
    s.statusWord.getLsbD 0 = s.status.busy ∧ s.statusWord.getLsbD 1 = s.status.done ∧
    s.statusWord.getLsbD 2 = s.status.err ∧ s.statusWord.getLsbD 3 = s.schedValid ∧
    s.statusWord.getLsbD 4 = s.status.ovr ∧ s.statusWord.extractLsb' 5 3 = 0 ∧
    s.statusWord.extractLsb' 8 4 = s.status.errcode ∧
    s.statusWord.extractLsb' 12 2 = (if s.schedValid then s.sched.sw.toWsel else 0) ∧
    s.statusWord.extractLsb' 14 2 = 0 ∧
    s.statusWord.extractLsb' 16 8 = (if s.schedValid then s.sched.sr else 0) ∧ s.statusWord.extractLsb' 24 8 = 0 ∧
    ∀ k < 16, s.hreg.bytes[k]? =
      some ((s.readReg (if k < 4 then .h0 else if k < 8 then .h1 else if k < 12 then .h2 else .h3)).extractLsb'
        (8 * (k % 4)) 8)

/-! ### Reset and interrupt -/

/-- 10_state R52, 70 R290 to R292: a reset, whatever was in flight, leaves every register at its reset value, the engine
idle, no schedule instance, irq low and every BUF byte unwritten. -/
def Obligations.ResetLeavesTheResetValues : Prop :=
  ∀ (s : State) (q : List HostEvent), s.NextIs .assertReset q →
    ∃ t, step s = .next t ∧ t.rst = true ∧ t.hostQueue = q ∧ t.irq = false ∧ t.status.busy = false ∧
      t.schedValid = false ∧ (∀ a, Memory.read t.buf a = none) ∧ t.params = s.params ∧
      ∀ r, t.readReg r = if r = .cfg then 0x00000C01 else 0

/-- 10_state R52: the values the spec gives for reset hold of the state the model starts in. -/
def Obligations.ResetStateHasTheSpecifiedValues : Prop :=
  (∀ r, State.reset.readReg r = if r = .cfg then 0x00000C01 else 0) ∧ State.reset.irq = false ∧
    (∀ a, Memory.read State.reset.buf a = none) ∧ State.reset.rst = false

/-- 70 R293: with `rst` asserted a host access is refused, and so is a poll, whose reads are accesses (log entry 8). 70 R290:
the machine's state is kept until `rst` is released; that such a step changes only `rst` and the events to come, or
nothing, rests on the model's events and idle step (log entries 13 and 20). -/
def Obligations.AccessDuringResetIsRefused : Prop :=
  ∀ s : State, s.rst = true →
    (∀ a q, s.hostQueue = .access a :: q → step s = .refused .accessDuringReset) ∧
    (∀ q, s.hostQueue = .poll :: q → step s = .refused .accessDuringReset) ∧
    (∀ t, step s = .next t → { t with rst := true, hostQueue := s.hostQueue } = s)

/-- 60 R280, R281: irq rises only at a completion that sets DONE or ERR or at a write to IE; so OVR never raises it. -/
def Obligations.IrqRisesOnlyAtCompletionOrEnable : Prop :=
  ∀ s t : State, s.statusOk → step s = .next t → s.irq = false → t.irq = true →
    (s.CompletionIsNext ∧ (t.status.done = true ∧ s.ie.doneIe = true ∨ t.status.err = true ∧ s.ie.errIe = true)) ∨
    (∃ a v q, s.NextIs (.access a) q ∧ a = .write .word (hostAddr s.params 0x020) v)

/-! ### Invariants and whole-machine rules -/

/-- The invariant of the reachable states is kept by every step: the parameters stay legal, BUF canonical and inside
its bounds (20_memory R61), `len(S) = T` (10_state R40), DONE and ERR exclusive and with their codes (10_state R24, 60
R255), OUTLEN within BUF, and the machine at rest while reset is asserted (70 R290). -/
def Obligations.StepKeepsTheInvariant : Prop :=
  ∀ s t : State, s.Inv → step s = .next t → t.Inv

/-- The invariant holds after reset. -/
def Obligations.ResetStateHasTheInvariant : Prop := State.reset.Inv

/-- 20_memory R71, R69, R72: as long as a command stays in flight, nothing it reads or will commit changes. -/
def Obligations.NoPartialResultWhileBusy : Prop :=
  ∀ s t : State, s.statusOk → s.status.busy = true → step s = .next t → t.status.busy = true →
    t.outlen = s.outlen ∧ t.hreg = s.hreg ∧ t.status.errcode = s.status.errcode ∧ t.status.done = false ∧
      t.status.err = false ∧ t.buf = s.buf ∧ t.sched = s.sched ∧ t.schedValid = s.schedValid ∧ t.latch = s.latch

/-- 70 R311: every accepted command comes to its completion. After at most `latency` steps (the bound in host events is the
model's, log entry 6) the command, still in flight with its latches, is at its completion: that step sets DONE or ERR and
clears BUSY, or it is the fault of an unwritten input byte (20_memory R62). Only two events of the outside world come
between: a reset, which abandons the command (70 R291), and a host access that ends in a bus error, at which the model
stops (log entry 12). -/
def Obligations.EveryCommandCompletes : Prop :=
  ∀ s : State, s.rst = false → s.status.busy = true →
    ∃ n ≤ s.latency, ∃ u : State, Host.Core.run Sys2Proof.core n s = .next u ∧ u.status.busy = true ∧ u.latch = s.latch ∧
      (u.CompletionIsNext ∧ (step u = .fault .unwrittenRead ∨
          ∃ t, step u = .next t ∧ t.status.busy = false ∧ (t.status.done = true ∨ t.status.err = true)) ∨
        (∃ q, u.NextIs .assertReset q) ∨
        ∃ a q, u.NextIs (.access a) q ∧ step u = .fault .busError)

/-- 00_scope R7, 20_memory R68: no step changes the parameters, and what a read returned is never changed later. -/
def Obligations.ParametersAndReadsAreKept : Prop :=
  ∀ s t : State, step s = .next t → t.params = s.params ∧ s.hostReads <+: t.hostReads ∧ t.hostQueue <:+ s.hostQueue

/-! ### The host-side reference function -/

/-- 44 R241 to R243: the analyzer flips exactly one bit of a buffer of the message's length (or of `byteIndex + 1` zero
bytes for an empty message), and reports the block size as the digest length. -/
def Obligations.DiffusionFlipsExactlyOneBit : Prop :=
  ∀ (p : Params) (sw : WordSize) (rounds : Nat) (data : List Byte) (byteIndex bitIndex : Nat),
    (diffusionModified data byteIndex bitIndex).length = (if data = [] then byteIndex + 1 else data.length) ∧
    popcount (xorBytes (if data = [] then zeros (byteIndex + 1) else data)
      (diffusionModified data byteIndex bitIndex)) = 1 ∧
    (diffusionCompare p sw rounds data byteIndex bitIndex).digestLength = sw.blockBytes

/-- 44 R240 with R241: `Compare` through two HASH commands with DSIZE = 0. The host program `compareProgram` runs on an idle BCE
with a schedule instance whenever the messages and the digest lie inside BUF, and the report on what it reads is
`Compare`'s. (A poll is one event, log entry 8, so the run takes one step an event and one a completion.) -/
def Obligations.CompareRunsThroughTwoHashCommands : Prop :=
  ∀ (s : State) (src dst : Nat) (data : List Byte) (byteIndex bitIndex : Nat) (prog : List HostInstr),
    s.rst = false → s.status.busy = false → s.hostQueue = [] → s.schedValid = true → s.params.legal →
    src + data.length ≤ s.params.bufBytes → src + (diffusionModified data byteIndex bitIndex).length ≤ s.params.bufBytes →
    dst + s.bb ≤ s.params.bufBytes → prog = compareProgram src dst s.bb data byteIndex bitIndex →
    ∃ (t : State) (reads : List HostRead),
      Host.Core.run Sys2Proof.core ((hostEvents s.params prog).length + 2) (s.withProgram prog) = .next t ∧
      t.final ∧ t.hostReads = s.hostReads ++ reads ∧
      compareReport s.bb reads = diffusionCompare s.params s.sched.sw s.sched.rounds data byteIndex bitIndex

/-! ### More of the host port, reset and interrupt -/

/-- 20_memory R68, R71, 10_state R21 to R31: a register read, of CMD too and in any phase, returns the register's value as it
stands, little-endian, and changes nothing of the machine; CMD reads 0 (10_state R23); while BUSY = 1 STATUS reads BUSY = 1
and DONE = ERR = 0 (an invariant, stated as `StepKeepsTheInvariant`). -/
def Obligations.RegisterReadHasNoEffect : Prop :=
  ∀ (s : State) (r : Reg) (q : List HostEvent), s.NextIs (s.rd r) q →
    step s = .next { s.afterEvent q with
      hostReads := s.hostReads ++ [{ addr := hostAddr s.params r.offset, bytes := leBytes (s.readReg r).toNat 4 }] } ∧
    (r = .cmd → s.readReg r = 0) ∧
    (r = .status → s.status.busy = true → s.statusOk → s.readReg r &&& 0x00000007 = 0x00000001)

/-- 60 R280: irq is DONE with its enable or ERR with its enable, in every state; it is low while BUSY = 1 (in states with the
STATUS invariant); and a completion leaves it high exactly when the enable of its kind is set: DONE_IE for a success,
ERR_IE for an error. -/
def Obligations.IrqIsTheEnabledCompletion : Prop :=
  (∀ s : State, s.irq = true ↔
    s.status.done = true ∧ s.ie.doneIe = true ∨ s.status.err = true ∧ s.ie.errIe = true) ∧
  (∀ s : State, s.statusOk → s.status.busy = true → s.irq = false) ∧
  (∀ s t : State, s.statusOk → s.CompletionIsNext → step s = .next t →
    t.irq = if t.status.errcode = 0 then s.ie.doneIe else s.ie.errIe)

/-- 60 R280: irq, once high, stays high until the host clears the bit (a STATUS write) or the enable (an IE write) or issues
the next command (a CMD write), or `rst` is asserted (70 R290). -/
def Obligations.IrqStaysUntilAcknowledged : Prop :=
  ∀ s t : State, s.statusOk → step s = .next t → s.irq = true → t.irq = false →
    (∃ r v q, s.NextIs (s.wr r v) q ∧ (r = .status ∨ r = .ie ∨ r = .cmd)) ∨ ∃ q, s.NextIs .assertReset q

/-- 70 R290: a reset and its release leave the BCE waiting with `rst` low and every register at its reset value. The two events
and the other steps under reset are the model's (log entry 13): with `rst` asserted the release answers the same state
with `rst` low, and a second assertion the same state. -/
def Obligations.ReleaseOfResetKeepsTheResetValues : Prop :=
  (∀ (s : State) (q : List HostEvent), s.NextIs .assertReset (.releaseReset :: q) →
    ∃ t : State, Host.Core.run Sys2Proof.core 2 s = .next t ∧ t.rst = false ∧ t.hostQueue = q ∧ t.status.busy = false ∧
      t.schedValid = false ∧ t.irq = false ∧ (∀ a, Memory.read t.buf a = none) ∧ t.params = s.params ∧
      ∀ r, t.readReg r = if r = .cfg then 0x00000C01 else 0) ∧
  (∀ (s : State) (q : List HostEvent), s.rst = true →
    (s.hostQueue = .releaseReset :: q → step s = .next { s with rst := false, hostQueue := q }) ∧
    (s.hostQueue = .assertReset :: q → step s = .next { s with hostQueue := q }))
end

