-- ==== Sys2Proof/Laws/Bytes.lean ====
section
/-! SUPPORT. The byte-string primitives: lengths, and the little-endian round trips. -/

namespace Sys2Proof

@[simp] theorem zeros_length (n : Nat) : (zeros n).length = n := by simp [zeros]

@[simp] theorem zeros_zero : zeros 0 = [] := rfl

theorem slice_length (s : List Byte) (a b : Nat) : (slice s a b).length = min (b - a) (s.length - a) := by
  simp [slice]

@[simp] theorem leBytes_length (v n : Nat) : (leBytes v n).length = n := by
  induction n generalizing v with
  | zero => rfl
  | succ n ih => simp [leBytes, ih]

@[simp] theorem xorBytes_length (x y : List Byte) : (xorBytes x y).length = min x.length y.length := by
  simp [xorBytes]

theorem leNat_lt (s : List Byte) : leNat s < 256 ^ s.length := by
  induction s with
  | nil => simp [leNat]
  | cons b bs ih =>
    have := b.isLt
    simp only [leNat, List.length_cons, Nat.pow_succ]
    omega

/-- The value of the n little-endian bytes of `v` is `v` reduced to n bytes. -/
theorem leNat_leBytes (v n : Nat) : leNat (leBytes v n) = v % 256 ^ n := by
  induction n generalizing v with
  | zero => simp [leBytes, leNat, Nat.mod_one]
  | succ n ih =>
    rw [leBytes, leNat, ih, BitVec.toNat_ofNat, show 256 ^ (n + 1) = 256 * 256 ^ n from Nat.pow_succ', Nat.mod_mul]

/-- The little-endian bytes of the value of a byte string are the byte string. -/
theorem leBytes_leNat (s : List Byte) : leBytes (leNat s) s.length = s := by
  induction s with
  | nil => rfl
  | cons b bs ih =>
    have hb := b.isLt
    have hdiv : leNat (b :: bs) / 256 = leNat bs := by simp only [leNat]; omega
    have hmod : BitVec.ofNat 8 (leNat (b :: bs)) = b := by
      apply BitVec.eq_of_toNat_eq
      simp only [leNat, BitVec.toNat_ofNat]
      omega
    simp only [List.length_cons, leBytes, hdiv, hmod, ih]

/-- The bytes of a little-endian word are the byte string it came from, when they fit it exactly. -/
theorem leBytes_leWord (w n : Nat) (s : List Byte) (hn : s.length = n) (hw : 8 * n = w) :
    leBytes (leWord w s).toNat n = s := by
  subst hn hw
  have h : leNat s < 2 ^ (8 * s.length) := by
    have h1 := leNat_lt s
    rwa [show (256 : Nat) = 2 ^ 8 from rfl, ← Nat.pow_mul] at h1
  rw [leWord, BitVec.toNat_ofNat, Nat.mod_eq_of_lt h, leBytes_leNat]

/-- The word of the little-endian bytes of a word is the word. -/
theorem leWord_leBytes (w n : Nat) (v : BitVec w) (hw : 8 * n = w) : leWord w (leBytes v.toNat n) = v := by
  subst hw
  apply BitVec.eq_of_toNat_eq
  have h : v.toNat < 256 ^ n := by
    rw [show (256 : Nat) = 2 ^ 8 from rfl, ← Nat.pow_mul]; exact v.isLt
  rw [leWord, BitVec.toNat_ofNat, leNat_leBytes, Nat.mod_eq_of_lt h, Nat.mod_eq_of_lt v.isLt]

/-- Stripping removes bytes at the end only: what is left, followed by zeros, is the byte string. -/
theorem rstrip0_append_zeros (s : List Byte) : ∃ n, s = rstrip0 s ++ zeros n := by
  refine ⟨(s.reverse.takeWhile (· == 0)).length, ?_⟩
  have h : s.reverse.takeWhile (· == 0) = zeros (s.reverse.takeWhile (· == 0)).length := by
    refine List.eq_replicate_iff.2 ⟨rfl, fun b hb => ?_⟩
    simpa using List.mem_takeWhile_imp hb
  have h2 : zeros (s.reverse.takeWhile (· == 0)).length = (s.reverse.takeWhile (· == 0)).reverse := by
    conv_rhs => rw [h, zeros, List.reverse_replicate]
    rfl
  rw [h2, rstrip0, ← List.reverse_append, List.takeWhile_append_dropWhile, List.reverse_reverse]

theorem rstrip0_length_le (s : List Byte) : (rstrip0 s).length ≤ s.length := by
  simpa [rstrip0] using List.length_dropWhile_le (· == 0) s.reverse

end Sys2Proof
end

