-- ==== Sys2Proof/Laws/Memory.lean ====
section
/-! SUPPORT. BUF: a read after a write, what a write leaves alone, and that every write keeps the canonical form. -/

namespace Sys2Proof.Machine

@[simp] theorem Memory.read_nil (a : Nat) : Memory.read [] a = none := rfl

/-- A byte just written reads as written. -/
@[simp] theorem Memory.read_write_same (m : Memory) (a : Nat) (b : Byte) : (m.write a b).read a = some b := by
  induction m with
  | nil => simp [Memory.write, Memory.read]
  | cons c m ih =>
    obtain ⟨k, v⟩ := c
    simp only [Memory.write]
    split
    · simp [Memory.read]
    · split
      · simp [Memory.read]
      · simp only [Memory.read, ih]
        split
        · omega
        · rfl

/-- A write leaves every other byte as it was. -/
theorem Memory.read_write_other (m : Memory) (a a' : Nat) (b : Byte) (h : a' ≠ a) :
    (m.write a b).read a' = m.read a' := by
  induction m with
  | nil => simp [Memory.write, Memory.read, Ne.symm h]
  | cons c m ih =>
    obtain ⟨k, v⟩ := c
    simp only [Memory.write]
    split
    · simp [Memory.read, Ne.symm h]
    · split
      · rename_i h1 h2
        subst h2
        simp [Memory.read, Ne.symm h]
      · simp only [Memory.read, ih]

theorem Memory.mem_write {m : Memory} {a : Nat} {b : Byte} {c : Host.Cell} (h : c ∈ m.write a b) :
    c = (a, b) ∨ c ∈ m := by
  induction m with
  | nil => simpa [Memory.write] using h
  | cons d m ih =>
    obtain ⟨k, v⟩ := d
    simp only [Memory.write] at h
    split at h
    · simpa using h
    · split at h
      · rcases List.mem_cons.1 h with h | h
        · exact .inl h
        · exact .inr (List.mem_cons_of_mem _ h)
      · rcases List.mem_cons.1 h with h | h
        · exact .inr (h ▸ List.mem_cons_self)
        · exact (ih h).imp_right (List.mem_cons_of_mem _)

/-- A write keeps the canonical form. -/
theorem Memory.write_wf {m : Memory} (h : Memory.wf m) (a : Nat) (b : Byte) : Memory.wf (m.write a b) := by
  induction m with
  | nil => simp [Memory.wf, Memory.write]
  | cons c m ih =>
    obtain ⟨k, v⟩ := c
    obtain ⟨h1, h2⟩ := List.pairwise_cons.1 h
    simp only [Memory.write]
    split
    · rename_i hlt
      refine List.pairwise_cons.2 ⟨?_, h⟩
      intro d hd
      rcases List.mem_cons.1 hd with rfl | hd
      · exact hlt
      · exact Nat.lt_trans hlt (h1 d hd)
    · split
      · rename_i _ heq
        subst heq
        exact List.pairwise_cons.2 ⟨fun d hd => h1 d hd, h2⟩
      · rename_i hn hne
        refine List.pairwise_cons.2 ⟨?_, ih h2⟩
        intro d hd
        rcases Memory.mem_write hd with rfl | hd
        · show k < a
          omega
        · exact h1 d hd

@[simp] theorem Memory.writeRange_nil (m : Memory) (off : Nat) : m.writeRange off [] = m := rfl

/-- Bytes outside the written range read as before. -/
theorem Memory.read_writeRange_outside (m : Memory) (off : Nat) (x : List Byte) (a : Nat)
    (h : a < off ∨ off + x.length ≤ a) : (m.writeRange off x).read a = m.read a := by
  induction x generalizing m off with
  | nil => rfl
  | cons b bs ih =>
    simp only [List.length_cons] at h
    rw [Memory.writeRange, ih _ _ (by omega), Memory.read_write_other _ _ _ _ (by omega)]

/-- Bytes of the written range read as written. -/
theorem Memory.read_writeRange_inside (m : Memory) (off : Nat) (x : List Byte) (k : Nat) (h : k < x.length) :
    (m.writeRange off x).read (off + k) = x[k]? := by
  induction x generalizing m off k with
  | nil => simp at h
  | cons b bs ih =>
    cases k with
    | zero =>
      rw [Memory.writeRange, Memory.read_writeRange_outside _ _ _ _ (by omega)]
      simp
    | succ k =>
      rw [Memory.writeRange, show off + (k + 1) = off + 1 + k by omega, ih _ _ _ (by simpa using h)]
      simp

theorem Memory.writeRange_wf {m : Memory} (h : Memory.wf m) (off : Nat) (x : List Byte) :
    Memory.wf (m.writeRange off x) := by
  induction x generalizing m off with
  | nil => exact h
  | cons b bs ih => exact ih (Memory.write_wf h off b) (off + 1)

theorem Memory.mem_writeRange {m : Memory} {off : Nat} {x : List Byte} {c : Host.Cell}
    (h : c ∈ m.writeRange off x) : (off ≤ c.1 ∧ c.1 < off + x.length) ∨ c ∈ m := by
  induction x generalizing m off with
  | nil => exact .inr h
  | cons b bs ih =>
    rcases ih h with h | h
    · left
      simp only [List.length_cons]
      omega
    · rcases Memory.mem_write h with rfl | h
      · left
        simp
      · exact .inr h

/-- A range reads as `x` exactly when `x` has its length and each of its bytes is written and reads as the byte of `x`. -/
theorem Memory.readRange_eq_some_iff (m : Memory) (off n : Nat) (x : List Byte) :
    m.readRange off n = some x ↔ x.length = n ∧ ∀ k < n, m.read (off + k) = x[k]? := by
  induction n generalizing off x with
  | zero =>
    simp only [Memory.readRange, Option.some.injEq, Nat.not_lt_zero, false_imp_iff, implies_true, and_true]
    exact ⟨fun h => h ▸ rfl, fun h => (List.length_eq_zero_iff.1 h).symm⟩
  | succ n ih =>
    constructor
    · intro h
      simp only [Memory.readRange] at h
      split at h
      · rename_i b bs hb hbs
        obtain ⟨hl, hr⟩ := (ih (off + 1) bs).1 hbs
        obtain rfl : b :: bs = x := Option.some.inj h
        refine ⟨by simp [hl], ?_⟩
        intro k hk
        cases k with
        | zero => simpa using hb
        | succ k =>
          have := hr k (by omega)
          rw [show off + (k + 1) = off + 1 + k by omega, this]
          simp
      · simp at h
    · rintro ⟨hl, hr⟩
      obtain ⟨b, bs, rfl⟩ : ∃ b bs, x = b :: bs := by
        cases x with
        | nil => simp at hl
        | cons b bs => exact ⟨b, bs, rfl⟩
      have h0 : m.read off = some b := by simpa using hr 0 (by omega)
      have h1 : m.readRange (off + 1) n = some bs := by
        refine (ih _ _).2 ⟨by simpa using hl, fun k hk => ?_⟩
        have := hr (k + 1) (by omega)
        rwa [show off + (k + 1) = off + 1 + k by omega, List.getElem?_cons_succ] at this
      simp only [Memory.readRange, h0, h1]

theorem Memory.readRange_length {m : Memory} {off n : Nat} {x : List Byte} (h : m.readRange off n = some x) :
    x.length = n := ((Memory.readRange_eq_some_iff m off n x).1 h).1

/-- A range read depends on the bytes of the range alone. -/
theorem Memory.readRange_congr {m m' : Memory} {off n : Nat} (h : ∀ k < n, m.read (off + k) = m'.read (off + k)) :
    m.readRange off n = m'.readRange off n := by
  induction n generalizing off with
  | zero => rfl
  | succ n ih =>
    have h0 : m.read off = m'.read off := h 0 (by omega)
    have h1 := ih (off := off + 1) fun k hk => by
      rw [show off + 1 + k = off + (k + 1) by omega]
      exact h (k + 1) (by omega)
    simp only [Memory.readRange, h0, h1]

/-- A range just written reads back as written. -/
theorem Memory.readRange_writeRange_same (m : Memory) (off : Nat) (x : List Byte) :
    (m.writeRange off x).readRange off x.length = some x :=
  (Memory.readRange_eq_some_iff _ _ _ _).2 ⟨rfl, fun k hk => Memory.read_writeRange_inside m off x k hk⟩

end Sys2Proof.Machine
end

