-- ==== Sys2Proof/Laws/State.lean ====
section
/-! SUPPORT. One lemma for each field of State and each shared update of Machine/Ops, Machine/HostPort and Machine/Engine:
what the update leaves in the field. -/

namespace Sys2Proof.Machine

/-! ### State.latchCommand -/

@[simp] theorem State.latchCommand_cfg (s : State) (c : Word) : (s.latchCommand c).cfg = s.cfg := rfl
@[simp] theorem State.latchCommand_status (s : State) (c : Word) : (s.latchCommand c).status = { s.status with busy := true, done := false, err := false } := rfl
@[simp] theorem State.latchCommand_src (s : State) (c : Word) : (s.latchCommand c).src = s.src := rfl
@[simp] theorem State.latchCommand_dst (s : State) (c : Word) : (s.latchCommand c).dst = s.dst := rfl
@[simp] theorem State.latchCommand_len (s : State) (c : Word) : (s.latchCommand c).len = s.len := rfl
@[simp] theorem State.latchCommand_dsize (s : State) (c : Word) : (s.latchCommand c).dsize = s.dsize := rfl
@[simp] theorem State.latchCommand_outlen (s : State) (c : Word) : (s.latchCommand c).outlen = s.outlen := rfl
@[simp] theorem State.latchCommand_ie (s : State) (c : Word) : (s.latchCommand c).ie = s.ie := rfl
@[simp] theorem State.latchCommand_hreg (s : State) (c : Word) : (s.latchCommand c).hreg = s.hreg := rfl
@[simp] theorem State.latchCommand_schedValid (s : State) (c : Word) : (s.latchCommand c).schedValid = s.schedValid := rfl
@[simp] theorem State.latchCommand_sched (s : State) (c : Word) : (s.latchCommand c).sched = s.sched := rfl
@[simp] theorem State.latchCommand_scratch (s : State) (c : Word) : (s.latchCommand c).scratch = s.scratch := rfl
@[simp] theorem State.latchCommand_buf (s : State) (c : Word) : (s.latchCommand c).buf = s.buf := rfl
@[simp] theorem State.latchCommand_rst (s : State) (c : Word) : (s.latchCommand c).rst = s.rst := rfl
@[simp] theorem State.latchCommand_params (s : State) (c : Word) : (s.latchCommand c).params = s.params := rfl
@[simp] theorem State.latchCommand_latency (s : State) (c : Word) : (s.latchCommand c).latency = s.latency := rfl
@[simp] theorem State.latchCommand_hostQueue (s : State) (c : Word) : (s.latchCommand c).hostQueue = s.hostQueue := rfl
@[simp] theorem State.latchCommand_hostReads (s : State) (c : Word) : (s.latchCommand c).hostReads = s.hostReads := rfl
@[simp] theorem State.latchCommand_freeCount (s : State) (c : Word) : (s.latchCommand c).freeCount = s.freeCount := rfl
@[simp] theorem State.latchCommand_latch_opc (s : State) (c : Word) : (s.latchCommand c).latch.opc = (CommandFields.ofWord c).opc := rfl
@[simp] theorem State.latchCommand_latch_strip (s : State) (c : Word) : (s.latchCommand c).latch.strip = (CommandFields.ofWord c).strip := rfl
@[simp] theorem State.latchCommand_latch_rsv (s : State) (c : Word) : (s.latchCommand c).latch.rsv = (CommandFields.ofWord c).rsv := rfl
@[simp] theorem State.latchCommand_latch_src (s : State) (c : Word) : (s.latchCommand c).latch.src = s.src := rfl
@[simp] theorem State.latchCommand_latch_dst (s : State) (c : Word) : (s.latchCommand c).latch.dst = s.dst := rfl
@[simp] theorem State.latchCommand_latch_len (s : State) (c : Word) : (s.latchCommand c).latch.len = s.len := rfl
@[simp] theorem State.latchCommand_latch_dsize (s : State) (c : Word) : (s.latchCommand c).latch.dsize = s.dsize := rfl
@[simp] theorem State.latchCommand_latch_wsel (s : State) (c : Word) : (s.latchCommand c).latch.wsel = s.cfg.wsel := rfl
@[simp] theorem State.latchCommand_latch_rounds (s : State) (c : Word) : (s.latchCommand c).latch.rounds = s.cfg.rounds := rfl

/-! ### State.accept -/

@[simp] theorem State.accept_cfg (s : State) (c : Word) : (s.accept c).cfg = s.cfg := rfl
@[simp] theorem State.accept_status (s : State) (c : Word) : (s.accept c).status = { s.status with busy := true, done := false, err := false } := rfl
@[simp] theorem State.accept_src (s : State) (c : Word) : (s.accept c).src = s.src := rfl
@[simp] theorem State.accept_dst (s : State) (c : Word) : (s.accept c).dst = s.dst := rfl
@[simp] theorem State.accept_len (s : State) (c : Word) : (s.accept c).len = s.len := rfl
@[simp] theorem State.accept_dsize (s : State) (c : Word) : (s.accept c).dsize = s.dsize := rfl
@[simp] theorem State.accept_outlen (s : State) (c : Word) : (s.accept c).outlen = s.outlen := rfl
@[simp] theorem State.accept_ie (s : State) (c : Word) : (s.accept c).ie = s.ie := rfl
@[simp] theorem State.accept_hreg (s : State) (c : Word) : (s.accept c).hreg = s.hreg := rfl
@[simp] theorem State.accept_schedValid (s : State) (c : Word) : (s.accept c).schedValid = s.schedValid := rfl
@[simp] theorem State.accept_sched (s : State) (c : Word) : (s.accept c).sched = s.sched := rfl
@[simp] theorem State.accept_latch (s : State) (c : Word) : (s.accept c).latch = (s.latchCommand c).latch := rfl
@[simp] theorem State.accept_scratch (s : State) (c : Word) : (s.accept c).scratch = s.scratch := rfl
@[simp] theorem State.accept_buf (s : State) (c : Word) : (s.accept c).buf = s.buf := rfl
@[simp] theorem State.accept_rst (s : State) (c : Word) : (s.accept c).rst = s.rst := rfl
@[simp] theorem State.accept_params (s : State) (c : Word) : (s.accept c).params = s.params := rfl
@[simp] theorem State.accept_latency (s : State) (c : Word) : (s.accept c).latency = Config.latency s.freeCount := rfl
@[simp] theorem State.accept_hostQueue (s : State) (c : Word) : (s.accept c).hostQueue = s.hostQueue := rfl
@[simp] theorem State.accept_hostReads (s : State) (c : Word) : (s.accept c).hostReads = s.hostReads := rfl
@[simp] theorem State.accept_freeCount (s : State) (c : Word) : (s.accept c).freeCount = s.freeCount + 1 := rfl

/-! ### State.errorCompletion -/

@[simp] theorem State.errorCompletion_cfg (s : State) (e : ErrorCode) : (s.errorCompletion e).cfg = s.cfg := rfl
@[simp] theorem State.errorCompletion_status (s : State) (e : ErrorCode) : (s.errorCompletion e).status = { s.status with errcode := e.code, err := true, busy := false } := rfl
@[simp] theorem State.errorCompletion_src (s : State) (e : ErrorCode) : (s.errorCompletion e).src = s.src := rfl
@[simp] theorem State.errorCompletion_dst (s : State) (e : ErrorCode) : (s.errorCompletion e).dst = s.dst := rfl
@[simp] theorem State.errorCompletion_len (s : State) (e : ErrorCode) : (s.errorCompletion e).len = s.len := rfl
@[simp] theorem State.errorCompletion_dsize (s : State) (e : ErrorCode) : (s.errorCompletion e).dsize = s.dsize := rfl
@[simp] theorem State.errorCompletion_outlen (s : State) (e : ErrorCode) : (s.errorCompletion e).outlen = 0 := rfl
@[simp] theorem State.errorCompletion_ie (s : State) (e : ErrorCode) : (s.errorCompletion e).ie = s.ie := rfl
@[simp] theorem State.errorCompletion_hreg (s : State) (e : ErrorCode) : (s.errorCompletion e).hreg = s.hreg := rfl
@[simp] theorem State.errorCompletion_schedValid (s : State) (e : ErrorCode) : (s.errorCompletion e).schedValid = s.schedValid := rfl
@[simp] theorem State.errorCompletion_sched (s : State) (e : ErrorCode) : (s.errorCompletion e).sched = s.sched := rfl
@[simp] theorem State.errorCompletion_latch (s : State) (e : ErrorCode) : (s.errorCompletion e).latch = s.latch := rfl
@[simp] theorem State.errorCompletion_scratch (s : State) (e : ErrorCode) : (s.errorCompletion e).scratch = s.scratch := rfl
@[simp] theorem State.errorCompletion_buf (s : State) (e : ErrorCode) : (s.errorCompletion e).buf = s.buf := rfl
@[simp] theorem State.errorCompletion_rst (s : State) (e : ErrorCode) : (s.errorCompletion e).rst = s.rst := rfl
@[simp] theorem State.errorCompletion_params (s : State) (e : ErrorCode) : (s.errorCompletion e).params = s.params := rfl
@[simp] theorem State.errorCompletion_latency (s : State) (e : ErrorCode) : (s.errorCompletion e).latency = s.latency := rfl
@[simp] theorem State.errorCompletion_hostQueue (s : State) (e : ErrorCode) : (s.errorCompletion e).hostQueue = s.hostQueue := rfl
@[simp] theorem State.errorCompletion_hostReads (s : State) (e : ErrorCode) : (s.errorCompletion e).hostReads = s.hostReads := rfl
@[simp] theorem State.errorCompletion_freeCount (s : State) (e : ErrorCode) : (s.errorCompletion e).freeCount = s.freeCount := rfl

/-! ### State.successCompletion -/

@[simp] theorem State.successCompletion_cfg (s : State) (n : Nat) : (s.successCompletion n).cfg = s.cfg := rfl
@[simp] theorem State.successCompletion_status (s : State) (n : Nat) : (s.successCompletion n).status = { s.status with errcode := 0, done := true, busy := false } := rfl
@[simp] theorem State.successCompletion_src (s : State) (n : Nat) : (s.successCompletion n).src = s.src := rfl
@[simp] theorem State.successCompletion_dst (s : State) (n : Nat) : (s.successCompletion n).dst = s.dst := rfl
@[simp] theorem State.successCompletion_len (s : State) (n : Nat) : (s.successCompletion n).len = s.len := rfl
@[simp] theorem State.successCompletion_dsize (s : State) (n : Nat) : (s.successCompletion n).dsize = s.dsize := rfl
@[simp] theorem State.successCompletion_outlen (s : State) (n : Nat) : (s.successCompletion n).outlen = BitVec.ofNat 32 n := rfl
@[simp] theorem State.successCompletion_ie (s : State) (n : Nat) : (s.successCompletion n).ie = s.ie := rfl
@[simp] theorem State.successCompletion_hreg (s : State) (n : Nat) : (s.successCompletion n).hreg = s.hreg := rfl
@[simp] theorem State.successCompletion_schedValid (s : State) (n : Nat) : (s.successCompletion n).schedValid = s.schedValid := rfl
@[simp] theorem State.successCompletion_sched (s : State) (n : Nat) : (s.successCompletion n).sched = s.sched := rfl
@[simp] theorem State.successCompletion_latch (s : State) (n : Nat) : (s.successCompletion n).latch = s.latch := rfl
@[simp] theorem State.successCompletion_scratch (s : State) (n : Nat) : (s.successCompletion n).scratch = Config.scratchAfter s.freeCount := rfl
@[simp] theorem State.successCompletion_buf (s : State) (n : Nat) : (s.successCompletion n).buf = s.buf := rfl
@[simp] theorem State.successCompletion_rst (s : State) (n : Nat) : (s.successCompletion n).rst = s.rst := rfl
@[simp] theorem State.successCompletion_params (s : State) (n : Nat) : (s.successCompletion n).params = s.params := rfl
@[simp] theorem State.successCompletion_latency (s : State) (n : Nat) : (s.successCompletion n).latency = s.latency := rfl
@[simp] theorem State.successCompletion_hostQueue (s : State) (n : Nat) : (s.successCompletion n).hostQueue = s.hostQueue := rfl
@[simp] theorem State.successCompletion_hostReads (s : State) (n : Nat) : (s.successCompletion n).hostReads = s.hostReads := rfl
@[simp] theorem State.successCompletion_freeCount (s : State) (n : Nat) : (s.successCompletion n).freeCount = s.freeCount + 1 := rfl

/-! ### State.commitOutput -/

@[simp] theorem State.commitOutput_cfg (s : State) (out : List Byte) : (s.commitOutput out).cfg = s.cfg := rfl
@[simp] theorem State.commitOutput_status (s : State) (out : List Byte) : (s.commitOutput out).status = { s.status with errcode := 0, done := true, busy := false } := rfl
@[simp] theorem State.commitOutput_src (s : State) (out : List Byte) : (s.commitOutput out).src = s.src := rfl
@[simp] theorem State.commitOutput_dst (s : State) (out : List Byte) : (s.commitOutput out).dst = s.dst := rfl
@[simp] theorem State.commitOutput_len (s : State) (out : List Byte) : (s.commitOutput out).len = s.len := rfl
@[simp] theorem State.commitOutput_dsize (s : State) (out : List Byte) : (s.commitOutput out).dsize = s.dsize := rfl
@[simp] theorem State.commitOutput_outlen (s : State) (out : List Byte) : (s.commitOutput out).outlen = BitVec.ofNat 32 out.length := rfl
@[simp] theorem State.commitOutput_ie (s : State) (out : List Byte) : (s.commitOutput out).ie = s.ie := rfl
@[simp] theorem State.commitOutput_hreg (s : State) (out : List Byte) : (s.commitOutput out).hreg = s.hreg := rfl
@[simp] theorem State.commitOutput_schedValid (s : State) (out : List Byte) : (s.commitOutput out).schedValid = s.schedValid := rfl
@[simp] theorem State.commitOutput_sched (s : State) (out : List Byte) : (s.commitOutput out).sched = s.sched := rfl
@[simp] theorem State.commitOutput_latch (s : State) (out : List Byte) : (s.commitOutput out).latch = s.latch := rfl
@[simp] theorem State.commitOutput_scratch (s : State) (out : List Byte) : (s.commitOutput out).scratch = Config.scratchAfter s.freeCount := rfl
@[simp] theorem State.commitOutput_buf (s : State) (out : List Byte) : (s.commitOutput out).buf = s.buf.writeRange s.dstL out := rfl
@[simp] theorem State.commitOutput_rst (s : State) (out : List Byte) : (s.commitOutput out).rst = s.rst := rfl
@[simp] theorem State.commitOutput_params (s : State) (out : List Byte) : (s.commitOutput out).params = s.params := rfl
@[simp] theorem State.commitOutput_latency (s : State) (out : List Byte) : (s.commitOutput out).latency = s.latency := rfl
@[simp] theorem State.commitOutput_hostQueue (s : State) (out : List Byte) : (s.commitOutput out).hostQueue = s.hostQueue := rfl
@[simp] theorem State.commitOutput_hostReads (s : State) (out : List Byte) : (s.commitOutput out).hostReads = s.hostReads := rfl
@[simp] theorem State.commitOutput_freeCount (s : State) (out : List Byte) : (s.commitOutput out).freeCount = s.freeCount + 1 := rfl

/-! ### State.returnRead -/

@[simp] theorem State.returnRead_cfg (s : State) (a : Word) (x : List Byte) : (s.returnRead a x).cfg = s.cfg := rfl
@[simp] theorem State.returnRead_status (s : State) (a : Word) (x : List Byte) : (s.returnRead a x).status = s.status := rfl
@[simp] theorem State.returnRead_src (s : State) (a : Word) (x : List Byte) : (s.returnRead a x).src = s.src := rfl
@[simp] theorem State.returnRead_dst (s : State) (a : Word) (x : List Byte) : (s.returnRead a x).dst = s.dst := rfl
@[simp] theorem State.returnRead_len (s : State) (a : Word) (x : List Byte) : (s.returnRead a x).len = s.len := rfl
@[simp] theorem State.returnRead_dsize (s : State) (a : Word) (x : List Byte) : (s.returnRead a x).dsize = s.dsize := rfl
@[simp] theorem State.returnRead_outlen (s : State) (a : Word) (x : List Byte) : (s.returnRead a x).outlen = s.outlen := rfl
@[simp] theorem State.returnRead_ie (s : State) (a : Word) (x : List Byte) : (s.returnRead a x).ie = s.ie := rfl
@[simp] theorem State.returnRead_hreg (s : State) (a : Word) (x : List Byte) : (s.returnRead a x).hreg = s.hreg := rfl
@[simp] theorem State.returnRead_schedValid (s : State) (a : Word) (x : List Byte) : (s.returnRead a x).schedValid = s.schedValid := rfl
@[simp] theorem State.returnRead_sched (s : State) (a : Word) (x : List Byte) : (s.returnRead a x).sched = s.sched := rfl
@[simp] theorem State.returnRead_latch (s : State) (a : Word) (x : List Byte) : (s.returnRead a x).latch = s.latch := rfl
@[simp] theorem State.returnRead_scratch (s : State) (a : Word) (x : List Byte) : (s.returnRead a x).scratch = s.scratch := rfl
@[simp] theorem State.returnRead_buf (s : State) (a : Word) (x : List Byte) : (s.returnRead a x).buf = s.buf := rfl
@[simp] theorem State.returnRead_rst (s : State) (a : Word) (x : List Byte) : (s.returnRead a x).rst = s.rst := rfl
@[simp] theorem State.returnRead_params (s : State) (a : Word) (x : List Byte) : (s.returnRead a x).params = s.params := rfl
@[simp] theorem State.returnRead_latency (s : State) (a : Word) (x : List Byte) : (s.returnRead a x).latency = s.latency := rfl
@[simp] theorem State.returnRead_hostQueue (s : State) (a : Word) (x : List Byte) : (s.returnRead a x).hostQueue = s.hostQueue := rfl
@[simp] theorem State.returnRead_hostReads (s : State) (a : Word) (x : List Byte) : (s.returnRead a x).hostReads = s.hostReads ++ [{ addr := a, bytes := x }] := rfl
@[simp] theorem State.returnRead_freeCount (s : State) (a : Word) (x : List Byte) : (s.returnRead a x).freeCount = s.freeCount := rfl

/-! ### State.resetAsserted -/

@[simp] theorem State.resetAsserted_cfg (s : State) : s.resetAsserted.cfg = { wsel := 1, rounds := 12 } := rfl
@[simp] theorem State.resetAsserted_status (s : State) : s.resetAsserted.status = { busy := false, done := false, err := false, ovr := false, errcode := 0 } := rfl
@[simp] theorem State.resetAsserted_src (s : State) : s.resetAsserted.src = 0 := rfl
@[simp] theorem State.resetAsserted_dst (s : State) : s.resetAsserted.dst = 0 := rfl
@[simp] theorem State.resetAsserted_len (s : State) : s.resetAsserted.len = 0 := rfl
@[simp] theorem State.resetAsserted_dsize (s : State) : s.resetAsserted.dsize = 0 := rfl
@[simp] theorem State.resetAsserted_outlen (s : State) : s.resetAsserted.outlen = 0 := rfl
@[simp] theorem State.resetAsserted_ie (s : State) : s.resetAsserted.ie = { doneIe := false, errIe := false } := rfl
@[simp] theorem State.resetAsserted_hreg (s : State) : s.resetAsserted.hreg = { h0 := 0, h1 := 0, h2 := 0, h3 := 0 } := rfl
@[simp] theorem State.resetAsserted_schedValid (s : State) : s.resetAsserted.schedValid = false := rfl
@[simp] theorem State.resetAsserted_sched (s : State) : s.resetAsserted.sched = Schedule.reset := rfl
@[simp] theorem State.resetAsserted_latch (s : State) : s.resetAsserted.latch = Latches.reset := rfl
@[simp] theorem State.resetAsserted_scratch (s : State) : s.resetAsserted.scratch = Scratch.reset := rfl
@[simp] theorem State.resetAsserted_buf (s : State) : s.resetAsserted.buf = [] := rfl
@[simp] theorem State.resetAsserted_rst (s : State) : s.resetAsserted.rst = true := rfl
@[simp] theorem State.resetAsserted_params (s : State) : s.resetAsserted.params = s.params := rfl
@[simp] theorem State.resetAsserted_latency (s : State) : s.resetAsserted.latency = 0 := rfl
@[simp] theorem State.resetAsserted_hostQueue (s : State) : s.resetAsserted.hostQueue = s.hostQueue := rfl
@[simp] theorem State.resetAsserted_hostReads (s : State) : s.resetAsserted.hostReads = s.hostReads := rfl
@[simp] theorem State.resetAsserted_freeCount (s : State) : s.resetAsserted.freeCount = s.freeCount := rfl

/-! ### State.fetching -/

@[simp] theorem State.fetching_cfg (s : State) (c : Word) : (s.fetching c).cfg = s.cfg := rfl
@[simp] theorem State.fetching_status (s : State) (c : Word) : (s.fetching c).status = { s.status with busy := true, done := false, err := false } := rfl
@[simp] theorem State.fetching_src (s : State) (c : Word) : (s.fetching c).src = s.src := rfl
@[simp] theorem State.fetching_dst (s : State) (c : Word) : (s.fetching c).dst = s.dst := rfl
@[simp] theorem State.fetching_len (s : State) (c : Word) : (s.fetching c).len = s.len := rfl
@[simp] theorem State.fetching_dsize (s : State) (c : Word) : (s.fetching c).dsize = s.dsize := rfl
@[simp] theorem State.fetching_outlen (s : State) (c : Word) : (s.fetching c).outlen = s.outlen := rfl
@[simp] theorem State.fetching_ie (s : State) (c : Word) : (s.fetching c).ie = s.ie := rfl
@[simp] theorem State.fetching_hreg (s : State) (c : Word) : (s.fetching c).hreg = s.hreg := rfl
@[simp] theorem State.fetching_schedValid (s : State) (c : Word) : (s.fetching c).schedValid = s.schedValid := rfl
@[simp] theorem State.fetching_sched (s : State) (c : Word) : (s.fetching c).sched = s.sched := rfl
@[simp] theorem State.fetching_latch (s : State) (c : Word) : (s.fetching c).latch = (s.latchCommand c).latch := rfl
@[simp] theorem State.fetching_scratch (s : State) (c : Word) : (s.fetching c).scratch = s.scratch := rfl
@[simp] theorem State.fetching_buf (s : State) (c : Word) : (s.fetching c).buf = s.buf := rfl
@[simp] theorem State.fetching_rst (s : State) (c : Word) : (s.fetching c).rst = false := rfl
@[simp] theorem State.fetching_params (s : State) (c : Word) : (s.fetching c).params = s.params := rfl
@[simp] theorem State.fetching_latency (s : State) (c : Word) : (s.fetching c).latency = 0 := rfl
@[simp] theorem State.fetching_hostQueue (s : State) (c : Word) : (s.fetching c).hostQueue = s.hostQueue := rfl
@[simp] theorem State.fetching_hostReads (s : State) (c : Word) : (s.fetching c).hostReads = s.hostReads := rfl
@[simp] theorem State.fetching_freeCount (s : State) (c : Word) : (s.fetching c).freeCount = s.freeCount := rfl

end Sys2Proof.Machine
end

