-- ==== Sys2Proof/Laws/Ops.lean ====
section
/-! SUPPORT. What each shared operation of Machine/Ops can do, said once: the checks, the run of a command, Hreg as bytes,
and the error codes. -/

namespace Sys2Proof.Machine

/-! ### Checks -/

@[simp] theorem firstError_nil : firstError [] = none := rfl

@[simp] theorem firstError_cons_true (e : ErrorCode) (l : List (Bool × ErrorCode)) :
    firstError ((true, e) :: l) = some e := rfl

@[simp] theorem firstError_cons_false (e : ErrorCode) (l : List (Bool × ErrorCode)) :
    firstError ((false, e) :: l) = firstError l := rfl

/-- No error is reported exactly when no check applies. -/
theorem firstError_eq_none_iff (l : List (Bool × ErrorCode)) : firstError l = none ↔ ∀ c ∈ l, c.1 = false := by
  induction l with
  | nil => simp
  | cons c l ih =>
    obtain ⟨b, e⟩ := c
    cases b <;> simp [ih]

/-- The reported error is the one of some check that applies. -/
theorem firstError_mem {l : List (Bool × ErrorCode)} {e : ErrorCode} (h : firstError l = some e) : (true, e) ∈ l := by
  induction l with
  | nil => simp at h
  | cons c l ih =>
    obtain ⟨b, e'⟩ := c
    cases b with
    | true => simp_all
    | false => exact List.mem_cons_of_mem _ (ih (by simpa using h))

/-! ### The run of a command -/

/-- Everything a command can do: an error completion, an unwritten read, or the commit of its input. -/
theorem State.runCommand_cases (s : State) (checks : List (Bool × ErrorCode)) (off n : Nat)
    (commit : List Byte → State) :
    (∃ e, firstError checks = some e ∧ s.runCommand checks off n commit = .next (s.errorCompletion e)) ∨
    (firstError checks = none ∧ s.buf.readRange off n = none ∧
      s.runCommand checks off n commit = .fault .unwrittenRead) ∨
    (∃ x, firstError checks = none ∧ s.buf.readRange off n = some x ∧
      s.runCommand checks off n commit = .next (commit x)) := by
  unfold State.runCommand
  split
  · exact .inl ⟨_, by assumption, rfl⟩
  · split
    · exact .inr (.inl ⟨by assumption, by assumption, rfl⟩)
    · exact .inr (.inr ⟨_, by assumption, by assumption, rfl⟩)

/-- If a command answers a next state, that state is an error completion or the commit of its input. -/
theorem State.runCommand_next {s t : State} {checks : List (Bool × ErrorCode)} {off n : Nat}
    {commit : List Byte → State} (h : s.runCommand checks off n commit = .next t) :
    (∃ e, firstError checks = some e ∧ t = s.errorCompletion e) ∨
    (∃ x, firstError checks = none ∧ s.buf.readRange off n = some x ∧ t = commit x) := by
  obtain ⟨e, he, h'⟩ | ⟨_, _, h'⟩ | ⟨x, hc, hx, h'⟩ := s.runCommand_cases checks off n commit
  · exact .inl ⟨e, he, by rw [h'] at h; injection h with h; exact h.symm⟩
  · rw [h'] at h; simp at h
  · exact .inr ⟨x, hc, hx, by rw [h'] at h; injection h with h; exact h.symm⟩

theorem State.runCommand_of_error {s : State} {checks : List (Bool × ErrorCode)} {e : ErrorCode}
    (h : firstError checks = some e) (off n : Nat) (commit : List Byte → State) :
    s.runCommand checks off n commit = .next (s.errorCompletion e) := by
  simp only [State.runCommand, h]

theorem State.runCommand_of_input {s : State} {checks : List (Bool × ErrorCode)} {off n : Nat} {x : List Byte}
    (h : firstError checks = none) (hx : s.buf.readRange off n = some x) (commit : List Byte → State) :
    s.runCommand checks off n commit = .next (commit x) := by
  simp only [State.runCommand, h, hx]

theorem State.runCommand_of_unwritten {s : State} {checks : List (Bool × ErrorCode)} {off n : Nat}
    (h : firstError checks = none) (hx : s.buf.readRange off n = none) (commit : List Byte → State) :
    s.runCommand checks off n commit = .fault .unwrittenRead := by
  simp only [State.runCommand, h, hx]

/-! ### Error codes -/

theorem ErrorCode.code_ne_zero (e : ErrorCode) : e.code ≠ 0 := by cases e <;> decide

theorem ErrorCode.code_le_seven (e : ErrorCode) : e.code.toNat ≤ 7 := by cases e <;> decide

/-! ### Hreg -/

@[simp] theorem Hreg.bytes_length (h : Hreg) : h.bytes.length = 16 := by simp [Hreg.bytes]

/-- The registers built from 16 bytes hold exactly those bytes. -/
theorem Hreg.bytes_ofBytes (x : List Byte) (hx : x.length = 16) : (Hreg.ofBytes x).bytes = x := by
  have key : ∀ a, a + 4 ≤ 16 → leBytes (leWord 32 (slice x a (a + 4))).toNat 4 = slice x a (a + 4) := by
    intro a ha
    exact leBytes_leWord 32 4 _ (by rw [slice_length]; omega) rfl
  have h0 := key 0 (by omega)
  have h1 := key 4 (by omega)
  have h2 := key 8 (by omega)
  have h3 := key 12 (by omega)
  simp only [Nat.zero_add, Nat.reduceAdd] at h0 h1 h2 h3
  simp only [Hreg.bytes, Hreg.ofBytes, h0, h1, h2, h3]
  simp only [slice, List.drop_zero, Nat.reduceSub]
  rw [show List.drop 8 x = List.drop 4 (List.drop 4 x) by simp,
    show List.drop 12 x = List.drop 4 (List.drop 4 (List.drop 4 x)) by simp]
  have h4 : (List.drop 4 (List.drop 4 (List.drop 4 x))).length ≤ 4 := by simp; omega
  rw [List.take_of_length_le h4, List.append_assoc, List.append_assoc, List.take_append_drop,
    List.take_append_drop, List.take_append_drop]

/-- Registers rebuilt from their own bytes are unchanged. -/
theorem Hreg.ofBytes_bytes (h : Hreg) : Hreg.ofBytes h.bytes = h := by
  obtain ⟨h0, h1, h2, h3⟩ := h
  have e0 : slice (Hreg.bytes ⟨h0, h1, h2, h3⟩) 0 4 = leBytes h0.toNat 4 := by
    simp [slice, Hreg.bytes]
  have e1 : slice (Hreg.bytes ⟨h0, h1, h2, h3⟩) 4 8 = leBytes h1.toNat 4 := by
    simp [slice, Hreg.bytes]
  have e2 : slice (Hreg.bytes ⟨h0, h1, h2, h3⟩) 8 12 = leBytes h2.toNat 4 := by
    simp [slice, Hreg.bytes, List.drop_append, List.drop_of_length_le]
  have e3 : slice (Hreg.bytes ⟨h0, h1, h2, h3⟩) 12 16 = leBytes h3.toNat 4 := by
    simp [slice, Hreg.bytes, List.drop_append, List.drop_of_length_le, List.take_of_length_le]
  simp only [Hreg.ofBytes, e0, e1, e2, e3, leWord_leBytes 32 4 _ rfl]

/-! ### The command word in flight -/

/-- The fields of a command word, put back together, are the word. -/
theorem CommandFields_toWord_ofWord (c : Word) : (CommandFields.ofWord c).toWord = c := by
  simp only [CommandFields.toWord, CommandFields.ofWord]
  ext i hi
  simp only [BitVec.getElem_append, BitVec.getElem_extractLsb', BitVec.getElem_ofBool]
  split
  · simp [BitVec.getLsbD_eq_getElem, hi]
  · split
    · have : i = 8 := by omega
      subst this
      simp [BitVec.getLsbD_eq_getElem]
    · rw [show 9 + (i - 8 - 1) = i by omega, BitVec.getLsbD_eq_getElem hi]

/-- What `step` fetches after a CMD write is the bytes of the word written. -/
theorem State.fetchBytes_latchCommand (s : State) (c : Word) : (s.latchCommand c).fetchBytes = wordBytesOf c :=
  congrArg wordBytesOf (CommandFields_toWord_ofWord c)

theorem State.fetchBytes_fetching (s : State) (c : Word) : (s.fetching c).fetchBytes = wordBytesOf c :=
  congrArg wordBytesOf (CommandFields_toWord_ofWord c)

end Sys2Proof.Machine
end

