-- ==== Sys2Proof/Laws/Cipher.lean ====
section
/-! SUPPORT. Sizes and lengths of the cipher's data, the rotations in library terms, and the one-round facts later proofs
start from. -/

namespace Sys2Proof

/-! ### Sizes -/

theorem WordSize.bits_pos (sw : WordSize) : 0 < sw.bits := by cases sw <;> decide

theorem WordSize.wordBytes_pos (sw : WordSize) : 0 < sw.wordBytes := by cases sw <;> decide

theorem WordSize.eight_mul_wordBytes (sw : WordSize) : 8 * sw.wordBytes = sw.bits := by cases sw <;> rfl

theorem WordSize.blockBytes_eq (sw : WordSize) : sw.blockBytes = 2 * sw.wordBytes := rfl

theorem WordSize.blockBytes_pos (sw : WordSize) : 0 < sw.blockBytes := by cases sw <;> decide

theorem WordSize.blockBytes_le (sw : WordSize) : sw.blockBytes ≤ 16 := by cases sw <;> decide

theorem WordSize.bits_le (sw : WordSize) : sw.bits ≤ 64 := by cases sw <;> decide

@[simp] theorem WordSize.ofWsel_toWsel (sw : WordSize) : WordSize.ofWsel sw.toWsel = some sw := by cases sw <;> rfl

/-! ### Rotations -/

/-- `rotl` is the library's left rotation. -/
theorem rotl_eq_rotateLeft {w : Nat} (v : BitVec w) (n : Nat) : rotl v n = v.rotateLeft n := by
  unfold rotl
  split
  · rename_i h
    simp [BitVec.rotateLeft, BitVec.rotateLeftAux, h, BitVec.ushiftRight_eq_zero]
  · rfl

/-- `rotr` is the library's right rotation. -/
theorem rotr_eq_rotateRight {w : Nat} (v : BitVec w) (n : Nat) : rotr v n = v.rotateRight n := by
  unfold rotr
  split
  · rename_i h
    simp [BitVec.rotateRight, BitVec.rotateRightAux, h, BitVec.shiftLeft_eq_zero]
  · rfl

/-! ### The key schedule -/

theorem padKey_length_mod (sw : WordSize) (key : List Byte) : (padKey sw key).length % sw.wordBytes = 0 := by
  have h := sw.wordBytes_pos
  unfold padKey
  split
  · simp
  · rw [List.length_append, zeros_length, Nat.add_mod, Nat.mod_mod]
    have := Nat.mod_lt key.length h
    rcases Nat.eq_zero_or_pos (key.length % sw.wordBytes) with h0 | h0
    · simp [h0]
    · rw [Nat.mod_eq_of_lt (a := sw.wordBytes - key.length % sw.wordBytes) (by omega),
        show key.length % sw.wordBytes + (sw.wordBytes - key.length % sw.wordBytes) = sw.wordBytes by omega,
        Nat.mod_self]

@[simp] theorem initTable_length (p : Params) (sw : WordSize) (t : Nat) : (initTable p sw t).length = t := by
  simp [initTable]

@[simp] theorem Mix.step_s_length {w : Nat} (m : Mix w) : m.step.s.length = m.s.length := by simp [Mix.step]

@[simp] theorem Mix.step_l_length {w : Nat} (m : Mix w) : m.step.l.length = m.l.length := by simp [Mix.step]

@[simp] theorem Mix.run_s_length {w : Nat} (n : Nat) (m : Mix w) : (Mix.run n m).s.length = m.s.length := by
  induction n generalizing m with
  | zero => rfl
  | succ n ih => rw [Mix.run, ih, Mix.step_s_length]

/-- The schedule has `T = 2 * (R + 1)` words (40 R120). -/
@[simp] theorem keyExpand_length (p : Params) (sw : WordSize) (rounds : Nat) (key : List Byte) :
    (keyExpand p sw rounds key).length = roundKeys rounds := by simp [keyExpand]

/-! ### Blocks -/

@[simp] theorem joinBlock_length (sw : WordSize) (ab : BitVec sw.bits × BitVec sw.bits) :
    (joinBlock sw ab).length = sw.blockBytes := by
  simp [joinBlock, WordSize.blockBytes_eq]; omega

@[simp] theorem enc_length (sw : WordSize) (rounds : Nat) (S : List (BitVec sw.bits)) (x : List Byte) :
    (enc sw rounds S x).length = sw.blockBytes := joinBlock_length sw _

@[simp] theorem dec_length (sw : WordSize) (rounds : Nat) (S : List (BitVec sw.bits)) (y : List Byte) :
    (dec sw rounds S y).length = sw.blockBytes := joinBlock_length sw _

/-- Joining the two words of a block gives the block. -/
theorem joinBlock_splitBlock (sw : WordSize) (x : List Byte) (h : x.length = sw.blockBytes) :
    joinBlock sw (splitBlock sw x) = x := by
  have hb := sw.blockBytes_eq
  have h1 : (slice x 0 sw.wordBytes).length = sw.wordBytes := by rw [slice_length]; omega
  have h2 : (slice x sw.wordBytes sw.blockBytes).length = sw.wordBytes := by rw [slice_length]; omega
  simp only [joinBlock, splitBlock, leBytes_leWord _ _ _ h1 sw.eight_mul_wordBytes,
    leBytes_leWord _ _ _ h2 sw.eight_mul_wordBytes]
  have h3 : (x.drop sw.wordBytes).length ≤ sw.blockBytes - sw.wordBytes := by simp; omega
  rw [slice, slice, List.take_of_length_le h3, List.drop_zero, Nat.sub_zero, List.take_append_drop]

/-- Splitting two joined words gives the words. -/
theorem splitBlock_joinBlock (sw : WordSize) (ab : BitVec sw.bits × BitVec sw.bits) :
    splitBlock sw (joinBlock sw ab) = ab := by
  obtain ⟨a, b⟩ := ab
  have hb := sw.blockBytes_eq
  have h1 : slice (joinBlock sw (a, b)) 0 sw.wordBytes = leBytes a.toNat sw.wordBytes := by
    simp [slice, joinBlock]
  have h2 : slice (joinBlock sw (a, b)) sw.wordBytes sw.blockBytes = leBytes b.toNat sw.wordBytes := by
    simp only [slice, joinBlock]
    rw [List.drop_left' (by simp), List.take_of_length_le (by simp; omega)]
  simp only [splitBlock, h1, h2, leWord_leBytes _ _ _ sw.eight_mul_wordBytes]

/-! ### Hash -/

@[simp] theorem compress_length (p : Params) (sw : WordSize) (rounds : Nat) (h m : List Byte) :
    (compress p sw rounds h m).length = min sw.blockBytes h.length := by simp [compress]

theorem compressBlocks_length (p : Params) (sw : WordSize) (rounds : Nat) (h padded : List Byte)
    (hl : h.length = sw.blockBytes) : (compressBlocks p sw rounds h padded).length = sw.blockBytes := by
  unfold compressBlocks
  generalize List.range (padded.length / sw.blockBytes) = ks
  induction ks generalizing h with
  | nil => exact hl
  | cons k ks ih => exact ih _ (by simp [hl])

/-- The chaining value is one block wide (43 R222). -/
@[simp] theorem hashFn_length (p : Params) (sw : WordSize) (rounds : Nat) (data : List Byte) :
    (hashFn p sw rounds data).length = sw.blockBytes := compressBlocks_length p sw rounds _ _ (by simp)

namespace Machine

theorem digestLength_le (d : Word) (bb : Nat) : digestLength d bb ≤ bb := by
  unfold digestLength
  split <;> omega

theorem State.dlen_le (s : State) : s.dlen ≤ s.bb := digestLength_le _ _

theorem State.bb_pos (s : State) : 0 < s.bb := s.sched.sw.blockBytes_pos

theorem State.bb_le (s : State) : s.bb ≤ 16 := s.sched.sw.blockBytes_le

end Machine

end Sys2Proof
end

