-- ==== Sys2Proof/Laws/Commands.lean ====
section
/-! SUPPORT. What each command can do, said once: its error completions in terms of its checks, and its success. -/

namespace Sys2Proof.Machine

@[simp] theorem exec_keysetup (s : State) : exec .keysetup s = execKeysetup s := rfl

@[simp] theorem exec_encblk (s : State) : exec .encblk s =
    s.runCommand s.blockChecks s.srcL s.bb fun x => s.commitOutput (s.encBlock x) := rfl

@[simp] theorem exec_decblk (s : State) : exec .decblk s =
    s.runCommand s.blockChecks s.srcL s.bb fun y => s.commitOutput (s.decBlock y) := rfl

@[simp] theorem exec_codecEnc (s : State) : exec .codecEnc s =
    s.runCommand s.codecEncChecks s.srcL s.lenL fun d => s.commitOutput (s.encStream d) := rfl

@[simp] theorem exec_codecDec (s : State) : exec .codecDec s =
    s.runCommand s.codecDecChecks s.srcL s.lenL fun d => s.commitOutput (s.decStream d false) := rfl

@[simp] theorem exec_codecDecStrip (s : State) : exec .codecDecStrip s =
    s.runCommand s.codecDecChecks s.srcL s.lenL fun d => s.commitOutput (s.decStream d true) := rfl

@[simp] theorem exec_hash (s : State) : exec .hash s = s.runCommand s.hashChecks s.srcL s.lenL s.hashCommit := rfl

@[simp] theorem exec_dmcomp (s : State) : exec .dmcomp s = s.runCommand s.dmcompChecks s.srcL s.bb s.dmcompCommit := rfl

/-- KEYSETUP with an unsupported WSEL (40 R130). -/
theorem execKeysetup_of_none {s : State} (h : WordSize.ofWsel s.latch.wsel = none) :
    execKeysetup s = .next (s.errorCompletion .unsupportedWordSize) := by
  simp only [execKeysetup, h]

/-- KEYSETUP with a supported WSEL (40 R130). -/
theorem execKeysetup_of_some {s : State} {sw : WordSize} (h : WordSize.ofWsel s.latch.wsel = some sw) :
    execKeysetup s = s.runCommand s.keysetupChecks s.srcL s.lenL (s.keysetupCommit sw) := by
  simp only [execKeysetup, h]

/-- WSEL is unsupported exactly when it is 3 (10_state R22). -/
theorem WordSize_ofWsel_eq_none_iff (v : BitVec 2) : WordSize.ofWsel v = none ↔ v = 3 := by
  revert v; decide

/-- If a command answers a next state, that state is an error completion of the state it ran in, or a success completion
of that state with some pending writes to BUF, Hreg and the schedule instance. -/
theorem exec_next {i : Instr} {s t : State} (h : exec i s = .next t) :
    (∃ e, t = s.errorCompletion e) ∨
    (∃ buf hreg sched valid n, t = State.successCompletion
      { s with buf := buf, hreg := hreg, sched := sched, schedValid := valid } n ∧
      (i ≠ .keysetup → sched = s.sched ∧ valid = s.schedValid)) := by
  have run : ∀ {checks off n commit}, s.runCommand checks off n commit = .next t →
      (∀ x, ∃ buf hreg sched valid k, commit x = State.successCompletion
        { s with buf := buf, hreg := hreg, sched := sched, schedValid := valid } k ∧
        (i ≠ .keysetup → sched = s.sched ∧ valid = s.schedValid)) →
      (∃ e, t = s.errorCompletion e) ∨
      (∃ buf hreg sched valid n, t = State.successCompletion
        { s with buf := buf, hreg := hreg, sched := sched, schedValid := valid } n ∧
        (i ≠ .keysetup → sched = s.sched ∧ valid = s.schedValid)) := by
    intro checks off n commit h hc
    obtain ⟨e, _, rfl⟩ | ⟨x, _, _, rfl⟩ := State.runCommand_next h
    · exact .inl ⟨e, rfl⟩
    · exact .inr (hc x)
  cases i with
  | keysetup =>
    cases hw : WordSize.ofWsel s.latch.wsel with
    | none =>
      rw [exec_keysetup, execKeysetup_of_none hw] at h
      injection h with h
      exact .inl ⟨_, h.symm⟩
    | some sw =>
      rw [exec_keysetup, execKeysetup_of_some hw] at h
      exact run h fun x => ⟨_, _, _, _, _, rfl, fun hn => absurd rfl hn⟩
  | encblk => exact run h fun x => ⟨_, _, _, _, _, rfl, fun _ => ⟨rfl, rfl⟩⟩
  | decblk => exact run h fun x => ⟨_, _, _, _, _, rfl, fun _ => ⟨rfl, rfl⟩⟩
  | codecEnc => exact run h fun x => ⟨_, _, _, _, _, rfl, fun _ => ⟨rfl, rfl⟩⟩
  | codecDec => exact run h fun x => ⟨_, _, _, _, _, rfl, fun _ => ⟨rfl, rfl⟩⟩
  | codecDecStrip => exact run h fun x => ⟨_, _, _, _, _, rfl, fun _ => ⟨rfl, rfl⟩⟩
  | hash => exact run h fun x => ⟨_, _, _, _, _, rfl, fun _ => ⟨rfl, rfl⟩⟩
  | dmcomp => exact run h fun x => ⟨_, _, _, _, _, rfl, fun _ => ⟨rfl, rfl⟩⟩

end Sys2Proof.Machine
end

