-- ==== Sys2Proof/Laws/PerInstr.lean ====
section
/-! SUPPORT. One fact about every instruction's encoding: its fields are legal (30_encoding R93), and the table of R92 holds
exactly one row of it, with those fields. -/

namespace Sys2Proof.Laws.LegalFields

/-- The fields of the instruction's word pass R93's checks, and its one row of R92's map has them. -/
def Statement (i : Instr) : Prop :=
  i.fields.WellFormed ∧ opcodeTable.filter (·.instr = i) = [⟨i.fields.opc, i.fields.strip, i⟩]

theorem keysetup : Statement .keysetup := by unfold Statement; decide

theorem encblk : Statement .encblk := by unfold Statement; decide

theorem decblk : Statement .decblk := by unfold Statement; decide

theorem codecEnc : Statement .codecEnc := by unfold Statement; decide

theorem codecDec : Statement .codecDec := by unfold Statement; decide

theorem codecDecStrip : Statement .codecDecStrip := by unfold Statement; decide

theorem hash : Statement .hash := by unfold Statement; decide

theorem dmcomp : Statement .dmcomp := by unfold Statement; decide

end Sys2Proof.Laws.LegalFields
end

