-- ==== Sys2Proof/Laws/Step.lean ====
section
/-! SUPPORT. What a host event and a step can do, said once. -/

namespace Sys2Proof.Machine

/-- Everything a host access can do. -/
theorem State.hostAccess_cases (s : State) (a : HostAccess) :
    (s.targetOf a = none ∧ s.hostAccess a = .fault .busError) ∨
    (∃ r v size addr, a = .write size addr v ∧ s.targetOf a = some (.register r) ∧
      s.hostAccess a = .next (s.writeReg r v)) ∨
    (∃ r size addr, a = .read size addr ∧ s.targetOf a = some (.register r) ∧
      s.hostAccess a = .next (s.returnRead addr (leBytes (s.readReg r).toNat 4))) ∨
    (∃ k size addr v, a = .write size addr v ∧ s.targetOf a = some (.buf k) ∧
      s.hostAccess a = .next { s with buf := s.buf.writeRange k (laneBytes v (s.offsetOf addr) size) }) ∨
    (∃ k size addr x, a = .read size addr ∧ s.targetOf a = some (.buf k) ∧
      s.buf.readRange k size.bytes = some x ∧ s.hostAccess a = .next (s.returnRead addr x)) ∨
    (∃ k size addr, a = .read size addr ∧ s.targetOf a = some (.buf k) ∧
      s.buf.readRange k size.bytes = none ∧ s.hostAccess a = .fault .unwrittenRead) := by
  cases ht : s.targetOf a with
  | none => exact .inl ⟨rfl, by simp only [State.hostAccess, ht]⟩
  | some tg =>
    cases tg with
    | register r =>
      cases a with
      | read size addr =>
        exact .inr (.inr (.inl ⟨r, size, addr, rfl, rfl, by simp only [State.hostAccess, ht]⟩))
      | write size addr v =>
        exact .inr (.inl ⟨r, v, size, addr, rfl, rfl, by simp only [State.hostAccess, ht]⟩)
    | buf k =>
      cases a with
      | read size addr =>
        cases hx : s.buf.readRange k size.bytes with
        | none =>
          exact .inr (.inr (.inr (.inr (.inr ⟨k, size, addr, rfl, rfl, hx, by simp only [State.hostAccess, ht, hx]⟩))))
        | some x =>
          exact .inr (.inr (.inr (.inr (.inl
            ⟨k, size, addr, x, rfl, rfl, hx, by simp only [State.hostAccess, ht, hx]⟩))))
      | write size addr v =>
        exact .inr (.inr (.inr (.inl ⟨k, size, addr, v, rfl, rfl, by simp only [State.hostAccess, ht]⟩)))

/-- Everything a register write can do to the state. -/
theorem State.writeReg_cases (s : State) (r : Reg) (v : Word) :
    (r = .cmd ∧ s.status.busy = false ∧ s.writeReg r v = s.accept v) ∨
    (r = .cmd ∧ s.status.busy = true ∧ s.writeReg r v = { s with status := { s.status with ovr := true } }) ∨
    (r = .status ∧ s.writeReg r v = { s with status := s.status.writeOneToClear v }) ∨
    (s.status.busy = false ∧ ∃ h, s.writeReg r v = { s with hreg := h }) ∨
    (r ≠ .cmd ∧ ∃ cfg src dst len dsize ie, s.writeReg r v =
      { s with cfg := cfg, src := src, dst := dst, len := len, dsize := dsize, ie := ie }) := by
  have same : ∃ cfg src dst len dsize ie, s =
      { s with cfg := cfg, src := src, dst := dst, len := len, dsize := dsize, ie := ie } :=
    ⟨s.cfg, s.src, s.dst, s.len, s.dsize, s.ie, rfl⟩
  have hreg : ∀ r' h, r' ≠ .cmd → s.writeReg r' v = s.writeHreg h →
      (s.status.busy = false ∧ ∃ h, s.writeReg r' v = { s with hreg := h }) ∨
      (r' ≠ .cmd ∧ ∃ cfg src dst len dsize ie, s.writeReg r' v =
        { s with cfg := cfg, src := src, dst := dst, len := len, dsize := dsize, ie := ie }) := by
    intro r' h hr hw
    rw [hw, State.writeHreg]
    split
    · exact .inr ⟨hr, same⟩
    · exact .inl ⟨by simpa using ‹¬s.status.busy = true›, _, rfl⟩
  cases r with
  | cmd =>
    by_cases hb : s.status.busy = true
    · exact .inr (.inl ⟨rfl, hb, if_pos hb⟩)
    · exact .inl ⟨rfl, by simpa using hb, if_neg hb⟩
  | status => exact .inr (.inr (.inl ⟨rfl, rfl⟩))
  | h0 => exact .inr (.inr (.inr (hreg _ _ (by decide) rfl)))
  | h1 => exact .inr (.inr (.inr (hreg _ _ (by decide) rfl)))
  | h2 => exact .inr (.inr (.inr (hreg _ _ (by decide) rfl)))
  | h3 => exact .inr (.inr (.inr (hreg _ _ (by decide) rfl)))
  | outlen => exact .inr (.inr (.inr (.inr ⟨by decide, same⟩)))
  | cfg => exact .inr (.inr (.inr (.inr ⟨by decide, Cfg.ofWord v, s.src, s.dst, s.len, s.dsize, s.ie, rfl⟩)))
  | src => exact .inr (.inr (.inr (.inr ⟨by decide, s.cfg, v, s.dst, s.len, s.dsize, s.ie, rfl⟩)))
  | dst => exact .inr (.inr (.inr (.inr ⟨by decide, s.cfg, s.src, v, s.len, s.dsize, s.ie, rfl⟩)))
  | len => exact .inr (.inr (.inr (.inr ⟨by decide, s.cfg, s.src, s.dst, v, s.dsize, s.ie, rfl⟩)))
  | dsize => exact .inr (.inr (.inr (.inr ⟨by decide, s.cfg, s.src, s.dst, s.len, v, s.ie, rfl⟩)))
  | ie => exact .inr (.inr (.inr (.inr ⟨by decide, s.cfg, s.src, s.dst, s.len, s.dsize, IntEnable.ofWord v, rfl⟩)))

/-- A command in flight that answers a next state does so through its meaning or through IllegalCommand. -/
theorem State.completeCommand_next {s t : State} (h : s.completeCommand = .next t) :
    (∃ i rest, decode s.fetchBytes = .ok (i, rest) ∧ exec i s = .next t) ∨
    ((∃ e, decode s.fetchBytes = .error e) ∧ t = s.errorCompletion .illegalCommand) := by
  unfold State.completeCommand at h
  split at h
  · exact .inl ⟨_, _, by assumption, h⟩
  · injection h with h
    exact .inr ⟨⟨_, by assumption⟩, h.symm⟩

/-- Everything a step that answers a next state can be. -/
theorem step_next {s t : State} (h : step s = .next t) :
    (s.rst = true ∧ s.resetStep = .next t) ∨
    (s.rst = false ∧ s.completesNext = true ∧ s.completeCommand = .next t) ∨
    (s.rst = false ∧ s.completesNext = false ∧ s.hostQueue = [] ∧ t = s) ∨
    (s.rst = false ∧ s.completesNext = false ∧ ∃ e q, s.hostQueue = e :: q ∧
      State.hostEvent { s with hostQueue := q, latency := s.latency - 1 } e = .next t) := by
  unfold step at h
  split at h
  · exact .inl ⟨by assumption, h⟩
  · rename_i hr
    have hr : s.rst = false := by simpa using hr
    split at h
    · exact .inr (.inl ⟨hr, by assumption, h⟩)
    · rename_i hc
      have hc : s.completesNext = false := by simpa using hc
      unfold State.hostStep at h
      split at h
      · injection h with h
        exact .inr (.inr (.inl ⟨hr, hc, by assumption, h.symm⟩))
      · exact .inr (.inr (.inr ⟨hr, hc, _, _, by assumption, h⟩))

/-- A step that is the completion of the command in flight. -/
theorem step_of_completesNext {s : State} (hr : s.rst = false) (hc : s.completesNext = true) :
    step s = s.completeCommand := by simp [step, hr, hc]

/-- A step that is a host event. -/
theorem step_of_event {s : State} {e : HostEvent} {q : List HostEvent} (hr : s.rst = false)
    (hc : s.completesNext = false) (hq : s.hostQueue = e :: q) :
    step s = State.hostEvent { s with hostQueue := q, latency := s.latency - 1 } e := by
  simp [step, hr, hc, State.hostStep, hq]

end Sys2Proof.Machine
end

