-- ==== Sys2Proof/Laws/Runs.lean ====
section
/-! SUPPORT. The words of the statements in terms of the step: what is next in the total order, an input range as a range read,
a register access as one step, runs in parts, held accesses, and every command as a run of its checks. -/

namespace Sys2Proof.Machine

/-- The completion is the next event exactly when `step` takes it so. -/
theorem State.completionIsNext_iff (s : State) : s.CompletionIsNext ↔ s.rst = false ∧ s.completesNext = true := by
  simp only [State.CompletionIsNext, State.completesNext]
  cases s.hostQueue with
  | nil => simp
  | cons e q =>
    simp only [Bool.and_eq_true, Bool.or_eq_true, beq_iff_eq, List.cons.injEq, reduceCtorEq, false_or]
    constructor
    · rintro ⟨a, b, h | ⟨e', q', ⟨rfl, rfl⟩, h⟩⟩ <;> simp_all
    · rintro ⟨a, b, h | h⟩
      · simp_all
      · exact ⟨a, b, .inr ⟨e, q, ⟨rfl, rfl⟩, h⟩⟩

/-- A host event is the next event exactly when `step` takes it so. -/
theorem State.nextIs_iff (s : State) (e : HostEvent) (q : List HostEvent) :
    s.NextIs e q ↔ s.rst = false ∧ s.hostQueue = e :: q ∧ s.completesNext = false := by
  simp only [State.NextIs, State.completesNext]
  constructor
  · rintro ⟨a, b, c⟩
    refine ⟨a, b, ?_⟩
    rw [b]
    rcases c with c | ⟨c, d⟩ <;> simp [*]
  · rintro ⟨a, b, c⟩
    refine ⟨a, b, ?_⟩
    rw [b] at c
    cases h : s.status.busy <;> simp_all

/-- The input is `x` exactly when the range read gives `x`. -/
theorem State.inputIs_iff (s : State) (off n : Nat) (x : List Byte) :
    s.InputIs off n x ↔ s.buf.readRange off n = some x := (Memory.readRange_eq_some_iff _ _ _ _).symm

/-- The aperture offset of the host address of an offset is the offset. -/
theorem State.offsetOf_hostAddr (s : State) (off : Nat) (h : off < 2 ^ 32) :
    s.offsetOf (hostAddr s.params off) = off := by
  simp [State.offsetOf, hostAddr]; omega

/-- A word access at a register's offset reaches the register. -/
theorem targetAt_register (bufBytes : Nat) (r : Reg) : targetAt bufBytes .word r.offset = some (.register r) := by
  cases r <;> rfl

theorem State.targetOf_register (s : State) (r : Reg) (a : HostAccess) (hs : a.size = .word)
    (ha : a.addr = hostAddr s.params r.offset) : s.targetOf a = some (.register r) := by
  unfold State.targetOf
  rw [hs, ha, s.offsetOf_hostAddr _ (by cases r <;> decide)]
  exact targetAt_register _ r

/-- A register write that is the next event is one step. -/
theorem step_wr {s : State} {r : Reg} {v : Word} {q : List HostEvent} (h : s.NextIs (s.wr r v) q) :
    step s = .next ((s.afterEvent q).writeReg r v) := by
  obtain ⟨a, b, c⟩ := (State.nextIs_iff _ _ _).1 h
  rw [step_of_event a c b]
  show State.hostAccess (s.afterEvent q) _ = _
  unfold State.hostAccess
  rw [(s.afterEvent q).targetOf_register r _ rfl rfl]

/-- A register read that is the next event is one step. -/
theorem step_rd {s : State} {r : Reg} {q : List HostEvent} (h : s.NextIs (s.rd r) q) :
    step s = .next ((s.afterEvent q).returnRead (hostAddr s.params r.offset) (leBytes (s.readReg r).toNat 4)) := by
  obtain ⟨a, b, c⟩ := (State.nextIs_iff _ _ _).1 h
  rw [step_of_event a c b]
  show State.hostAccess (s.afterEvent q) _ = _
  unfold State.hostAccess
  rw [(s.afterEvent q).targetOf_register r _ rfl rfl]
  cases r <;> rfl

/-- A run whose first step answers a next state goes on from it. -/
theorem run_succ (n : Nat) {s t : State} (h : step s = .next t) :
    Host.Core.run Sys2Proof.core (n + 1) s = Host.Core.run Sys2Proof.core n t := by
  have h' : Sys2Proof.core.step s = .next t := h
  simp only [Host.Core.run, h']

/-- A run goes on from where its first part ended. -/
theorem run_add (n m : Nat) {s t : State} (h : Host.Core.run Sys2Proof.core n s = .next t) :
    Host.Core.run Sys2Proof.core (n + m) s = Host.Core.run Sys2Proof.core m t := by
  induction n generalizing s with
  | zero => simp only [Host.Core.run] at h; injection h with h; subst h; simp
  | succ n ih =>
    cases hs : step s with
    | next u =>
      rw [run_succ n hs] at h
      rw [Nat.add_right_comm, run_succ _ hs]
      exact ih h
    | fault f =>
      have h' : Sys2Proof.core.step s = .fault f := hs
      simp only [Host.Core.run, h'] at h
      cases h
    | refused r =>
      have h' : Sys2Proof.core.step s = .refused r := hs
      simp only [Host.Core.run, h'] at h
      cases h

/-- An access to BUF is held while BUSY = 1 (20_memory R72). -/
theorem State.holds_of_targetOf_buf {s : State} {a : HostAccess} {k : Nat} (hb : s.status.busy = true)
    (h : s.targetOf a = some (.buf k)) : s.holds a = true := by
  have hsz : 0 < a.size.bytes := by cases a.size <;> decide
  unfold State.targetOf targetAt at h
  split at h
  · split at h
    · rw [Option.map_eq_some_iff] at h
      obtain ⟨_, _, h⟩ := h
      cases h
    · simp at h
  · split at h
    · simp only [State.holds, hb, Bool.true_and]
      exact decide_eq_true ⟨by omega, by omega⟩
    · simp at h

/-- The whole check list of a command, in order (60 R258). -/
def State.checks (s : State) : Instr → List (Bool × ErrorCode)
  | .keysetup => (decide (s.latch.wsel = 3), .unsupportedWordSize) :: s.keysetupChecks
  | .encblk => s.blockChecks
  | .decblk => s.blockChecks
  | .codecEnc => s.codecEncChecks
  | .codecDec => s.codecDecChecks
  | .codecDecStrip => s.codecDecChecks
  | .hash => s.hashChecks
  | .dmcomp => s.dmcompChecks

/-- Every command is a run of its check list on its input range, whose commit is a success completion. -/
theorem exec_eq_runCommand (i : Instr) (s : State) :
    ∃ commit : List Byte → State, exec i s = s.runCommand (s.checks i) s.srcL (s.inputLen i) commit ∧
      (firstError (s.checks i) = none → ∀ x, s.Succeeded (commit x) ∧ s.SameControl (commit x)) := by
  have S : ∀ buf hreg sched valid n,
      s.Succeeded (State.successCompletion { s with buf := buf, hreg := hreg, sched := sched, schedValid := valid } n) ∧
      s.SameControl (State.successCompletion { s with buf := buf, hreg := hreg, sched := sched, schedValid := valid } n) :=
    fun _ _ _ _ _ => ⟨⟨rfl, rfl, rfl, rfl⟩, ⟨rfl, rfl, rfl, rfl, rfl, rfl, rfl, rfl, rfl, rfl, rfl, rfl, rfl⟩⟩
  cases i with
  | keysetup =>
    cases hw : WordSize.ofWsel s.latch.wsel with
    | none =>
      have h3 := (WordSize_ofWsel_eq_none_iff _).1 hw
      refine ⟨fun _ => s, ?_, by simp [State.checks, h3]⟩
      rw [exec_keysetup, execKeysetup_of_none hw, State.runCommand_of_error (e := .unsupportedWordSize)]
      simp [State.checks, h3]
    | some sw =>
      refine ⟨s.keysetupCommit sw, ?_, fun _ _ => S _ _ _ _ _⟩
      have h3 : s.latch.wsel ≠ 3 := fun h => by rw [(WordSize_ofWsel_eq_none_iff _).2 h] at hw; simp at hw
      rw [exec_keysetup, execKeysetup_of_some hw]
      simp only [State.runCommand, State.checks, h3, decide_false, firstError_cons_false, State.inputLen]
  | encblk => exact ⟨_, rfl, fun _ _ => S _ _ _ _ _⟩
  | decblk => exact ⟨_, rfl, fun _ _ => S _ _ _ _ _⟩
  | codecEnc => exact ⟨_, rfl, fun _ _ => S _ _ _ _ _⟩
  | codecDec => exact ⟨_, rfl, fun _ _ => S _ _ _ _ _⟩
  | codecDecStrip => exact ⟨_, rfl, fun _ _ => S _ _ _ _ _⟩
  | hash => exact ⟨_, rfl, fun _ _ => S _ _ _ _ _⟩
  | dmcomp => exact ⟨_, rfl, fun _ _ => S _ _ _ _ _⟩

end Sys2Proof.Machine
end

