-- ==== Sys2Proof/Tests/Slice0.lean ====
section
/-! SUPPORT. The model's own tests: well-formedness smoke tests, decoding of words written out from 30_encoding R92, one-step
tests on vectors of 95_test_vectors and on the worked values of the rules, and a witness for every statement with
hypotheses. -/

namespace Sys2Proof.Tests

open Sys2Proof.Machine

set_option Elab.async false

/-! ### Helpers -/

/-- A byte string from numbers. -/
def bytes (l : List Nat) : List Byte := l.map (BitVec.ofNat 8)

/-- b"default-key" (95 L1-1). -/
def defaultKey : List Byte := bytes [0x64, 0x65, 0x66, 0x61, 0x75, 0x6C, 0x74, 0x2D, 0x6B, 0x65, 0x79]

/-- A state with a schedule instance, `data` written from `src` on, and a command with these operands in flight. -/
def machine (sw : WordSize) (rounds : BitVec 8) (key data : List Byte) (src dst len dsize : Nat) : State :=
  { State.reset with
    status := { State.reset.status with busy := true }
    schedValid := true
    sched := Schedule.ofWords sw rounds (keyExpand Params.default sw rounds.toNat key)
    latch :=
      { Latches.reset with
        src := BitVec.ofNat 32 src, dst := BitVec.ofNat 32 dst, len := BitVec.ofNat 32 len,
        dsize := BitVec.ofNat 32 dsize, wsel := 1, rounds := 1 }
    buf := Memory.writeRange [] src data }

/-- The command word `c` in the latches. -/
def inFlight (c : Word) (s : State) : State :=
  { s with latch := { s.latch with opc := c.extractLsb' 0 8, strip := c.getLsbD 8, rsv := c.extractLsb' 9 23 } }

/-- The state right after reset, with host events to come. -/
def host (q : List HostEvent) : State := { State.reset with hostQueue := q }

/-- A step's or a command's outcome is a next state. -/
def isNext : Outcome → Bool
  | .next _ => true
  | _ => false

/-- Bytes of BUF after it. -/
def outBuf (off n : Nat) : Outcome → Option (List Byte)
  | .next t => t.buf.readRange off n
  | _ => none

/-- A register after it. -/
def outReg (r : Reg) : Outcome → Option Word
  | .next t => some (t.readReg r)
  | _ => none

/-- Hreg's bytes after it. -/
def outHreg : Outcome → Option (List Byte)
  | .next t => some t.hreg.bytes
  | _ => none

/-- The schedule table after it. -/
def outTable : Outcome → Option (List (BitVec 64))
  | .next t => some t.sched.table
  | _ => none

/-- SCHED_VALID after it. -/
def outValid : Outcome → Option Bool
  | .next t => some t.schedValid
  | _ => none

/-- What the host has read after it. -/
def outReads : Outcome → Option (List (List Byte))
  | .next t => some (t.hostReads.map (·.bytes))
  | _ => none

/-- The fault it ends in. -/
def outFault : Outcome → Option Fault
  | .fault f => some f
  | _ => none

theorem exists_next {o : Outcome} (h : isNext o = true) : ∃ t, o = .next t := by
  cases o with
  | next t => exact ⟨t, rfl⟩
  | fault f => simp [isNext] at h
  | refused r => simp [isNext] at h

/-! ### WellFormed smoke (30_encoding R93): one ill-formed term for each check -/

theorem test_wf_good : (CommandFields.mk 0x05 true 0).WellFormed := by decide

theorem test_wf_opc_zero : ¬ (CommandFields.mk 0x00 false 0).opcDefined := by decide

theorem test_wf_opc_eight : ¬ (CommandFields.mk 0x08 false 0).WellFormed := by decide

theorem test_wf_reserved : ¬ (CommandFields.mk 0x01 false 1).reservedZero := by decide

theorem test_wf_strip : ¬ (CommandFields.mk 0x04 true 0).stripAllowed := by decide

theorem test_params_legal : Params.default.legal ∧ ¬ { Params.default with bufBytes := 63 }.legal := by decide

/-! ### Decoding: every row of 30_encoding R92, and words R94 calls illegal -/

theorem test_decode_keysetup : decodeWord 0b00000000000000000000000000000001 = .ok .keysetup := by decide

theorem test_decode_encblk : decodeWord 0b00000000000000000000000000000010 = .ok .encblk := by decide

theorem test_decode_decblk : decodeWord 0b00000000000000000000000000000011 = .ok .decblk := by decide

theorem test_decode_codecEnc : decodeWord 0b00000000000000000000000000000100 = .ok .codecEnc := by decide

theorem test_decode_codecDec : decodeWord 0b00000000000000000000000000000101 = .ok .codecDec := by decide

theorem test_decode_codecDecStrip : decodeWord 0b00000000000000000000000100000101 = .ok .codecDecStrip := by decide

theorem test_decode_hash : decodeWord 0b00000000000000000000000000000110 = .ok .hash := by decide

theorem test_decode_dmcomp : decodeWord 0b00000000000000000000000000000111 = .ok .dmcomp := by decide

theorem test_decode_illegal :
    decodeWord 0x00000000 = .error (.undefinedOpcode 0x00) ∧ decodeWord 0x00000008 = .error (.undefinedOpcode 0x08) ∧
    decodeWord 0x00000106 = .error (.stripNotAllowed 0x06) ∧ decodeWord 0x00000205 = .error (.reservedBits 1) ∧
    decodeWord 0x80000001 = .error (.reservedBits 0x400000) := by decide

theorem test_decodeTableWord : decodeTableWord 32 0x105 = some .codecDecStrip ∧ decodeTableWord 32 0x108 = none := by
  decide

/-! ### The cipher functions -/

/-- V-ROT-1, V-ROT-3, V-ROT-9, V-ROT-10. -/
theorem test_rotations :
    rotl (0x8001 : BitVec 16) 1 = 0x0003 ∧ rotl (0x1234 : BitVec 16) 17 = 0x2468 ∧
    rotr (0x0123456789ABCDEF : BitVec 64) 0x44 = 0xF0123456789ABCDE ∧
    rotl (0x12345678 : BitVec 32) 0xFFFFFFE8 = 0x34567812 := by decide +kernel

/-- RC5-1 of 95 section 2 (a published vector): key 00×16, plaintext 00×8, R = 12. -/
theorem test_published_vector :
    enc .w32 12 (keyExpand Params.default .w32 12 (zeros 16)) (zeros 8) =
      bytes [0x21, 0xA5, 0xDB, 0xEE, 0x15, 0x4B, 0x8F, 0x6D] := by decide +kernel

/-- V-HP-1 and V-HP-2. -/
theorem test_padding :
    hashPad .w16 [] = bytes [0x80, 0, 0, 0, 0, 0, 0, 0, 0, 0, 0, 0] ∧
    hashPad .w32 (bytes [0xAA, 0xAA, 0xAA]) =
      bytes [0xAA, 0xAA, 0xAA, 0x80, 0, 0, 0, 0, 0x18, 0, 0, 0, 0, 0, 0, 0] := by decide +kernel

/-- 44 R244. -/
theorem test_diffusion :
    (diffusionCompare Params.default .w32 12 (bytes [0x61, 0x62, 0x63]) 0 0).differingBitCount = 35 ∧
    diffusionModified (bytes [0x61, 0x62, 0x63]) 0 0 = bytes [0x60, 0x62, 0x63] := by decide +kernel

/-! ### One command each -/

/-- V-KS-7: w = 32, R = 1, key b"ab". -/
theorem test_keysetup :
    outTable (exec .keysetup (machine .w16 0 [] (bytes [0x61, 0x62]) 5 0 2 0)) =
      some [0xE1E6DF9D, 0x3A76EA16, 0x077189D1, 0x4ECECD58] ∧
    outReg .status (exec .keysetup (machine .w16 0 [] (bytes [0x61, 0x62]) 5 0 2 0)) = some 0x0001100A := by
  decide +kernel

/-- 60 R252, 40 R131: WSEL = 3 ends in error 1 whatever the length; the old instance (w = 16, R = 9) stays. -/
theorem test_keysetup_wsel :
    outReg .status (exec .keysetup { machine .w16 9 [] [] 0 0 300 0 with
      latch := { Latches.reset with wsel := 3, len := 300 } }) = some 0x0009010C := by decide +kernel

/-- V-BC-5, in place. -/
theorem test_encblk :
    outBuf 3 8 (exec .encblk (machine .w32 1 [1] (bytes [0, 1, 2, 3, 4, 5, 6, 7]) 3 3 8 0)) =
      some (bytes [0x30, 0xF6, 0x35, 0x79, 0x70, 0x55, 0x3C, 0x06]) := by decide +kernel

/-- 60 R258: LEN ≠ blockBytes comes before a source range outside BUF. -/
theorem test_encblk_priority :
    outReg .status (exec .encblk (machine .w32 1 [1] [] 0xFFFFFFFF 0 7 0)) = some 0x0001120C := by decide +kernel

/-- V-BC-15, the column of `Dec`. -/
theorem test_decblk :
    outBuf 8 8 (exec .decblk (machine .w32 1 [1] (bytes [1, 2, 3, 4, 1, 2, 3, 4]) 0 8 8 0)) =
      some (bytes [0x86, 0xC5, 0x10, 0x23, 0xC0, 0x34, 0x7E, 0xE6]) := by decide +kernel

/-- 60 R254: no schedule instance. -/
theorem test_decblk_no_schedule :
    outReg .status (exec .decblk { machine .w32 1 [1] [] 0 8 7 0 with schedValid := false }) = some 0x00000504 := by
  decide +kernel

/-- V-SC-6: w = 16, R = 12, key b"k", seven bytes in place. -/
theorem test_codecEnc :
    outBuf 0 8 (exec .codecEnc (machine .w16 12 [0x6B] (bytes [1, 2, 3, 4, 5, 6, 7]) 0 0 7 0)) =
      some (bytes [0x16, 0x1A, 0xE5, 0x6B, 0x69, 0x30, 0x1C, 0x7B]) ∧
    outReg .outlen (exec .codecEnc (machine .w16 12 [0x6B] (bytes [1, 2, 3, 4, 5, 6, 7]) 0 0 7 0)) = some 8 := by
  decide +kernel

/-- 60 R257: the ranges [0, 8) and [4, 12) overlap. -/
theorem test_codecEnc_overlap :
    outReg .status (exec .codecEnc (machine .w32 1 [1] (zeros 8) 0 4 8 0)) = some 0x0001170C := by decide +kernel

/-- V-SC-6 the other way. -/
theorem test_codecDec :
    outBuf 0x20 8 (exec .codecDec (machine .w16 12 [0x6B] (bytes [0x16, 0x1A, 0xE5, 0x6B, 0x69, 0x30, 0x1C, 0x7B])
      0 0x20 8 0)) = some (bytes [1, 2, 3, 4, 5, 6, 7, 0]) := by decide +kernel

/-- 60 R253: a short tail. -/
theorem test_codecDec_length :
    outReg .status (exec .codecDec (machine .w32 1 [1] (zeros 8) 0 0x20 7 0)) = some 0x0001120C := by decide +kernel

/-- V-SC-3, the strip column: ten plaintext bytes come back as four; the byte after them stays unwritten (42 R190). -/
theorem test_codecDecStrip :
    let o := exec .codecDecStrip (machine .w32 12 defaultKey
      (bytes [0xE5, 0x2F, 0x55, 0x74, 0x0B, 0xC4, 0xE7, 0x20, 0x9D, 0xB2, 0x64, 0xE7, 0xBF, 0x3C, 0x90, 0x4C]) 0 0x20 16 0)
    outBuf 0x20 4 o = some (bytes [0x41, 0x42, 0x43, 0x44]) ∧ outReg .outlen o = some 4 ∧ outBuf 0x24 1 o = none := by
  decide +kernel

/-- V-HS-15: b"abc" truncated to three bytes, Hreg whole (V-HS-2). -/
theorem test_hash :
    let o := exec .hash (machine .w32 12 [] (bytes [0x61, 0x62, 0x63]) 0 0x10 3 0x80000003)
    outBuf 0x10 3 o = some (bytes [0x10, 0xEA, 0x10]) ∧ outBuf 0x13 1 o = none ∧
      outReg .h1 o = some 0xB69982FE ∧ outReg .h2 o = some 0 := by decide +kernel

/-- V-HS-13: the empty message, w = 16, R = 0. -/
theorem test_hash_empty :
    outBuf 4 4 (exec .hash (machine .w16 0 [] [] 0 4 0 0)) = some (bytes [0x49, 0x0C, 0xBC, 0x3B]) := by decide +kernel

/-- V-HS-4, step 1: w = 16, R = 12; Hreg above the block keeps its value (43 R230). -/
theorem test_dmcomp :
    outHreg (exec .dmcomp { machine .w16 12 [] (zeros 4) 0 0 4 0 with
      hreg := { h0 := 0xB7B69DA2, h1 := 0xDEADBEEF, h2 := 0, h3 := 0x01020304 } }) =
      some (bytes [0x89, 0x05, 0x04, 0xED, 0xEF, 0xBE, 0xAD, 0xDE, 0, 0, 0, 0, 4, 3, 2, 1]) := by decide +kernel

/-- 20_memory R62: a block with an unwritten byte. -/
theorem test_unwritten_input :
    outFault (exec .dmcomp (machine .w16 12 [] (zeros 3) 0 0 4 0)) = some .unwrittenRead := by decide +kernel

/-! ### The host port -/

/-- 20_memory R64 (d): a word write of 0x04030201 stores 01 02 03 04. -/
theorem test_word_write :
    outBuf 8 4 (step (host [.access (.write .word 0x10008 0x04030201)])) = some (bytes [1, 2, 3, 4]) := by
  decide +kernel

/-- 20_memory R64 (d): a byte at offset 3 travels on bits [31:24]. -/
theorem test_byte_lane :
    outBuf 3 1 (step (host [.access (.write .byte 0x10003 0xAB112233)])) = some (bytes [0xAB]) := by decide +kernel

/-- 20_memory R65, R66, 10_state R32: reserved offset, narrow register access, misaligned and too high BUF accesses. -/
theorem test_bus_errors :
    outFault (step (host [.access (.read .word 0x24)])) = some .busError ∧
    outFault (step (host [.access (.write .half 0x00C 0)])) = some .busError ∧
    outFault (step (host [.access (.write .half 0x10001 0)])) = some .busError ∧
    outFault (step (host [.access (.write .byte 0x20000 0)])) = some .busError ∧
    outFault (step (host [.access (.read .byte 0x10000)])) = some .unwrittenRead := by decide +kernel

/-- 10_state R52, R22: CFG reads 0x0000_0C01 after reset. -/
theorem test_cfg_reset : outReads (step (host [.access (.read .word 0x000)])) = some [bytes [0x01, 0x0C, 0, 0]] := by
  decide +kernel

/-- 10_state R24: a written 1 clears DONE alone. -/
theorem test_write_one_to_clear :
    (Status.mk false true false true 0).writeOneToClear 0x00000002 = Status.mk false false false true 0 := by decide

/-- 30_encoding R111: `cfg 32, 12` and `hash s, d, n, k`. -/
theorem test_pseudo :
    (Pseudo.cfg .w32 12).expand = [.wr .cfg 0x00000C01] ∧
    (Pseudo.hash 1 2 3 (some 4)).expand =
      [.wr .src 1, .wr .dst 2, .wr .len 3, .wr .dsize 0x80000004, .cmd .hash, .poll] := by decide

/-- 40 R130 with the reset value of CFG and an empty key: a step runs the word `withFetchWord` places. -/
theorem test_withFetchWord :
    outReg .status (step (State.reset.withFetchWord 32 0x1)) =
      some 0x000C100A := by decide +kernel

/-! ### Witnesses: states and operands that meet the hypotheses of the statements -/

/-- A register write to come, the engine idle. -/
def idleWrite (r : Reg) (v : Word) (q : List HostEvent) : State := host (State.reset.wr r v :: q)

/-- A register write to come while a HASH is in flight. -/
def busyWrite (r : Reg) (v : Word) : State :=
  { inFlight 6 (machine .w16 0 [] [] 0 4 0 0) with hostQueue := [State.reset.wr r v], latency := 3 }

/-- Every command with its checks passed and its input written. -/
def clean (i : Instr) : State := inFlight (encodeWord i) (machine .w16 0 [] (bytes [7, 0, 0, 0]) 0 8 4 0)

theorem witness_ExactlyEightWordsAreLegal :
    (∀ i, decodeWord 8 ≠ .ok i) ∧ (idleWrite .cmd 8 []).status.busy = false ∧
      (idleWrite .cmd 8 []).NextIs ((idleWrite .cmd 8 []).wr .cmd 8) [] ∧
      ∃ t u : State, step (idleWrite .cmd 8 []) = .next t ∧ u.latch = t.latch ∧ u.CompletionIsNext := by
  refine ⟨fun i => by rw [show decodeWord 8 = .error (.undefinedOpcode 8) by decide]; simp, rfl, ⟨rfl, rfl, .inl rfl⟩,
    _, _, rfl, rfl, rfl, rfl, .inl rfl⟩

theorem witness_StepRunsTheDecodedCommand :
    (clean .hash).CompletionIsNext ∧ decode (clean .hash).fetchBytes = .ok (.hash, []) ∧
      decodeWord 0x105 = .ok .codecDecStrip :=
  ⟨⟨rfl, rfl, .inl rfl⟩, by decide +kernel, by decide +kernel⟩

theorem witness_AcceptanceLatchesTheOperands :
    (idleWrite .cmd 2 [.poll]).status.busy = false ∧
      (idleWrite .cmd 2 [.poll]).NextIs ((idleWrite .cmd 2 [.poll]).wr .cmd 2) [.poll] :=
  ⟨rfl, rfl, rfl, .inl rfl⟩

theorem witness_CommandWriteWhileBusyIsDropped :
    (busyWrite .cmd 1).status.busy = true ∧ (busyWrite .cmd 1).NextIs ((busyWrite .cmd 1).wr .cmd 1) [] :=
  ⟨rfl, rfl, rfl, .inr ⟨by decide, rfl⟩⟩

theorem witness_FinalStateKeepsItsState : State.reset.final ∧ { State.reset with rst := true }.final :=
  ⟨⟨rfl, rfl⟩, rfl, rfl⟩

/-- KEYSETUP with the empty key at the very end of BUF (40 R130), and with the longest key. -/
theorem witness_KeysetupLatchesTheSchedule :
    let s := machine .w16 0 [] [] 65536 0 0 0
    let u := machine .w16 0 [] (zeros 255) 0 0 255 0
    (s.latch.wsel = WordSize.w32.toWsel ∧ s.lenL ≤ s.params.keyMaxBytes ∧ s.srcL + s.lenL ≤ s.params.bufBytes ∧
      s.InputIs s.srcL s.lenL []) ∧
    (u.latch.wsel = WordSize.w32.toWsel ∧ u.lenL ≤ u.params.keyMaxBytes ∧ u.srcL + u.lenL ≤ u.params.bufBytes ∧
      u.InputIs u.srcL u.lenL (zeros 255)) := by decide +kernel

/-- ENCBLK and DECBLK on the last block of BUF. -/
theorem witness_block_commands :
    let s := machine .w16 0 [] (bytes [1, 2, 3, 4]) 65532 65532 4 0
    s.schedValid = true ∧ s.lenL = s.bb ∧ s.srcL + s.bb ≤ s.params.bufBytes ∧ s.dstL + s.bb ≤ s.params.bufBytes ∧
      s.InputIs s.srcL s.bb (bytes [1, 2, 3, 4]) := by decide +kernel

/-- CODEC_ENC in place, and on disjoint ranges that touch. -/
theorem witness_CodecEncStoresTheCiphertext :
    let s := machine .w16 0 [] (bytes [1, 2, 3]) 0 0 3 0
    let u := machine .w16 0 [] (bytes [1, 2, 3]) 4 0 3 0
    (s.schedValid = true ∧ 4 = ceilDiv s.lenL s.bb * s.bb ∧ s.srcL + s.lenL ≤ s.params.bufBytes ∧
      s.dstL + 4 ≤ s.params.bufBytes ∧ (Overlaps s.srcL s.lenL s.dstL 4 → s.srcL = s.dstL) ∧
      s.params.bufBytes ≤ 2 ^ 31 ∧ s.InputIs s.srcL s.lenL (bytes [1, 2, 3])) ∧
    (u.schedValid = true ∧ 4 = ceilDiv u.lenL u.bb * u.bb ∧ u.srcL + u.lenL ≤ u.params.bufBytes ∧
      u.dstL + 4 ≤ u.params.bufBytes ∧ (Overlaps u.srcL u.lenL u.dstL 4 → u.srcL = u.dstL) ∧
      u.params.bufBytes ≤ 2 ^ 31 ∧ u.InputIs u.srcL u.lenL (bytes [1, 2, 3])) := by decide +kernel

/-- CODEC_DEC and CODEC_DEC.STRIP, in place and on disjoint ranges. -/
theorem witness_codec_dec_commands :
    let s := machine .w16 0 [] (bytes [1, 2, 3, 4]) 0 0 4 0
    let u := machine .w16 0 [] (bytes [1, 2, 3, 4]) 0 4 4 0
    (s.schedValid = true ∧ s.lenL % s.bb = 0 ∧ s.srcL + s.lenL ≤ s.params.bufBytes ∧
      s.dstL + s.lenL ≤ s.params.bufBytes ∧ (Overlaps s.srcL s.lenL s.dstL s.lenL → s.srcL = s.dstL) ∧
      s.InputIs s.srcL s.lenL (bytes [1, 2, 3, 4])) ∧
    (u.schedValid = true ∧ u.lenL % u.bb = 0 ∧ u.srcL + u.lenL ≤ u.params.bufBytes ∧
      u.dstL + u.lenL ≤ u.params.bufBytes ∧ (Overlaps u.srcL u.lenL u.dstL u.lenL → u.srcL = u.dstL) ∧
      u.InputIs u.srcL u.lenL (bytes [1, 2, 3, 4])) := by decide +kernel

/-- HASH with the full digest, and with an empty digest at the very end of BUF (43 R225). -/
theorem witness_HashStoresTheDigest :
    let s := machine .w16 0 [] (bytes [1]) 0 0 1 0
    let u := machine .w16 0 [] (bytes [1]) 0 65536 1 0x80000000
    (s.schedValid = true ∧ s.srcL + s.lenL ≤ s.params.bufBytes ∧ s.dstL + s.dlen ≤ s.params.bufBytes ∧
      s.InputIs s.srcL s.lenL (bytes [1])) ∧
    (u.schedValid = true ∧ u.srcL + u.lenL ≤ u.params.bufBytes ∧ u.dstL + u.dlen ≤ u.params.bufBytes ∧
      u.InputIs u.srcL u.lenL (bytes [1])) := by decide +kernel

theorem witness_DmcompCompressesHreg :
    let s := machine .w64 0 [] (zeros 16) 1 0 16 0
    s.schedValid = true ∧ s.lenL = s.bb ∧ s.srcL + s.bb ≤ s.params.bufBytes ∧ s.InputIs s.srcL s.bb (zeros 16) := by
  decide +kernel

/-- An illegal word in flight; and a command to which two causes apply reports the first. -/
theorem witness_FirstErrorInOrderIsReported :
    (inFlight 8 (clean .hash)).CompletionIsNext ∧
      (∀ i rest, decode (inFlight 8 (clean .hash)).fetchBytes ≠ .ok (i, rest)) ∧
      (let s := machine .w16 0 [] [] 65536 0 5 0
       s.Applies .decblk .ioFailure ∧ s.Reports .decblk .invalidBlockLength) := by
  refine ⟨⟨rfl, rfl, .inl rfl⟩, fun i rest => ?_, .inl (by decide +kernel), .inl ⟨by decide, by decide +kernel⟩, ?_⟩
  · rw [show decode (inFlight 8 (clean .hash)).fetchBytes = .error (.undefinedOpcode 8) by decide +kernel]
    simp
  · intro e' h
    cases e' <;> simp [ErrorCode.priority] at h <;> simp [State.Applies, machine]

/-- The completion of an ENCBLK of the wrong length. -/
theorem witness_ErrorCompletionIsPrecise :
    let s := inFlight 2 (machine .w16 0 [] [] 0 0 5 0)
    s.CompletionIsNext ∧ ∃ t, step s = .next t ∧ t.status.errcode ≠ 0 := by
  have key : ∀ s : State, (match step s with | .next t => t.status.errcode | _ => 0) ≠ 0 →
      ∃ t, step s = .next t ∧ t.status.errcode ≠ 0 := by
    intro s h
    cases hs : step s with
    | next t => exact ⟨t, rfl, by simpa only [hs] using h⟩
    | fault f => simp [hs] at h
    | refused r => simp [hs] at h
  exact ⟨⟨rfl, rfl, .inl rfl⟩, key _ (by decide +kernel)⟩

theorem clean_is_clean (i : Instr) : (clean i).Clean i := by
  intro e h
  cases e <;> cases i <;> revert h <;>
    simp only [State.Applies, State.inputLen, State.outputLen, Option.some.injEq, exists_eq_left', reduceCtorEq,
      false_and, exists_false, true_and, or_false, false_or, and_false, not_false_eq_true, or_self,
      not_true_eq_false, ne_eq, or_true] <;> decide +kernel

theorem witness_CleanCommandSucceeds (i : Instr) :
    (clean i).Clean i ∧ ∀ k < (clean i).inputLen i, Memory.read (clean i).buf ((clean i).srcL + k) ≠ none :=
  ⟨clean_is_clean i, by cases i <;> decide +kernel⟩

/-- A KEYSETUP that sets SCHED_VALID, and a reset that clears it. -/
theorem witness_OnlyKeysetupOrResetChangesTheSchedule :
    (let s := { clean .keysetup with schedValid := false }
     ∃ t, step s = .next t ∧ (t.sched ≠ s.sched ∨ t.schedValid ≠ s.schedValid)) ∧
    (let s := { clean .hash with hostQueue := [.assertReset], latency := 1 }
     ∃ t, step s = .next t ∧ (t.sched ≠ s.sched ∨ t.schedValid ≠ s.schedValid)) := by
  have key : ∀ (s : State) (b : Bool), outValid (step s) = some b → b ≠ s.schedValid →
      ∃ t, step s = .next t ∧ (t.sched ≠ s.sched ∨ t.schedValid ≠ s.schedValid) := by
    intro s b h hb
    cases hs : step s with
    | next t =>
      rw [hs] at h
      exact ⟨t, rfl, .inr (by rw [Option.some.inj h]; exact hb)⟩
    | fault f => simp [hs, outValid] at h
    | refused r => simp [hs, outValid] at h
  exact ⟨key _ true (by decide +kernel) (by decide), key _ false (by decide +kernel) (by decide)⟩

theorem witness_KeyScheduleSizes : 255 ≤ 255 ∧ 0 ≤ 255 := by decide

/-- One key byte, and the three zeros that fill its word. -/
theorem witness_KeyPaddingChangesNothing :
    (bytes [1]) ≠ [] ∧
      3 ≤ (WordSize.w32.wordBytes - (bytes [1]).length % WordSize.w32.wordBytes) % WordSize.w32.wordBytes := by decide

theorem witness_DecryptionInvertsEncryption (sw : WordSize) : (zeros sw.blockBytes).length = sw.blockBytes := by
  cases sw <;> decide

/-- An empty input, a short block and a whole block. -/
theorem witness_CodecEncLengthIsWholeBlocks :
    0 = ((zeros 0).length + WordSize.w32.blockBytes - 1) / WordSize.w32.blockBytes * WordSize.w32.blockBytes ∧
    8 = ((zeros 1).length + WordSize.w32.blockBytes - 1) / WordSize.w32.blockBytes * WordSize.w32.blockBytes ∧
    8 = ((zeros 8).length + WordSize.w32.blockBytes - 1) / WordSize.w32.blockBytes * WordSize.w32.blockBytes := by decide

theorem witness_StripPacksTheStrippedBlocks :
    let s := clean .codecDecStrip
    ∃ block : Nat → List Byte, s.Clean .codecDecStrip ∧ s.InputIs s.srcL s.lenL (bytes [7, 0, 0, 0]) ∧
      ∀ k, block k = rstrip0 (dec s.sched.sw s.sched.rounds s.sched.words
        (slice (bytes [7, 0, 0, 0]) (k * s.bb) ((k + 1) * s.bb))) :=
  ⟨_, clean_is_clean .codecDecStrip, by decide +kernel, fun _ => rfl⟩

theorem witness_PaddedMessageIsWholeBlocks :
    (zeros 3).length < 2 ^ 32 ∧ ((zeros 3).length + 1 + 4 + 8) % WordSize.w64.blockBytes = 0 := by decide

/-- A digest of one byte and one of the whole block. -/
theorem witness_DigestTruncationIsAPrefix :
    let s := clean .hash
    s.Clean .hash ∧ s.latch.dsize = 0 ∧ (∃ t, exec .hash s = .next t) ∧ 0 < 1 ∧ 1 ≤ s.bb ∧ 0 < 4 ∧ 4 ≤ s.bb :=
  ⟨clean_is_clean .hash, rfl, exists_next (by decide +kernel), by decide, by decide, by decide, by decide⟩

theorem witness_HashIgnoresTheScheduleTable :
    (∃ t, exec .hash (clean .hash) = .next t) ∧ ∃ t, exec .dmcomp (clean .dmcomp) = .next t :=
  ⟨exists_next (by decide +kernel), exists_next (by decide +kernel)⟩

/-- The padded empty message at offset 0, and a HASH of it with the same word size and round count. -/
theorem witness_DmcompPerBlockIsHash :
    let s := machine .w16 0 [] (hashPad .w16 []) 0 0 4 0
    let u := machine .w16 0 [9] [] 0 0 0 0
    (s.schedValid = true ∧ s.params.legal ∧ s.hreg = { h0 := 0, h1 := 0, h2 := 0, h3 := 0 } ∧
      0 + (hashPad s.sched.sw []).length ≤ s.params.bufBytes ∧
      s.InputIs 0 (hashPad s.sched.sw []).length (hashPad s.sched.sw [])) ∧
    (u.params = s.params ∧ u.sched.sw = s.sched.sw ∧ u.sched.sr = s.sched.sr ∧ u.InputIs u.srcL u.lenL []) ∧
    u.Clean .hash ∧ ∃ v, exec .hash u = .next v := by
  refine ⟨by decide +kernel, by decide +kernel, ?_, exists_next (by decide +kernel)⟩
  intro e h
  cases e <;> revert h <;>
    simp only [State.Applies, State.inputLen, State.outputLen, Option.some.injEq, exists_eq_left', reduceCtorEq,
      false_and, not_false_eq_true, or_self, ne_eq, true_and] <;> decide +kernel

theorem witness_DecblkAfterEncblkRestoresTheBlock :
    let s := clean .encblk
    s.Clean .encblk ∧ s.InputIs s.srcL s.bb (bytes [7, 0, 0, 0]) ∧ (∃ t, exec .encblk s = .next t) ∧
      (65532 : Word).toNat + s.bb ≤ s.params.bufBytes :=
  ⟨clean_is_clean .encblk, by decide +kernel, exists_next (by decide +kernel), by decide⟩

/-- Every register but CMD, and the value with all bits set. -/
theorem witness_RegisterReadsBackAsWritten (r : Reg) (h : r ≠ .cmd) :
    let s := idleWrite r 0xFFFFFFFF [State.reset.rd r]
    r ≠ .cmd ∧ s.status.busy = false ∧ s.NextIs (s.wr r 0xFFFFFFFF) (s.rd r :: []) :=
  ⟨h, rfl, rfl, rfl, .inl rfl⟩

/-- Every register but CMD, the engine busy. -/
theorem witness_RegisterWriteChangesThatRegisterOnly (r : Reg) (h : r ≠ .cmd) :
    r ≠ .cmd ∧ (busyWrite r 0xFFFFFFFF).NextIs ((busyWrite r 0xFFFFFFFF).wr r 0xFFFFFFFF) [] := by
  refine ⟨h, rfl, rfl, .inr ⟨?_, ?_⟩⟩ <;> cases r <;> decide +kernel

/-- A write to each of H0 to H3 and to STATUS while a command is in flight. -/
theorem witness_BusyProtectsHregAndStatus (r : Reg) :
    (busyWrite r 0x10).status.busy = true ∧ (busyWrite r 0x10).statusOk ∧
      (busyWrite r 0x10).NextIs ((busyWrite r 0x10).wr r 0x10) [] := by
  refine ⟨rfl, ?_, rfl, rfl, .inr ⟨?_, ?_⟩⟩ <;> cases r <;> decide +kernel

theorem witness_BusyWritesDoNotReachTheCommand (i : Instr) :
    (clean i).status.busy = true ∧ (clean i).statusOk ∧ ∃ t, exec i (clean i) = .next t :=
  ⟨rfl, by cases i <;> decide +kernel, exists_next (by cases i <;> decide +kernel)⟩

/-- Any access as the next event; and legal and illegal ones at the edges of the map. -/
theorem witness_BusErrorExactlyOnIllegalAccess :
    (∀ a : HostAccess, (host [.access a]).NextIs (.access a) []) ∧
    State.reset.LegalAccess (.read .word 0x3C) ∧ ¬ State.reset.LegalAccess (.read .word 0x40) ∧
    ¬ State.reset.LegalAccess (.read .word 0x2C) ∧ State.reset.LegalAccess (.write .word 0x20 0) ∧
    State.reset.LegalAccess (.write .byte 0x1FFFF 0) ∧ ¬ State.reset.LegalAccess (.write .byte 0x20000 0) ∧
    ¬ State.reset.LegalAccess (.write .half 0x1FFFF 0) :=
  ⟨fun _ => ⟨rfl, rfl, .inl rfl⟩, by decide, by decide, by decide, by decide, by decide, by decide, by decide⟩

/-- The last byte, half word and word of BUF. -/
theorem witness_HostBufWriteStoresItsBytes (size : AccessSize) :
    let k := 65536 - size.bytes
    let s := host [.access (.write size (hostAddr Params.default (0x10000 + k)) 5)]
    s.status.busy = false ∧ s.params.legal ∧ k + size.bytes ≤ s.params.bufBytes ∧ k % size.bytes = 0 ∧
      s.NextIs (.access (.write size (hostAddr s.params (0x10000 + k)) 5)) [] := by
  refine ⟨rfl, ?_, ?_, ?_, rfl, rfl, .inl rfl⟩ <;> cases size <;> decide

/-- A word all written, and a word with its last byte unwritten. -/
theorem witness_HostBufReadReturnsItsBytes :
    let s := { host [.access (.read .word (hostAddr Params.default (0x10000 + 4)))] with
      buf := Memory.writeRange [] 4 (zeros 4) }
    let u := { s with buf := Memory.writeRange [] 4 (zeros 3) }
    (s.status.busy = false ∧ s.params.legal ∧ 4 + AccessSize.word.bytes ≤ s.params.bufBytes ∧
      4 % AccessSize.word.bytes = 0) ∧
    s.NextIs (.access (.read .word (hostAddr s.params (0x10000 + 4)))) [] ∧
    u.NextIs (.access (.read .word (hostAddr u.params (0x10000 + 4)))) [] ∧
    s.InputIs 4 AccessSize.word.bytes (zeros 4) ∧
    ∃ j < AccessSize.word.bytes, Memory.read u.buf (4 + j) = none :=
  ⟨by decide, ⟨rfl, rfl, .inl rfl⟩, ⟨rfl, rfl, .inl rfl⟩, by decide +kernel, 3, by decide, by decide +kernel⟩

/-- A write to the last BUF byte while a HASH is in flight. -/
theorem witness_BufAccessIsHeldUntilCompletion :
    let s := { clean .hash with hostQueue := [.access (.write .byte 0x1FFFF 0)], latency := 9 }
    s.rst = false ∧ s.status.busy = true ∧ s.hostQueue = .access (.write .byte 0x1FFFF 0) :: [] ∧
      s.targetOf (.write .byte 0x1FFFF 0) = some (.buf 65535) ∧ ∃ t, step s = .next t :=
  ⟨rfl, rfl, rfl, by decide +kernel, exists_next (by decide +kernel)⟩

theorem witness_PollReturnsAfterCompletion :
    (host [.poll]).rst = false ∧ (host [.poll]).hostQueue = .poll :: [] ∧ (host [.poll]).status.busy = false ∧
      { clean .hash with hostQueue := [.poll] }.status.busy = true := ⟨rfl, rfl, rfl, rfl⟩

/-- A reset while a command is in flight. -/
theorem witness_ResetLeavesTheResetValues :
    { clean .hash with hostQueue := [.assertReset], latency := 1 }.NextIs .assertReset [] :=
  ⟨rfl, rfl, .inr ⟨by decide, rfl⟩⟩

/-- An access, a poll and a release with `rst` asserted. -/
theorem witness_AccessDuringResetIsRefused :
    { host [.access (.read .word 0)] with rst := true }.rst = true ∧
      { host [.access (.read .word 0)] with rst := true }.hostQueue = .access (.read .word 0) :: [] ∧
      { host [.poll] with rst := true }.hostQueue = .poll :: [] ∧
      ∃ t, step { host [.releaseReset] with rst := true } = .next t := ⟨rfl, rfl, rfl, _, rfl⟩

/-- irq rises at a success completion, at an error completion, and at a write to IE. -/
theorem witness_IrqRisesOnlyAtCompletionOrEnable :
    let on : State → State := fun s => { s with ie := { doneIe := true, errIe := true } }
    let w := { idleWrite .ie 3 [] with status := { State.reset.status with done := true } }
    ((on (clean .hash)).statusOk ∧ (on (clean .hash)).irq = false ∧ ∃ t, step (on (clean .hash)) = .next t ∧ t.irq = true) ∧
    ((on (inFlight 8 (clean .hash))).statusOk ∧ (on (inFlight 8 (clean .hash))).irq = false ∧
      ∃ t, step (on (inFlight 8 (clean .hash))) = .next t ∧ t.irq = true) ∧
    (w.statusOk ∧ w.irq = false ∧ ∃ t, step w = .next t ∧ t.irq = true) := by
  have key : ∀ s : State, (match step s with | .next t => t.irq | _ => false) = true →
      ∃ t, step s = .next t ∧ t.irq = true := by
    intro s h
    cases hs : step s with
    | next t => exact ⟨t, rfl, by simpa only [hs] using h⟩
    | fault f => simp [hs] at h
    | refused r => simp [hs] at h
  exact ⟨⟨by decide, rfl, key _ (by decide +kernel)⟩, ⟨by decide, rfl, key _ (by decide +kernel)⟩,
    by decide, rfl, key _ (by decide +kernel)⟩

/-- A HASH in flight that completes at the next step. -/
theorem witness_StepKeepsTheInvariant : (clean .hash).Inv ∧ ∃ t, step (clean .hash) = .next t :=
  ⟨⟨by decide, by decide +kernel, by decide +kernel, by decide, by decide, by decide⟩, exists_next (by decide +kernel)⟩

theorem witness_NoPartialResultWhileBusy :
    (busyWrite .cfg 0).statusOk ∧ (busyWrite .cfg 0).status.busy = true ∧
      ∃ t, step (busyWrite .cfg 0) = .next t ∧ t.status.busy = true := by
  refine ⟨by decide, rfl, _, step_wr (q := []) ⟨rfl, rfl, .inr ⟨by decide, by decide +kernel⟩⟩, rfl⟩

/-- A command whose completion is next, one that a reset comes before, and one that a bus error comes before. -/
theorem witness_EveryCommandCompletes :
    let s := { clean .hash with hostQueue := [.assertReset], latency := 1 }
    let u := { clean .hash with hostQueue := [.access (.read .word 0x40)], latency := 1 }
    ((busyWrite .cmd 1).rst = false ∧ (busyWrite .cmd 1).status.busy = true) ∧
    ((clean .hash).rst = false ∧ (clean .hash).status.busy = true ∧ (clean .hash).CompletionIsNext) ∧
    (s.rst = false ∧ s.status.busy = true ∧ s.NextIs .assertReset []) ∧
    (u.rst = false ∧ u.status.busy = true ∧ u.NextIs (.access (.read .word 0x40)) [] ∧
      outFault (step u) = some .busError) :=
  ⟨⟨rfl, rfl⟩, ⟨rfl, rfl, rfl, rfl, .inl rfl⟩, ⟨rfl, rfl, rfl, rfl, .inr ⟨by decide, rfl⟩⟩,
    rfl, rfl, ⟨rfl, rfl, .inr ⟨by decide, by decide +kernel⟩⟩, by decide +kernel⟩

theorem witness_ParametersAndReadsAreKept : ∃ t, step (host [.access (.read .word 0)]) = .next t :=
  exists_next (by decide +kernel)

/-- An idle BCE with a schedule instance: a message that ends where BUF ends and the digest over it, and the empty message,
whose modified form has `byteIndex + 1` bytes. -/
theorem witness_CompareRunsThroughTwoHashCommands :
    let s := { machine .w16 0 [] [] 0 0 0 0 with status := State.reset.status }
    (s.rst = false ∧ s.status.busy = false ∧ s.hostQueue = [] ∧ s.schedValid = true ∧ s.params.legal) ∧
    (65532 + (bytes [1, 2, 3, 4]).length ≤ s.params.bufBytes ∧
      65532 + (diffusionModified (bytes [1, 2, 3, 4]) 9 9).length ≤ s.params.bufBytes ∧ 65532 + s.bb ≤ s.params.bufBytes) ∧
    (65536 + (bytes []).length ≤ s.params.bufBytes ∧ 0 + (diffusionModified (bytes []) 2 7).length ≤ s.params.bufBytes) ∧
    ∃ prog, prog = compareProgram 65532 65532 s.bb (bytes [1, 2, 3, 4]) 9 9 :=
  ⟨by decide, by decide +kernel, by decide +kernel, _, rfl⟩

/-- Every register, idle and with a command in flight; STATUS too. -/
theorem witness_RegisterReadHasNoEffect (r : Reg) :
    let s := host [State.reset.rd r]
    let u := { clean .hash with hostQueue := [State.reset.rd r], latency := 1 }
    s.NextIs (s.rd r) [] ∧ u.NextIs (u.rd r) [] ∧ u.status.busy = true ∧ u.statusOk := by
  refine ⟨⟨rfl, rfl, .inl rfl⟩, ⟨rfl, rfl, .inr ⟨?_, ?_⟩⟩, rfl, ?_⟩ <;> cases r <;> decide +kernel

/-- A success completion and an error completion. -/
theorem witness_IrqIsTheEnabledCompletion :
    ((clean .hash).statusOk ∧ (clean .hash).status.busy = true ∧ (clean .hash).CompletionIsNext ∧
      ∃ t, step (clean .hash) = .next t) ∧
    ((inFlight 8 (clean .hash)).statusOk ∧ (inFlight 8 (clean .hash)).CompletionIsNext ∧
      ∃ t, step (inFlight 8 (clean .hash)) = .next t) :=
  ⟨⟨by decide, rfl, ⟨rfl, rfl, .inl rfl⟩, exists_next (by decide +kernel)⟩,
    by decide, ⟨rfl, rfl, .inl rfl⟩, exists_next (by decide +kernel)⟩

/-- irq falls at a write to STATUS, to IE and to CMD, and at a reset. -/
theorem witness_IrqStaysUntilAcknowledged :
    let on : State → State := fun s =>
      { s with status := { State.reset.status with done := true }, ie := { doneIe := true, errIe := false } }
    ∀ s, s = on (idleWrite .status 2 []) ∨ s = on (idleWrite .ie 0 []) ∨ s = on (idleWrite .cmd 1 []) ∨
        s = on (host [.assertReset]) →
      s.statusOk ∧ s.irq = true ∧ ∃ t, step s = .next t ∧ t.irq = false := by
  have key : ∀ s : State, (match step s with | .next t => t.irq | _ => true) = false →
      ∃ t, step s = .next t ∧ t.irq = false := by
    intro s h
    cases hs : step s with
    | next t => exact ⟨t, rfl, by simpa only [hs] using h⟩
    | fault f => simp [hs] at h
    | refused r => simp [hs] at h
  rintro on s (rfl | rfl | rfl | rfl) <;> exact ⟨by decide, rfl, key _ (by decide +kernel)⟩

/-- A reset and its release while a command is in flight; and both edges with `rst` asserted. -/
theorem witness_ReleaseOfResetKeepsTheResetValues :
    { clean .hash with hostQueue := [.assertReset, .releaseReset], latency := 1 }.NextIs .assertReset [.releaseReset] ∧
      ({ host [.releaseReset] with rst := true }.rst = true ∧
        { host [.releaseReset] with rst := true }.hostQueue = .releaseReset :: []) ∧
      { host [.assertReset] with rst := true }.rst = true ∧
        { host [.assertReset] with rst := true }.hostQueue = .assertReset :: [] :=
  ⟨⟨rfl, rfl, .inr ⟨by decide, rfl⟩⟩, ⟨rfl, rfl⟩, rfl, rfl⟩

end Sys2Proof.Tests
end

section
/-! PROOFS. 00_scope R7, R16 and 20_memory R68: what a step does to the parameters, to the reads the host was answered and
to the host events still to come. Each operation keeps them up to one relation, `State.KeepsHostRecord`, which is
transitive; the step's cases are assembled from the operations. -/

namespace Sys2Proof.Machine

/-- From `s` to `t` the parameters stay, reads are only appended, and host events are only taken off the front. -/
structure State.KeepsHostRecord (s t : State) : Prop where
  params : t.params = s.params
  reads : s.hostReads <+: t.hostReads
  events : t.hostQueue <:+ s.hostQueue

theorem State.KeepsHostRecord.of_eq {s t : State} (hp : t.params = s.params) (hr : t.hostReads = s.hostReads)
    (hq : t.hostQueue = s.hostQueue) : s.KeepsHostRecord t :=
  ⟨hp, hr ▸ List.prefix_rfl, hq ▸ List.suffix_rfl⟩

theorem State.KeepsHostRecord.trans {s t u : State} (h : s.KeepsHostRecord t) (h' : t.KeepsHostRecord u) :
    s.KeepsHostRecord u :=
  ⟨h'.params.trans h.params, h.reads.trans h'.reads, h'.events.trans h.events⟩

/-- A host event leaves the queue when it is performed. -/
theorem State.keepsHostRecord_of_hostQueue_suffix {s : State} {q : List HostEvent} (h : q <:+ s.hostQueue)
    (rst : Bool) (latency : Nat) :
    s.KeepsHostRecord { s with rst := rst, hostQueue := q, latency := latency } :=
  ⟨rfl, List.prefix_rfl, h⟩

theorem State.returnRead_keepsHostRecord (s : State) (addr : Word) (x : List Byte) :
    s.KeepsHostRecord (s.returnRead addr x) :=
  ⟨rfl, List.prefix_append _ _, List.suffix_rfl⟩

theorem State.writeReg_keepsHostRecord (s : State) (r : Reg) (v : Word) : s.KeepsHostRecord (s.writeReg r v) := by
  obtain ⟨_, _, h⟩ | ⟨_, _, h⟩ | ⟨_, h⟩ | ⟨_, _, h⟩ | ⟨_, _, _, _, _, _, _, h⟩ := s.writeReg_cases r v
  all_goals
    rw [h]
    exact .of_eq rfl rfl rfl

theorem State.hostAccess_keepsHostRecord {s t : State} {a : HostAccess} (h : s.hostAccess a = .next t) :
    s.KeepsHostRecord t := by
  obtain ⟨_, h'⟩ | ⟨r, v, _, _, _, _, h'⟩ | ⟨_, _, addr, _, _, h'⟩ | ⟨_, _, _, _, _, _, h'⟩ |
    ⟨_, _, addr, x, _, _, _, h'⟩ | ⟨_, _, _, _, _, _, h'⟩ := s.hostAccess_cases a <;> rw [h'] at h <;> cases h
  · exact s.writeReg_keepsHostRecord r v
  · exact s.returnRead_keepsHostRecord addr _
  · exact .of_eq rfl rfl rfl
  · exact s.returnRead_keepsHostRecord addr x

theorem State.hostEvent_keepsHostRecord {s t : State} {e : HostEvent} (h : s.hostEvent e = .next t) :
    s.KeepsHostRecord t := by
  cases e with
  | access a => exact State.hostAccess_keepsHostRecord h
  | poll => exact State.hostAccess_keepsHostRecord h
  | assertReset =>
    cases h
    exact .of_eq rfl rfl rfl
  | releaseReset =>
    cases h
    exact .of_eq rfl rfl rfl

theorem exec_keepsHostRecord {i : Instr} {s t : State} (h : exec i s = .next t) : s.KeepsHostRecord t := by
  obtain ⟨e, rfl⟩ | ⟨_, _, _, _, _, rfl, _⟩ := exec_next h
  · exact .of_eq rfl rfl rfl
  · exact .of_eq rfl rfl rfl

theorem State.completeCommand_keepsHostRecord {s t : State} (h : s.completeCommand = .next t) :
    s.KeepsHostRecord t := by
  obtain ⟨i, _, _, h⟩ | ⟨_, rfl⟩ := State.completeCommand_next h
  · exact exec_keepsHostRecord h
  · exact .of_eq rfl rfl rfl

theorem State.resetStep_keepsHostRecord {s t : State} (h : s.resetStep = .next t) : s.KeepsHostRecord t := by
  unfold State.resetStep at h
  split at h <;> cases h
  · exact .of_eq rfl rfl rfl
  · next hq => exact State.keepsHostRecord_of_hostQueue_suffix (hq ▸ List.suffix_cons _ _) _ _
  · next hq => exact State.keepsHostRecord_of_hostQueue_suffix (hq ▸ List.suffix_cons _ _) _ _

theorem step_keepsHostRecord {s t : State} (h : step s = .next t) : s.KeepsHostRecord t := by
  obtain ⟨_, h⟩ | ⟨_, _, h⟩ | ⟨_, _, _, rfl⟩ | ⟨_, _, e, q, hq, h⟩ := step_next h
  · exact State.resetStep_keepsHostRecord h
  · exact State.completeCommand_keepsHostRecord h
  · exact .of_eq rfl rfl rfl
  · have taken : s.KeepsHostRecord { s with hostQueue := q, latency := s.latency - 1 } :=
      State.keepsHostRecord_of_hostQueue_suffix (hq ▸ List.suffix_cons _ _) _ _
    exact taken.trans (State.hostEvent_keepsHostRecord h)

/-- Settles O52: the three parts of `State.KeepsHostRecord`, which every step keeps. -/
theorem parametersAndReadsAreKept : Obligations.ParametersAndReadsAreKept := by
  unfold Obligations.ParametersAndReadsAreKept
  intro s t h
  obtain ⟨hparams, hreads, hevents⟩ := step_keepsHostRecord h
  exact ⟨hparams, hreads, hevents⟩

end Sys2Proof.Machine
end

section
/-! PROOFS. 10_state R21 to R33: what a register reads after a host write to it, and which registers and which other
state the write leaves alone. -/

namespace Sys2Proof.Machine

/-! ### The words of CFG, IE and STATUS after a write -/

/-- CFG keeps WSEL and ROUNDS of the written word (10_state R22). -/
@[simp] theorem Cfg.word_ofWord (v : Word) : (Cfg.ofWord v).word = v &&& 0x0000FF03 := by
  refine BitVec.eq_of_getLsbD_eq fun i hi => ?_
  simp only [Cfg.word, Cfg.ofWord, BitVec.getLsbD_append, BitVec.getLsbD_and]
  interval_cases i <;> simp

/-- IE keeps its two enables of the written word (10_state R30). -/
@[simp] theorem IntEnable.word_ofWord (v : Word) : (IntEnable.ofWord v).word = v &&& 0x00000003 := by
  refine BitVec.eq_of_getLsbD_eq fun i hi => ?_
  simp only [IntEnable.word, IntEnable.ofWord, BitVec.getLsbD_append, BitVec.getLsbD_and]
  interval_cases i <;> simp

/-- The mask form of write-one-to-clear: bits 1, 2 and 4 of STATUS (10_state R24). -/
theorem State.statusWord_writeOneToClear (s : State) (v : Word) :
    State.statusWord { s with status := s.status.writeOneToClear v } = s.statusWord &&& ~~~(v &&& 0x00000016) := by
  refine BitVec.eq_of_getLsbD_eq fun i hi => ?_
  simp only [State.statusWord, BitVec.getLsbD_append, BitVec.getLsbD_and, BitVec.getLsbD_not]
  interval_cases i <;> simp [State.swsel, State.srounds, Status.writeOneToClear]

/-! ### A register read after a register write -/

/-- What register `r` reads after a host write of `v` to it, in any phase. -/
def State.writtenValue (s : State) (v : Word) : Reg → Word
  | .cfg => v &&& 0x0000FF03
  | .cmd => 0
  | .status => s.statusWord &&& ~~~(v &&& 0x00000016)
  | .src => v
  | .dst => v
  | .len => v
  | .dsize => v
  | .outlen => s.outlen
  | .ie => v &&& 0x00000003
  | .h0 => if s.status.busy then s.hreg.h0 else v
  | .h1 => if s.status.busy then s.hreg.h1 else v
  | .h2 => if s.status.busy then s.hreg.h2 else v
  | .h3 => if s.status.busy then s.hreg.h3 else v

/-- H0 to H3 are written while BUSY = 0 only. -/
theorem State.hreg_writeHreg (s : State) (h : Hreg) :
    (s.writeHreg h).hreg = if s.status.busy then s.hreg else h := by
  unfold State.writeHreg
  split <;> rfl

theorem State.readReg_writeReg_same (s : State) (r : Reg) (v : Word) :
    (s.writeReg r v).readReg r = s.writtenValue v r := by
  cases r with
  | cfg => exact Cfg.word_ofWord v
  | ie => exact IntEnable.word_ofWord v
  | status => exact s.statusWord_writeOneToClear v
  | h0 | h1 | h2 | h3 =>
    simp only [State.writeReg, State.readReg, State.hreg_writeHreg, State.writtenValue]
    split <;> rfl
  | _ => rfl

theorem State.readReg_writeReg_other (s : State) {r r' : Reg} (v : Word) (hr : r ≠ .cmd) (hne : r' ≠ r) :
    (s.writeReg r v).readReg r' = s.readReg r' := by
  cases r with
  | cmd => exact absurd rfl hr
  | h0 | h1 | h2 | h3 =>
    simp only [State.writeReg, State.writeHreg]
    split
    · rfl
    · cases r' <;> trivial
  | _ => cases r' <;> trivial

/-- A register write raises no STATUS bit (70 R302). -/
theorem State.statusWord_writeReg_falls (s : State) {r : Reg} (v : Word) (hr : r ≠ .cmd) :
    (s.writeReg r v).statusWord &&& ~~~s.statusWord = 0 := by
  by_cases hs : r = .status
  · subst hs
    have h : (s.writeReg .status v).statusWord = s.statusWord &&& ~~~(v &&& 0x00000016) :=
      s.statusWord_writeOneToClear v
    rw [h, BitVec.and_assoc, BitVec.and_comm (~~~(v &&& _)), ← BitVec.and_assoc, BitVec.and_not_self]
    exact BitVec.zero_and
  · have h : (s.writeReg r v).statusWord = s.statusWord := s.readReg_writeReg_other v hr (Ne.symm hs)
    rw [h, BitVec.and_not_self]

/-! ### What a register write leaves alone -/

/-- From `s` to `t` the engine phase, BUF, the schedule, the latches, the reset level, the parameters and the host's events
and reads stay: no host write to a register other than CMD reaches them (10_state R33, 70 R301). -/
structure State.SameOutsideRegisters (s t : State) : Prop where
  busy : t.status.busy = s.status.busy
  buf : t.buf = s.buf
  sched : t.sched = s.sched
  schedValid : t.schedValid = s.schedValid
  latch : t.latch = s.latch
  rst : t.rst = s.rst
  params : t.params = s.params
  hostQueue : t.hostQueue = s.hostQueue
  hostReads : t.hostReads = s.hostReads

theorem State.writeReg_sameOutsideRegisters (s : State) {r : Reg} (v : Word) (hr : r ≠ .cmd) :
    s.SameOutsideRegisters (s.writeReg r v) := by
  obtain ⟨hc, _⟩ | ⟨hc, _⟩ | ⟨_, h⟩ | ⟨_, _, h⟩ | ⟨_, _, _, _, _, _, _, h⟩ := s.writeReg_cases r v
  · exact absurd hc hr
  · exact absurd hc hr
  all_goals
    rw [h]
    exact ⟨rfl, rfl, rfl, rfl, rfl, rfl, rfl, rfl, rfl⟩

/-- Settles O35: the write is one step, and the rules above say what it does to the state. -/
theorem registerWriteChangesThatRegisterOnly : Obligations.RegisterWriteChangesThatRegisterOnly := by
  unfold Obligations.RegisterWriteChangesThatRegisterOnly
  intro s r v q hr hnext
  obtain ⟨-, hbuf, hsched, hvalid, hlatch, -, -, -, hreads⟩ :=
    (s.afterEvent q).writeReg_sameOutsideRegisters v hr
  refine ⟨_, step_wr hnext, ?_, ?_, (s.afterEvent q).statusWord_writeReg_falls v hr,
    hbuf, hsched, hvalid, hlatch, hreads⟩
  · intro r' hne
    rw [(s.afterEvent q).readReg_writeReg_other v hr hne]
    cases r' <;> rfl
  · rw [State.readReg_writeReg_same]
    cases r <;> rfl

/-- Settles O34: a write step and a read step; the read returns the register's value after the write. -/
theorem registerReadsBackAsWritten : Obligations.RegisterReadsBackAsWritten := by
  unfold Obligations.RegisterReadsBackAsWritten
  intro s r v q hr hidle hnext
  have hwrite := step_wr hnext
  obtain ⟨hreleased, -, -⟩ := hnext
  obtain ⟨hbusy, -, -, -, -, hrst, hparams, hqueue, hreads⟩ :=
    (s.afterEvent (s.rd r :: q)).writeReg_sameOutsideRegisters v hr
  have hvalue := (s.afterEvent (s.rd r :: q)).readReg_writeReg_same r v
  generalize (s.afterEvent (s.rd r :: q)).writeReg r v = t at *
  have hread : t.NextIs (t.rd r) q :=
    ⟨hrst.trans hreleased, by rw [hqueue, State.rd, State.rd, hparams], .inl (hbusy.trans hidle)⟩
  refine ⟨_, s.writtenValue v r, by rw [run_succ 1 hwrite, run_succ 0 (step_rd hread)]; rfl, ?_, ?_⟩
  · rw [State.returnRead_hostReads, hvalue]
    simp only [hreads, hparams]
    cases r <;> rfl
  · cases r <;> simp [State.writtenValue, hidle]

end Sys2Proof.Machine
end

section
/-! PROOFS. 10_state R24 and R31: where the fields stand in STATUS, and the bytes of Hreg in H0 to H3. -/

namespace Sys2Proof

/-- Byte k of a little-endian byte string of a number. -/
theorem leBytes_getElem? (v : Nat) {n k : Nat} (h : k < n) :
    (leBytes v n)[k]? = some (BitVec.ofNat 8 (v / 256 ^ k)) := by
  induction n generalizing v k with
  | zero => omega
  | succ n ih =>
    cases k with
    | zero => simp [leBytes]
    | succ k =>
      rw [leBytes, List.getElem?_cons_succ, ih _ (by omega), Nat.div_div_eq_div_mul, Nat.pow_succ']

/-- Byte k of the little-endian bytes of a register is its bits 8k to 8k + 7. -/
theorem leBytes_word_getElem? (v : Word) {k : Nat} (h : k < 4) :
    (leBytes v.toNat 4)[k]? = some (v.extractLsb' (8 * k) 8) := by
  rw [leBytes_getElem? _ h, Option.some.injEq]
  apply BitVec.eq_of_toNat_eq
  rw [BitVec.toNat_ofNat, BitVec.extractLsb'_toNat, Nat.shiftRight_eq_div_pow, Nat.pow_mul]

/-- The little-endian bytes of a register, from bit 0 up. -/
theorem leBytes_word (v : Word) : leBytes v.toNat 4 = (List.range 4).map fun k => v.extractLsb' (8 * k) 8 := by
  refine List.ext_getElem? fun k => ?_
  rcases Nat.lt_or_ge k 4 with hk | hk
  · rw [leBytes_word_getElem? v hk]
    simp [hk]
  · simp [hk]

namespace Machine

/-- Byte k of Hreg is byte `k mod 4` of register `H(k div 4)` (10_state R31). -/
theorem State.hreg_bytes_getElem? (s : State) {k : Nat} (hk : k < 16) :
    s.hreg.bytes[k]? =
      some ((s.readReg (if k < 4 then .h0 else if k < 8 then .h1 else if k < 12 then .h2 else .h3)).extractLsb'
        (8 * (k % 4)) 8) := by
  simp only [Hreg.bytes, leBytes_word]
  interval_cases k <;> rfl

/-- The one-bit fields of STATUS (10_state R24). -/
theorem State.statusWord_flags (s : State) :
    s.statusWord.getLsbD 0 = s.status.busy ∧ s.statusWord.getLsbD 1 = s.status.done ∧
    s.statusWord.getLsbD 2 = s.status.err ∧ s.statusWord.getLsbD 3 = s.schedValid ∧
    s.statusWord.getLsbD 4 = s.status.ovr := by
  simp only [State.statusWord, BitVec.getLsbD_append]
  simp

/-- The wide fields of STATUS and its reserved bits (10_state R24): each lies past the fields to its right. -/
theorem State.statusWord_fields (s : State) :
    s.statusWord.extractLsb' 5 3 = 0 ∧ s.statusWord.extractLsb' 8 4 = s.status.errcode ∧
    s.statusWord.extractLsb' 12 2 = s.swsel ∧ s.statusWord.extractLsb' 14 2 = 0 ∧
    s.statusWord.extractLsb' 16 8 = s.srounds ∧ s.statusWord.extractLsb' 24 8 = 0 := by
  unfold State.statusWord
  simp (disch := decide) only [BitVec.extractLsb'_append_eq_of_le, Nat.reduceSub,
    BitVec.extractLsb'_append_eq_right, BitVec.extractLsb'_eq_self]
  trivial

/-- Settles O43: the flags, the wide fields and the bytes of Hreg. -/
theorem registerFieldsAtTheirBits : Obligations.RegisterFieldsAtTheirBits := by
  unfold Obligations.RegisterFieldsAtTheirBits
  intro s
  obtain ⟨hbusy, hdone, herr, hvalid, hovr⟩ := s.statusWord_flags
  obtain ⟨hres5, hcode, hswsel, hres14, hrounds, hres24⟩ := s.statusWord_fields
  exact ⟨hbusy, hdone, herr, hvalid, hovr, hres5, hcode, hswsel, hres14, hrounds, hres24,
    fun _ => s.hreg_bytes_getElem?⟩

end Machine

end Sys2Proof
end

section
/-! PROOFS. 10_state R52 and 70 R290 to R292: the values of the reset state, and that a reset leaves them. -/

namespace Sys2Proof.Machine

/-- CFG reads 0x0000_0C01 after reset and every other register 0 (10_state R52). -/
theorem State.readReg_reset (r : Reg) : State.reset.readReg r = if r = .cfg then 0x00000C01 else 0 := by
  cases r <;> decide

/-- Registers show nothing of what a reset keeps: the parameters, the host's events and reads. -/
theorem State.readReg_resetAsserted (s : State) (r : Reg) : s.resetAsserted.readReg r = State.reset.readReg r := by
  cases r <;> rfl

/-- A reset that is the next event is one step. -/
theorem step_assertReset {s : State} {q : List HostEvent} (h : s.NextIs .assertReset q) :
    step s = .next (s.afterEvent q).resetAsserted := by
  obtain ⟨hrst, hqueue, hnot⟩ := (s.nextIs_iff _ _).1 h
  rw [step_of_event hrst hnot hqueue]
  rfl

/-- Settles O44: the reset is one step, and after it every register reads as in the reset state. -/
theorem resetLeavesTheResetValues : Obligations.ResetLeavesTheResetValues := by
  unfold Obligations.ResetLeavesTheResetValues
  intro s q hnext
  refine ⟨_, step_assertReset hnext, rfl, rfl, rfl, rfl, rfl, Memory.read_nil, rfl, fun r => ?_⟩
  rw [State.readReg_resetAsserted, State.readReg_reset]

/-- Settles O45: the registers of `State.reset`, and its other fields by definition. -/
theorem resetStateHasTheSpecifiedValues : Obligations.ResetStateHasTheSpecifiedValues := by
  unfold Obligations.ResetStateHasTheSpecifiedValues
  exact ⟨State.readReg_reset, rfl, Memory.read_nil, rfl⟩

/-- Settles O49: each part of the invariant is a fact about the one reset state. -/
theorem resetStateHasTheInvariant : Obligations.ResetStateHasTheInvariant := by
  unfold Obligations.ResetStateHasTheInvariant
  exact {
    params_legal := by decide
    buf_ok := by decide
    sched_ok := rfl
    status_ok := by decide
    outlen_le := by decide
    reset_ok := by decide }

end Sys2Proof.Machine
end

section
/-! PROOFS. 10_state R47, 20_memory R73 and 60 R250: the bytes of a command word decode as the word does, and a step
that is a completion runs the decoded command. -/

namespace Sys2Proof

/-- The bytes of a command word in address order are the word cut at its byte boundaries. -/
theorem wordBytesOf_eq (c : Word) :
    wordBytesOf c = [c.extractLsb' 0 8, c.extractLsb' 8 8, c.extractLsb' 16 8, c.extractLsb' 24 8] :=
  leBytes_word c

/-- A word is its bytes put together, the highest first. -/
theorem append_bytes_of_word (c : Word) :
    c.extractLsb' 24 8 ++ c.extractLsb' 16 8 ++ c.extractLsb' 8 8 ++ c.extractLsb' 0 8 = c := by
  rw [BitVec.extractLsb'_append_extractLsb'_eq_extractLsb' (show 24 = 16 + 8 from rfl),
    BitVec.extractLsb'_append_extractLsb'_eq_extractLsb' (show 16 = 8 + 8 from rfl),
    BitVec.extractLsb'_append_extractLsb'_eq_extractLsb' (show 8 = 0 + 8 from rfl)]
  exact BitVec.extractLsb'_eq_self

/-- The decoder on the bytes of a word (30_encoding R91): it answers what the word stands for and leaves the rest. -/
theorem decode_wordBytesOf_append (c : Word) (rest : List Byte) :
    decode (wordBytesOf c ++ rest) = (decodeWord c).map (·, rest) := by
  simp only [wordBytesOf_eq, List.cons_append, List.nil_append, decode, append_bytes_of_word]
  cases decodeWord c <;> rfl

namespace Machine

theorem State.completeCommand_of_decode {s : State} {i : Instr} {rest : List Byte}
    (h : decode s.fetchBytes = .ok (i, rest)) : s.completeCommand = exec i s := by
  simp only [State.completeCommand, h]

theorem step_of_completionIsNext {s : State} (h : s.CompletionIsNext) : step s = s.completeCommand := by
  obtain ⟨hrst, hcompletes⟩ := s.completionIsNext_iff.1 h
  exact step_of_completesNext hrst hcompletes

theorem step_eq_exec {s : State} {i : Instr} {rest : List Byte} (hnext : s.CompletionIsNext)
    (hdecode : decode s.fetchBytes = .ok (i, rest)) : step s = exec i s := by
  rw [step_of_completionIsNext hnext, State.completeCommand_of_decode hdecode]

theorem State.withFetchWord_toNat (s : State) (c : Word) : s.withFetchWord 32 c.toNat = s.fetching c := by
  rw [State.withFetchWord, Nat.mod_eq_of_lt c.isLt, BitVec.ofNat_toNat, BitVec.setWidth_eq]

/-- The completion of a word just placed in the latches is the next event (log entry 10). -/
theorem State.fetching_completionIsNext (s : State) (c : Word) : (s.fetching c).CompletionIsNext :=
  ⟨rfl, rfl, .inr (.inl rfl)⟩

/-- Settles O4: a placed word is a command in flight whose completion is next, and its bytes decode to `i`. -/
theorem stepRunsTheDecodedCommand : Obligations.StepRunsTheDecodedCommand := by
  unfold Obligations.StepRunsTheDecodedCommand
  refine ⟨fun _ _ _ => step_eq_exec, fun s i c hc => ?_⟩
  have hdecode : decode (s.fetching c).fetchBytes = .ok (i, []) := by
    rw [State.fetchBytes_fetching, ← List.append_nil (wordBytesOf c), decode_wordBytesOf_append, hc]
    rfl
  rw [State.withFetchWord_toNat]
  exact step_eq_exec (s.fetching_completionIsNext c) hdecode

end Machine

end Sys2Proof
end

section
/-! PROOFS. 10_state R40 and R42: the 64-bit storage of the schedule keeps its words. -/

namespace Sys2Proof.Machine

/-- A word of at most 64 bits comes back from its 64-bit entry. -/
theorem setWidth_bits_setWidth_64 (sw : WordSize) (x : BitVec sw.bits) : (x.setWidth 64).setWidth sw.bits = x := by
  rw [BitVec.setWidth_setWidth_of_le x sw.bits_le, BitVec.setWidth_eq]

@[simp] theorem Schedule.words_ofWords (sw : WordSize) (rounds : BitVec 8) (words : List (BitVec sw.bits)) :
    (Schedule.ofWords sw rounds words).words = words := by
  change (words.map (·.setWidth 64)).map (·.setWidth sw.bits) = words
  rw [List.map_map]
  exact List.map_id'' (setWidth_bits_setWidth_64 sw) words

/-- Settles O9: the words read back, and the table has one entry a word. -/
theorem latchedScheduleReadsBack : Obligations.LatchedScheduleReadsBack := by
  unfold Obligations.LatchedScheduleReadsBack
  exact fun sw rounds words => ⟨Schedule.words_ofWords sw rounds words, rfl, List.length_map _⟩

end Sys2Proof.Machine
end

section
/-! PROOFS. 60 R251 to R263 and 20_memory R62: the entries of each command's check list are the causes that apply to it,
so a command runs its compute phase exactly when it is clean, and faults then exactly on an unwritten input byte. -/

namespace Sys2Proof.Machine

/-! ### The check lists in terms of the error causes -/

/-- A command's check list holds an error as applying exactly when its cause applies (60 R252 to R257). -/
theorem State.mem_checks_iff (s : State) (i : Instr) (e : ErrorCode) : (true, e) ∈ s.checks i ↔ s.Applies i e := by
  cases i with
  | keysetup =>
    cases e <;> simp [State.checks, State.keysetupChecks, State.Applies, State.inputLen, State.outputLen]
  | encblk | decblk =>
    cases e <;> simp [State.checks, State.blockChecks, State.Applies, State.inputLen, State.outputLen]
  | codecEnc =>
    cases e <;> simp [State.checks, State.codecEncChecks, State.Applies, State.inputLen, State.outputLen]
  | codecDec | codecDecStrip =>
    cases e <;> simp [State.checks, State.codecDecChecks, State.Applies, State.inputLen, State.outputLen]
  | hash =>
    cases e <;> simp [State.checks, State.hashChecks, State.Applies, State.inputLen, State.outputLen]
  | dmcomp =>
    cases e <;> simp [State.checks, State.dmcompChecks, State.Applies, State.inputLen, State.outputLen]

/-- The checks of a command pass exactly when no error cause applies. -/
theorem State.firstError_checks_eq_none_iff (s : State) (i : Instr) :
    firstError (s.checks i) = none ↔ s.Clean i := by
  rw [firstError_eq_none_iff]
  constructor
  · intro h e he
    exact Bool.noConfusion (h _ ((s.mem_checks_iff i e).2 he))
  · rintro h ⟨b, e⟩ hmem
    cases b with
    | false => rfl
    | true => exact absurd ((s.mem_checks_iff i e).1 hmem) (h e)

/-! ### Faults -/

/-- A range read has no value exactly when a byte of the range is unwritten (20_memory R62). -/
theorem Memory.readRange_eq_none_iff (m : Memory) (off n : Nat) :
    m.readRange off n = none ↔ ∃ k < n, m.read (off + k) = none := by
  constructor
  · intro h
    by_contra hall
    push Not at hall
    have hread : m.readRange off n = some ((List.range n).map fun k => (m.read (off + k)).getD 0) := by
      refine (m.readRange_eq_some_iff off n _).2 ⟨by simp, fun k hk => ?_⟩
      obtain ⟨b, hb⟩ := Option.ne_none_iff_exists'.1 (hall k hk)
      simp [hk, hb]
    rw [h] at hread
    cases hread
  · rintro ⟨k, hk, hnone⟩
    cases hx : m.readRange off n with
    | none => rfl
    | some x =>
      obtain ⟨hlen, hbytes⟩ := (m.readRange_eq_some_iff off n x).1 hx
      have hkx : x[k]? = none := (hbytes k hk).symm.trans hnone
      rw [List.getElem?_eq_none_iff] at hkx
      omega

/-- A command's run faults exactly when its checks pass and its input range has an unwritten byte, and then with
UnwrittenRead. -/
theorem State.runCommand_eq_fault_iff (s : State) (checks : List (Bool × ErrorCode)) (off n : Nat)
    (commit : List Byte → State) (f : Fault) :
    s.runCommand checks off n commit = .fault f ↔
      f = .unwrittenRead ∧ firstError checks = none ∧ s.buf.readRange off n = none := by
  obtain ⟨e, he, h⟩ | ⟨hc, hx, h⟩ | ⟨x, hc, hx, h⟩ := s.runCommand_cases checks off n commit
  · simp [h, he]
  · simp [h, hc, hx, eq_comm]
  · simp [h, hx]

theorem State.runCommand_ne_refused (s : State) (checks : List (Bool × ErrorCode)) (off n : Nat)
    (commit : List Byte → State) (r : Refusal) : s.runCommand checks off n commit ≠ .refused r := by
  obtain ⟨_, _, h⟩ | ⟨_, _, h⟩ | ⟨_, _, _, h⟩ := s.runCommand_cases checks off n commit <;> simp [h]

/-- Settles O19: every command is a run of its check list on its input range. -/
theorem commandFaultsOnUnwrittenInputOnly : Obligations.CommandFaultsOnUnwrittenInputOnly := by
  unfold Obligations.CommandFaultsOnUnwrittenInputOnly
  intro i s
  obtain ⟨commit, hexec, -⟩ := exec_eq_runCommand i s
  refine ⟨fun f => ?_, fun r => hexec ▸ s.runCommand_ne_refused _ _ _ _ r⟩
  rw [hexec, State.runCommand_eq_fault_iff, State.firstError_checks_eq_none_iff, Memory.readRange_eq_none_iff]

end Sys2Proof.Machine
end

section
/-! PROOFS. 20_memory R61, R71, 10_state R24, R40, 60 R255 and 70 R290: every step keeps the invariant of the reachable
states. The completions keep it when a command in flight commits inside BUF; a host access keeps it while `rst` is
released; a reset establishes it. -/

namespace Sys2Proof

/-! ### Lengths of the codec's output -/

/-- CODEC_ENC's output is whole blocks (42 R180). -/
theorem codecEnc_length (sw : WordSize) (rounds : Nat) (S : List (BitVec sw.bits)) (data : List Byte) :
    (codecEnc sw rounds S data).length = ceilDiv data.length sw.blockBytes * sw.blockBytes := by
  simp [codecEnc, List.length_flatMap]

/-- CODEC_DEC's output is no longer than its input, with or without strip mode (42 R182, R183). -/
theorem codecDec_length_le (sw : WordSize) (rounds : Nat) (S : List (BitVec sw.bits)) (data : List Byte)
    (strip : Bool) : (codecDec sw rounds S data strip).length ≤ data.length := by
  rw [codecDec, List.length_flatMap]
  refine (List.sum_le_card_nsmul _ sw.blockBytes fun n hn => ?_).trans ?_
  · obtain ⟨k, -, rfl⟩ := List.mem_map.1 hn
    cases strip with
    | false => simp
    | true => simpa using rstrip0_length_le (dec sw rounds S _)
  · simpa using Nat.div_mul_le_self data.length sw.blockBytes

namespace Machine

/-! ### BUF -/

/-- Bytes stored inside BUF keep it canonical and inside its bounds (20_memory R61). -/
theorem State.bufOk.writeRange {s : State} (h : s.bufOk) {off : Nat} {out : List Byte}
    (hfit : off + out.length ≤ s.params.bufBytes) : State.bufOk { s with buf := s.buf.writeRange off out } := by
  obtain ⟨hwf, hbound⟩ := h
  refine ⟨Memory.writeRange_wf hwf off out, fun c hc => ?_⟩
  rcases Memory.mem_writeRange hc with ⟨-, hlt⟩ | hc
  · exact Nat.lt_of_lt_of_le hlt hfit
  · exact hbound c hc

/-! ### Completions -/

/-- While a command is in flight `rst` is released (70 R290). -/
theorem State.Inv.released_of_busy {s : State} (h : s.Inv) (hb : s.status.busy = true) : s.rst = false := by
  cases hr : s.rst with
  | false => rfl
  | true => exact absurd hb (by simp [(h.reset_ok hr).1])

/-- With `rst` released the invariant is that of the other fields it speaks of. -/
theorem State.Inv.of_released {s t : State} (h : s.Inv) (hr : s.rst = false) (hrst : t.rst = s.rst)
    (hparams : t.params = s.params) (hbuf : t.bufOk) (hsched : t.schedOk) (hstatus : t.statusOk)
    (houtlen : t.outlen.toNat ≤ s.params.bufBytes) : t.Inv where
  params_legal := hparams ▸ h.params_legal
  buf_ok := hbuf
  sched_ok := hsched
  status_ok := hstatus
  outlen_le := hparams ▸ houtlen
  reset_ok := fun ht => absurd ht (by simp [hrst, hr])

/-- An error completion of a command in flight (60 R270). -/
theorem State.Inv.errorCompletion {s : State} (h : s.Inv) (hb : s.status.busy = true) (e : ErrorCode) :
    (s.errorCompletion e).Inv := by
  obtain ⟨-, hbusy, -, -, -⟩ := h.status_ok
  obtain ⟨hdone, -⟩ := hbusy hb
  have hstatus : (s.errorCompletion e).statusOk :=
    ⟨by simp [hdone], by simp, by simp [hdone], fun _ => e.code_ne_zero, e.code_le_seven⟩
  exact h.of_released (h.released_of_busy hb) rfl rfl h.buf_ok h.sched_ok hstatus (Nat.zero_le _)

/-- A success completion of a command in flight whose pending writes keep BUF and the schedule in order (60 R271). -/
theorem State.Inv.successCompletion {s : State} (h : s.Inv) (hb : s.status.busy = true) {buf : Memory} {hreg : Hreg}
    {sched : Schedule} {valid : Bool} {n : Nat} (hbuf : State.bufOk { s with buf := buf })
    (hsched : sched.table.length = roundKeys sched.rounds) (hn : n ≤ s.params.bufBytes) :
    (State.successCompletion { s with buf := buf, hreg := hreg, sched := sched, schedValid := valid } n).Inv := by
  obtain ⟨-, hbusy, -, -, -⟩ := h.status_ok
  obtain ⟨-, herr⟩ := hbusy hb
  refine h.of_released (h.released_of_busy hb) rfl rfl hbuf hsched (by simp [State.statusOk, herr]) ?_
  exact (Nat.mod_le n (2 ^ 32)).trans hn

/-- The commit of an output that fits at DST_L. -/
theorem State.Inv.commitOutput {s : State} (h : s.Inv) (hb : s.status.busy = true) {out : List Byte}
    (hfit : s.dstL + out.length ≤ s.params.bufBytes) : (s.commitOutput out).Inv :=
  h.successCompletion hb (h.buf_ok.writeRange hfit) h.sched_ok ((Nat.le_add_left _ _).trans hfit)

/-- A command whose checks pass has its output range inside BUF (60 R262). -/
theorem State.output_fits {s : State} {i : Instr} {m : Nat} (hc : firstError (s.checks i) = none)
    (hm : s.outputLen i = some m) : s.dstL + m ≤ s.params.bufBytes :=
  Nat.le_of_not_lt fun hlt => (s.firstError_checks_eq_none_iff i).1 hc .ioFailure (.inr ⟨m, hm, hlt⟩)

/-- A command in flight keeps the invariant when every commit of an input that passes its checks does. -/
theorem State.Inv.runCommand {s t : State} (h : s.Inv) (hb : s.status.busy = true)
    {checks : List (Bool × ErrorCode)} {off n : Nat} {commit : List Byte → State}
    (ht : s.runCommand checks off n commit = .next t)
    (hcommit : ∀ x, firstError checks = none → x.length = n → (commit x).Inv) : t.Inv := by
  obtain ⟨e, _, rfl⟩ | ⟨x, hc, hx, rfl⟩ := State.runCommand_next ht
  · exact h.errorCompletion hb e
  · exact hcommit x hc (Memory.readRange_length hx)

/-- A command that stores its output at DST_L keeps the invariant when the output is within the length it checks. -/
theorem State.Inv.runOutput {s t : State} (h : s.Inv) (hb : s.status.busy = true) {i : Instr} {n m : Nat}
    {out : List Byte → List Byte}
    (ht : s.runCommand (s.checks i) s.srcL n (fun x => s.commitOutput (out x)) = .next t)
    (hm : s.outputLen i = some m) (hout : ∀ x, x.length = n → (out x).length ≤ m) : t.Inv :=
  h.runCommand hb ht fun x hc hx =>
    h.commitOutput hb ((Nat.add_le_add_left (hout x hx) _).trans (State.output_fits hc hm))

theorem State.Inv.exec {s t : State} (h : s.Inv) (hb : s.status.busy = true) {i : Instr}
    (ht : exec i s = .next t) : t.Inv := by
  cases i with
  | keysetup =>
    cases hw : WordSize.ofWsel s.latch.wsel with
    | none =>
      rw [exec_keysetup, execKeysetup_of_none hw] at ht
      cases ht
      exact h.errorCompletion hb _
    | some sw =>
      rw [exec_keysetup, execKeysetup_of_some hw] at ht
      refine h.runCommand hb ht fun x _ _ => h.successCompletion hb h.buf_ok ?_ (Nat.zero_le _)
      simp [Schedule.ofWords, Schedule.rounds]
  | encblk => exact h.runOutput hb (i := .encblk) ht rfl fun x _ => (enc_length _ _ _ x).le
  | decblk => exact h.runOutput hb (i := .decblk) ht rfl fun x _ => (dec_length _ _ _ x).le
  | codecEnc =>
    refine h.runOutput hb (i := .codecEnc) ht rfl fun x hx => ?_
    rw [State.encStream, codecEnc_length, hx]
    rfl
  | codecDec => exact h.runOutput hb (i := .codecDec) ht rfl fun x hx => hx ▸ codecDec_length_le _ _ _ x _
  | codecDecStrip =>
    exact h.runOutput hb (i := .codecDecStrip) ht rfl fun x hx => hx ▸ codecDec_length_le _ _ _ x _
  | hash =>
    refine h.runCommand hb ht fun x hc _ => ?_
    have hfit : s.dstL + s.dlen ≤ s.params.bufBytes := State.output_fits (i := .hash) hc rfl
    refine h.successCompletion hb (h.buf_ok.writeRange ?_) h.sched_ok ((Nat.le_add_left _ _).trans hfit)
    exact (Nat.add_le_add_left (List.length_take_le _ _) _).trans hfit
  | dmcomp => exact h.runCommand hb ht fun x _ _ => h.successCompletion hb h.buf_ok h.sched_ok (Nat.zero_le _)

theorem State.Inv.completeCommand {s t : State} (h : s.Inv) (hb : s.status.busy = true)
    (ht : s.completeCommand = .next t) : t.Inv := by
  obtain ⟨i, _, _, ht⟩ | ⟨_, rfl⟩ := State.completeCommand_next ht
  · exact h.exec hb ht
  · exact h.errorCompletion hb _

/-! ### Host accesses -/

/-- A legal access to BUF touches bytes inside it only (20_memory R65). -/
theorem State.targetOf_buf_fits {s : State} {a : HostAccess} {k : Nat} (h : s.targetOf a = some (.buf k)) :
    k + a.size.bytes ≤ s.params.bufBytes := by
  unfold State.targetOf targetAt at h
  split at h
  · split at h <;> simp at h
  · split at h
    · simp only [Option.some.injEq, Target.buf.injEq] at h
      omega
    · cases h

@[simp] theorem laneBytes_length (v : Word) (off : Nat) (size : AccessSize) :
    (laneBytes v off size).length = size.bytes := by simp [laneBytes]

/-- Clearing bits of STATUS keeps its rules (10_state R24). -/
theorem State.statusOk.writeOneToClear {s : State} (h : s.statusOk) (v : Word) :
    State.statusOk { s with status := s.status.writeOneToClear v } := by
  obtain ⟨hexcl, hbusy, hdone, herr, hcode⟩ := h
  simp only [State.statusOk, Status.writeOneToClear, Bool.and_eq_true, Bool.and_eq_false_iff]
  exact ⟨fun ⟨hd, he⟩ => hexcl ⟨hd.1, he.1⟩, fun hb => ⟨.inl (hbusy hb).1, .inl (hbusy hb).2⟩,
    fun hd => hdone hd.1, fun he => herr he.1, hcode⟩

theorem State.Inv.writeReg {s : State} (h : s.Inv) (hr : s.rst = false) (r : Reg) (v : Word) :
    (s.writeReg r v).Inv := by
  obtain ⟨-, -, -, -, hcode⟩ := h.status_ok
  obtain ⟨_, _, hw⟩ | ⟨_, _, hw⟩ | ⟨_, hw⟩ | ⟨_, _, hw⟩ | ⟨_, _, _, _, _, _, _, hw⟩ := s.writeReg_cases r v
  all_goals
    rw [hw]
    refine h.of_released hr rfl rfl h.buf_ok h.sched_ok ?_ h.outlen_le
  · exact ⟨by simp, by simp, by simp, by simp, hcode⟩
  · exact h.status_ok
  · exact h.status_ok.writeOneToClear v
  · exact h.status_ok
  · exact h.status_ok

theorem State.Inv.returnRead {s : State} (h : s.Inv) (addr : Word) (x : List Byte) : (s.returnRead addr x).Inv :=
  ⟨h.params_legal, h.buf_ok, h.sched_ok, h.status_ok, h.outlen_le, h.reset_ok⟩

theorem State.Inv.hostAccess {s t : State} (h : s.Inv) (hr : s.rst = false) {a : HostAccess}
    (ht : s.hostAccess a = .next t) : t.Inv := by
  obtain ⟨_, h'⟩ | ⟨r, v, _, _, _, _, h'⟩ | ⟨_, _, addr, _, _, h'⟩ | ⟨k, size, addr, v, rfl, htarget, h'⟩ |
    ⟨_, _, addr, x, _, _, _, h'⟩ | ⟨_, _, _, _, _, _, h'⟩ := s.hostAccess_cases a <;> rw [h'] at ht <;> cases ht
  · exact h.writeReg hr r v
  · exact h.returnRead addr _
  · have hfit : k + (laneBytes v (s.offsetOf addr) size).length ≤ s.params.bufBytes := by
      rw [laneBytes_length]
      exact State.targetOf_buf_fits htarget
    exact h.of_released hr rfl rfl (h.buf_ok.writeRange hfit) h.sched_ok h.status_ok h.outlen_le
  · exact h.returnRead addr x

/-! ### Reset, and the step -/

/-- A reset establishes the invariant, whatever was before it (70 R290). -/
theorem State.inv_resetAsserted {s : State} (hlegal : s.params.legal) : s.resetAsserted.Inv where
  params_legal := hlegal
  buf_ok := ⟨List.Pairwise.nil, by simp⟩
  sched_ok := rfl
  status_ok := by simp [State.statusOk]
  outlen_le := by simp
  reset_ok := fun _ => ⟨rfl, rfl, rfl, rfl⟩

theorem State.Inv.hostEvent {s t : State} (h : s.Inv) (hr : s.rst = false) {e : HostEvent}
    (ht : s.hostEvent e = .next t) : t.Inv := by
  cases e with
  | access a => exact h.hostAccess hr ht
  | poll => exact h.hostAccess hr ht
  | assertReset =>
    cases ht
    exact State.inv_resetAsserted h.params_legal
  | releaseReset =>
    cases ht
    exact h

/-- The invariant does not speak of the host's events. -/
theorem State.Inv.setEvents {s : State} (h : s.Inv) (q : List HostEvent) (latency : Nat) :
    State.Inv { s with hostQueue := q, latency := latency } :=
  ⟨h.params_legal, h.buf_ok, h.sched_ok, h.status_ok, h.outlen_le, h.reset_ok⟩

theorem State.Inv.resetStep {s t : State} (h : s.Inv) (ht : s.resetStep = .next t) : t.Inv := by
  unfold State.resetStep at ht
  split at ht <;> cases ht
  · exact h
  · exact ⟨h.params_legal, h.buf_ok, h.sched_ok, h.status_ok, h.outlen_le, fun hr => nomatch hr⟩
  · exact h.setEvents _ _

/-- Settles O48: each kind of step keeps the invariant. -/
theorem stepKeepsTheInvariant : Obligations.StepKeepsTheInvariant := by
  unfold Obligations.StepKeepsTheInvariant
  intro s t h hstep
  obtain ⟨_, ht⟩ | ⟨hr, hc, ht⟩ | ⟨_, _, _, rfl⟩ | ⟨hr, _, e, q, _, ht⟩ := step_next hstep
  · exact h.resetStep ht
  · obtain ⟨-, hb, -⟩ := s.completionIsNext_iff.2 ⟨hr, hc⟩
    exact h.completeCommand hb ht
  · exact h
  · exact (h.setEvents q _).hostEvent hr ht

end Machine

end Sys2Proof
end

section
/-! PROOFS. 20_memory R62 to R68 and 10_state R21 to R32: the host accesses. Which of them are legal, what a BUF write
stores, what a BUF read returns, and what a register read returns. -/

namespace Sys2Proof.Machine

/-! ### Legal accesses and bus errors -/

/-- A host access that is the next event is one step. -/
theorem step_access {s : State} {a : HostAccess} {q : List HostEvent} (h : s.NextIs (.access a) q) :
    step s = (s.afterEvent q).hostAccess a := by
  obtain ⟨hrst, hqueue, hnot⟩ := (s.nextIs_iff _ _).1 h
  rw [step_of_event hrst hnot hqueue]
  rfl

/-- The register map has a register at the multiples of 4 below 0x40 but 0x24 to 0x2C (10_state R21, R32). -/
theorem regAt_isSome_iff (off : Nat) :
    (regAt off).isSome ↔ off < 0x40 ∧ off % 4 = 0 ∧ ¬(0x24 ≤ off ∧ off < 0x30) := by
  simp only [regAt, List.find?_isSome, Reg.all, List.mem_cons, List.not_mem_nil, or_false, exists_eq_or_imp,
    exists_eq_left, Reg.offset, beq_iff_eq]
  omega

/-- An access reaches something exactly when it is legal (20_memory R63, R65). -/
theorem State.targetOf_isSome_iff (s : State) (a : HostAccess) : (s.targetOf a).isSome ↔ s.LegalAccess a := by
  unfold State.targetOf targetAt bufWindow State.LegalAccess
  by_cases hregs : s.offsetOf a.addr < 0x10000
  · rw [if_pos hregs]
    by_cases hsize : a.size = .word
    · rw [if_pos hsize, Option.isSome_map, regAt_isSome_iff]
      simp only [hsize, true_and]
      omega
    · rw [if_neg hsize]
      simp only [hsize, false_and, and_false, false_or]
      exact ⟨nofun, fun h => by omega⟩
  · rw [if_neg hregs]
    by_cases hbuf : s.offsetOf a.addr + a.size.bytes ≤ 0x10000 + s.params.bufBytes ∧
        s.offsetOf a.addr % a.size.bytes = 0
    · rw [if_pos hbuf]
      exact ⟨fun _ => .inr ⟨by omega, hbuf⟩, fun _ => rfl⟩
    · rw [if_neg hbuf]
      exact ⟨nofun, fun h => by omega⟩

/-- A host access ends in a bus error exactly when it reaches nothing (20_memory R66). -/
theorem State.hostAccess_eq_busError_iff (s : State) (a : HostAccess) :
    s.hostAccess a = .fault .busError ↔ s.targetOf a = none := by
  obtain ⟨ht, h⟩ | ⟨_, _, _, _, _, ht, h⟩ | ⟨_, _, _, _, ht, h⟩ | ⟨_, _, _, _, _, ht, h⟩ |
    ⟨_, _, _, _, _, ht, _, h⟩ | ⟨_, _, _, _, ht, _, h⟩ := s.hostAccess_cases a <;> simp [h, ht]

/-- Settles O38: the step is the access, and performing the event before it does not move the address map. -/
theorem busErrorExactlyOnIllegalAccess : Obligations.BusErrorExactlyOnIllegalAccess := by
  unfold Obligations.BusErrorExactlyOnIllegalAccess
  intro s a q h
  rw [step_access h, State.hostAccess_eq_busError_iff, ← Option.not_isSome_iff_eq_none,
    State.targetOf_isSome_iff]
  rfl

/-! ### BUF -/

/-- An aligned access to BUF[k] reaches it (20_memory R63, R65). -/
theorem State.targetOf_hostAddr_buf (s : State) {a : HostAccess} {k : Nat} (hlegal : s.params.legal)
    (haddr : a.addr = hostAddr s.params (0x10000 + k)) (hfit : k + a.size.bytes ≤ s.params.bufBytes)
    (halign : k % a.size.bytes = 0) : s.targetOf a = some (.buf k) := by
  obtain ⟨-, hmax, -⟩ := hlegal
  have hwindow : (0x10000 + k) % a.size.bytes = 0 := by
    cases hsize : a.size <;> simp only [hsize, AccessSize.bytes] at halign ⊢ <;> omega
  have hoff : s.offsetOf a.addr = 0x10000 + k := by rw [haddr, State.offsetOf_hostAddr _ _ (by omega)]
  rw [State.targetOf, targetAt, hoff, bufWindow, if_neg (by omega), if_pos ⟨by omega, hwindow⟩,
    Nat.add_sub_cancel_left]

/-- The lanes of an aligned write to BUF[k] hold the bytes of the data word from bit `8 * (k mod 4)` up (20_memory R64). -/
theorem laneBytes_eq_leBytes (v : Word) (size : AccessSize) {k : Nat} (halign : k % size.bytes = 0) :
    laneBytes v (0x10000 + k) size = leBytes (v.toNat / 2 ^ (8 * (k % 4))) size.bytes := by
  refine List.ext_getElem? fun j => ?_
  rcases Nat.lt_or_ge j size.bytes with hj | hj
  · have hlane : (0x10000 + k + j) % 4 = k % 4 + j := by
      cases size <;> simp only [AccessSize.bytes] at halign hj <;> omega
    rw [leBytes_getElem? _ hj, laneBytes, List.getElem?_map, List.getElem?_range hj, Option.map_some,
      Option.some.injEq]
    apply BitVec.eq_of_toNat_eq
    rw [laneByte, hlane, BitVec.extractLsb'_toNat, BitVec.toNat_ofNat, Nat.shiftRight_eq_div_pow,
      Nat.div_div_eq_div_mul, Nat.mul_add, Nat.pow_add, Nat.pow_mul 2 8 j]
  · rw [List.getElem?_eq_none (by simpa using hj), List.getElem?_eq_none (by simpa using hj)]

/-- A write that reaches BUF stores its lanes. -/
theorem State.hostAccess_write_buf {s : State} {size : AccessSize} {addr v : Word} {k : Nat}
    (h : s.targetOf (.write size addr v) = some (.buf k)) : s.hostAccess (.write size addr v) =
      .next { s with buf := s.buf.writeRange k (laneBytes v (s.offsetOf addr) size) } := by
  simp only [State.hostAccess, h]

/-- A read that reaches BUF returns its range when it is written. -/
theorem State.hostAccess_read_buf {s : State} {size : AccessSize} {addr : Word} {k : Nat} {x : List Byte}
    (h : s.targetOf (.read size addr) = some (.buf k)) (hx : s.buf.readRange k size.bytes = some x) :
    s.hostAccess (.read size addr) = .next (s.returnRead addr x) := by
  simp only [State.hostAccess, h, hx]

/-- A read that reaches BUF faults when a byte of its range is unwritten. -/
theorem State.hostAccess_read_buf_unwritten {s : State} {size : AccessSize} {addr : Word} {k : Nat}
    (h : s.targetOf (.read size addr) = some (.buf k)) (hx : s.buf.readRange k size.bytes = none) :
    s.hostAccess (.read size addr) = .fault .unwrittenRead := by
  simp only [State.hostAccess, h, hx]

/-- A range of BUF that is written reads as written, and the rest as before. -/
theorem State.stores_writeRange (s : State) (off : Nat) (out : List Byte) :
    s.Stores { s with buf := s.buf.writeRange off out } off out :=
  ⟨s.buf.read_writeRange_inside off out, s.buf.read_writeRange_outside off out⟩

/-- Settles O39: the write reaches BUF[k] and stores the bytes of its lanes. -/
theorem hostBufWriteStoresItsBytes : Obligations.HostBufWriteStoresItsBytes := by
  unfold Obligations.HostBufWriteStoresItsBytes
  intro s size k v q _ hlegal hfit halign hnext
  have htarget := (s.afterEvent q).targetOf_hostAddr_buf
    (a := .write size (hostAddr s.params (0x10000 + k)) v) hlegal rfl hfit halign
  have hoff : (s.afterEvent q).offsetOf (hostAddr s.params (0x10000 + k)) = 0x10000 + k := by
    have : 0 < size.bytes := by cases size <;> decide
    obtain ⟨-, hmax, -⟩ := hlegal
    exact s.offsetOf_hostAddr _ (by omega)
  rw [step_access hnext, State.hostAccess_write_buf htarget, hoff, laneBytes_eq_leBytes v size halign]
  exact ⟨_, rfl, (s.afterEvent q).stores_writeRange k _, fun r => by cases r <;> rfl, rfl, rfl, rfl, rfl, rfl⟩

/-- Settles O40: the read reaches BUF[k] and returns the range read there, or faults with it. -/
theorem hostBufReadReturnsItsBytes : Obligations.HostBufReadReturnsItsBytes := by
  unfold Obligations.HostBufReadReturnsItsBytes
  intro s size k q _ hlegal hfit halign hnext
  have htarget := (s.afterEvent q).targetOf_hostAddr_buf
    (a := .read size (hostAddr s.params (0x10000 + k))) hlegal rfl hfit halign
  rw [step_access hnext]
  exact ⟨fun x hx => State.hostAccess_read_buf htarget ((s.inputIs_iff k _ x).1 hx),
    fun hnone => State.hostAccess_read_buf_unwritten htarget ((s.buf.readRange_eq_none_iff k _).2 hnone)⟩

/-! ### Register reads -/

/-- The low three bits of STATUS while a command is in flight: BUSY alone (20_memory R71). -/
theorem State.statusWord_low_of_busy {s : State} (hb : s.status.busy = true) (h : s.statusOk) :
    s.statusWord &&& 0x00000007 = 0x00000001 := by
  obtain ⟨-, hbusy, -⟩ := h
  obtain ⟨hdone, herr⟩ := hbusy hb
  obtain ⟨h0, h1, h2, -⟩ := s.statusWord_flags
  refine BitVec.eq_of_getLsbD_eq fun i hi => ?_
  rw [BitVec.getLsbD_and]
  interval_cases i
  · rw [h0, hb]
    rfl
  · rw [h1, hdone]
    rfl
  · rw [h2, herr]
    rfl
  all_goals exact Bool.and_false _

/-- Settles O55: a register read is one step, and STATUS has its low bits by the invariant. -/
theorem registerReadHasNoEffect : Obligations.RegisterReadHasNoEffect := by
  unfold Obligations.RegisterReadHasNoEffect
  intro s r q hnext
  refine ⟨step_rd hnext, ?_, ?_⟩
  · rintro rfl
    rfl
  · rintro rfl hb hstatus
    exact State.statusWord_low_of_busy hb hstatus

end Sys2Proof.Machine
end

section
/-! PROOFS. 20_memory R69, R71 and R72: what the host sees while a command is in flight. BUF accesses are held until the
completion, and no other host event reaches what the command reads or will commit. -/

namespace Sys2Proof.Machine

/-- A completion clears BUSY and leaves the reset level and the host's events (60 R270, R271). -/
theorem State.completeCommand_idles {s t : State} (h : s.completeCommand = .next t) :
    t.status.busy = false ∧ t.rst = s.rst ∧ t.hostQueue = s.hostQueue := by
  obtain ⟨i, _, _, h⟩ | ⟨_, rfl⟩ := State.completeCommand_next h
  · obtain ⟨e, rfl⟩ | ⟨_, _, _, _, _, rfl, _⟩ := exec_next h <;> exact ⟨rfl, rfl, rfl⟩
  · exact ⟨rfl, rfl, rfl⟩

/-- Settles O41: the held access makes the completion the next event; after it BUSY = 0, so the access is the next one. -/
theorem bufAccessIsHeldUntilCompletion : Obligations.BufAccessIsHeldUntilCompletion := by
  unfold Obligations.BufAccessIsHeldUntilCompletion
  intro s t a q k hrst hb hqueue htarget
  have hwaits : s.waits (.access a) = true := State.holds_of_targetOf_buf hb htarget
  have hstep : step s = s.completeCommand :=
    step_of_completionIsNext ⟨hrst, hb, .inr (.inr ⟨_, q, hqueue, hwaits⟩)⟩
  refine ⟨hstep, fun ht => ?_⟩
  obtain ⟨hidle, hrst', hqueue'⟩ := State.completeCommand_idles (hstep ▸ ht)
  have hqueue' : t.hostQueue = .access a :: q := hqueue'.trans hqueue
  exact ⟨hidle, hqueue', step_access ⟨hrst'.trans hrst, hqueue', .inl hidle⟩⟩

/-! ### Nothing of a result before the completion -/

/-- From `s` to `t` a command stays in flight and everything it reads or will commit stays: OUTLEN, Hreg, ERRCODE, BUF,
the schedule and the latches; and DONE and ERR do not rise. -/
structure State.StaysInFlight (s t : State) : Prop where
  outlen : t.outlen = s.outlen
  hreg : t.hreg = s.hreg
  errcode : t.status.errcode = s.status.errcode
  done : s.status.done = false → t.status.done = false
  err : s.status.err = false → t.status.err = false
  buf : t.buf = s.buf
  sched : t.sched = s.sched
  schedValid : t.schedValid = s.schedValid
  latch : t.latch = s.latch

/-- A register write while BUSY = 1 reaches none of it (70 R300 to R302). -/
theorem State.writeReg_staysInFlight {s : State} (hb : s.status.busy = true) (r : Reg) (v : Word) :
    s.StaysInFlight (s.writeReg r v) := by
  obtain ⟨_, hidle, _⟩ | ⟨_, _, h⟩ | ⟨_, h⟩ | ⟨hidle, _⟩ | ⟨_, _, _, _, _, _, _, h⟩ := s.writeReg_cases r v
  · rw [hb] at hidle
    cases hidle
  · rw [h]
    exact ⟨rfl, rfl, rfl, id, id, rfl, rfl, rfl, rfl⟩
  · rw [h]
    exact ⟨rfl, rfl, rfl, fun hd => by simp [Status.writeOneToClear, hd],
      fun he => by simp [Status.writeOneToClear, he], rfl, rfl, rfl, rfl⟩
  · rw [hb] at hidle
    cases hidle
  · rw [h]
    exact ⟨rfl, rfl, rfl, id, id, rfl, rfl, rfl, rfl⟩

theorem State.returnRead_staysInFlight (s : State) (addr : Word) (x : List Byte) :
    s.StaysInFlight (s.returnRead addr x) := ⟨rfl, rfl, rfl, id, id, rfl, rfl, rfl, rfl⟩

/-- A host access performed while BUSY = 1 is not to BUF, which would be held, and reaches none of it. -/
theorem State.hostAccess_staysInFlight {s t : State} {a : HostAccess} (hb : s.status.busy = true)
    (hheld : s.holds a = false) (h : s.hostAccess a = .next t) : s.StaysInFlight t := by
  have hnot : ∀ {k}, s.targetOf a ≠ some (.buf k) := fun htarget => by
    rw [State.holds_of_targetOf_buf hb htarget] at hheld
    cases hheld
  obtain ⟨_, h'⟩ | ⟨r, v, _, _, _, _, h'⟩ | ⟨_, _, addr, _, _, h'⟩ | ⟨_, _, _, _, _, htarget, _⟩ |
    ⟨_, _, _, _, _, htarget, _⟩ | ⟨_, _, _, _, htarget, _⟩ := s.hostAccess_cases a
  · rw [h'] at h
    cases h
  · rw [h'] at h
    cases h
    exact State.writeReg_staysInFlight hb r v
  · rw [h'] at h
    cases h
    exact s.returnRead_staysInFlight addr _
  all_goals exact absurd htarget hnot

/-- A host event that need not wait and leaves the command in flight reaches none of it. -/
theorem State.hostEvent_staysInFlight {s t : State} {e : HostEvent} (hb : s.status.busy = true)
    (hwaits : s.waits e = false) (h : s.hostEvent e = .next t) (ht : t.status.busy = true) : s.StaysInFlight t := by
  cases e with
  | access a => exact State.hostAccess_staysInFlight hb hwaits h
  | poll => exact absurd (hwaits.symm.trans hb) Bool.false_ne_true
  | assertReset =>
    cases h
    cases ht
  | releaseReset =>
    cases h
    exact ⟨rfl, rfl, rfl, id, id, rfl, rfl, rfl, rfl⟩

/-- A cycle of reset moves only the reset level and the host's events (70 R290). -/
theorem State.resetStep_staysInFlight {s t : State} (h : s.resetStep = .next t) : s.StaysInFlight t := by
  unfold State.resetStep at h
  split at h <;> cases h <;> exact ⟨rfl, rfl, rfl, id, id, rfl, rfl, rfl, rfl⟩

/-- A step after which the command is still in flight is no completion. -/
theorem step_staysInFlight {s t : State} (hb : s.status.busy = true) (h : step s = .next t)
    (ht : t.status.busy = true) : s.StaysInFlight t := by
  obtain ⟨_, h⟩ | ⟨_, _, h⟩ | ⟨_, _, _, rfl⟩ | ⟨hrst, hnot, e, q, hqueue, h⟩ := step_next h
  · exact State.resetStep_staysInFlight h
  · obtain ⟨hidle, -, -⟩ := State.completeCommand_idles h
    exact absurd (hidle.symm.trans ht) Bool.false_ne_true
  · exact ⟨rfl, rfl, rfl, id, id, rfl, rfl, rfl, rfl⟩
  · obtain ⟨-, -, hidle | ⟨-, hwaits⟩⟩ := (s.nextIs_iff e q).2 ⟨hrst, hqueue, hnot⟩
    · exact absurd (hidle.symm.trans hb) Bool.false_ne_true
    · have hwaits' : (s.afterEvent q).waits e = false := by cases e <;> exact hwaits
      obtain ⟨h1, h2, h3, h4, h5, h6, h7, h8, h9⟩ :=
        State.hostEvent_staysInFlight (s := s.afterEvent q) hb hwaits' h ht
      exact ⟨h1, h2, h3, h4, h5, h6, h7, h8, h9⟩

/-- Settles O50: the step is no completion, and DONE and ERR are 0 by the STATUS invariant. -/
theorem noPartialResultWhileBusy : Obligations.NoPartialResultWhileBusy := by
  unfold Obligations.NoPartialResultWhileBusy
  intro s t hstatus hb hstep ht
  obtain ⟨-, hbusy, -⟩ := hstatus
  obtain ⟨hdone, herr⟩ := hbusy hb
  obtain ⟨houtlen, hhreg, herrcode, hdone', herr', hbuf, hsched, hvalid, hlatch⟩ := step_staysInFlight hb hstep ht
  exact ⟨houtlen, hhreg, herrcode, hdone' hdone, herr' herr, hbuf, hsched, hvalid, hlatch⟩

end Sys2Proof.Machine
end

section
/-! PROOFS. 30_encoding R90 to R93: decoding inverts encoding, on fields, on words and on bytes; the legal words are the
encodings; and an illegal word, accepted, ends in IllegalCommand. -/

namespace Sys2Proof

/-! ### The fields of a command word -/

/-- The fields read from a command word are the fields it holds (30_encoding R90). -/
theorem CommandFields.ofWord_toWord (f : CommandFields) : CommandFields.ofWord f.toWord = f := by
  have hopc : f.toWord.extractLsb' 0 8 = f.opc := BitVec.extractLsb'_append_eq_right
  have hstrip : f.toWord.getLsbD 8 = f.strip := by
    unfold CommandFields.toWord
    simp only [BitVec.getLsbD_append]
    simp
  have hrsv : f.toWord.extractLsb' 9 23 = f.rsv := by
    unfold CommandFields.toWord
    simp (disch := decide) only [BitVec.extractLsb'_append_eq_of_le, Nat.reduceSub, BitVec.extractLsb'_eq_self]
  simp only [CommandFields.ofWord, hopc, hstrip, hrsv]

/-- A word holds the fields `f` exactly when it is the word put together from them. -/
theorem CommandFields.ofWord_eq_iff (c : Word) (f : CommandFields) : CommandFields.ofWord c = f ↔ c = f.toWord := by
  constructor
  · rintro rfl
    exact (Machine.CommandFields_toWord_ofWord c).symm
  · rintro rfl
    exact f.ofWord_toWord

/-- A row of the opcode map has the fields of its instruction (30_encoding R92). -/
theorem fields_of_mem_opcodeTable : ∀ r ∈ opcodeTable, r.instr.fields = ⟨r.opc, r.strip, 0⟩ := by decide

/-- The fields decode to an instruction exactly when they are its fields in the opcode map. -/
theorem CommandFields.decode_eq_ok_iff (f : CommandFields) (i : Instr) : f.decode = .ok i ↔ f = i.fields := by
  constructor
  · intro h
    obtain ⟨opc, strip, rsv⟩ := f
    unfold CommandFields.decode at h
    split at h
    · cases h
    next hrsv =>
      split at h
      next r hrow =>
        cases h
        obtain rfl : rsv = 0 := not_not.1 hrsv
        obtain ⟨hopc, hstrip⟩ : r.opc = opc ∧ r.strip = strip := by simpa using List.find?_some hrow
        rw [fields_of_mem_opcodeTable r (List.mem_of_find?_eq_some hrow), hopc, hstrip]
      next => split at h <;> cases h
  · rintro rfl
    cases i <;> rfl

/-- R93's first form: the fields are some instruction's exactly when the three checks hold. -/
theorem CommandFields.exists_eq_fields_iff (f : CommandFields) : (∃ i : Instr, f = i.fields) ↔ f.WellFormed := by
  constructor
  · rintro ⟨i, rfl⟩
    cases i <;> decide
  · obtain ⟨opc, strip, rsv⟩ := f
    rintro ⟨⟨hlow, hhigh⟩, hrsv, hstrip⟩
    obtain rfl : rsv = 0 := hrsv
    cases strip with
    | true =>
      obtain rfl : opc = 0x05 := hstrip.resolve_left Bool.noConfusion
      exact ⟨.codecDecStrip, rfl⟩
    | false =>
      obtain rfl | rfl | rfl | rfl | rfl | rfl | rfl :
          opc = 1 ∨ opc = 2 ∨ opc = 3 ∨ opc = 4 ∨ opc = 5 ∨ opc = 6 ∨ opc = 7 := by
        bv_omega
      · exact ⟨.keysetup, rfl⟩
      · exact ⟨.encblk, rfl⟩
      · exact ⟨.decblk, rfl⟩
      · exact ⟨.codecEnc, rfl⟩
      · exact ⟨.codecDec, rfl⟩
      · exact ⟨.hash, rfl⟩
      · exact ⟨.dmcomp, rfl⟩

/-! ### Words -/

/-- A word decodes to an instruction exactly when it is the instruction's word. -/
theorem decodeWord_eq_ok_iff (c : Word) (i : Instr) : decodeWord c = .ok i ↔ c = encodeWord i := by
  unfold decodeWord encodeWord
  rw [CommandFields.decode_eq_ok_iff, CommandFields.ofWord_eq_iff]

/-- The legal words of R93 in its first form, by the three checks on the fields. -/
theorem exists_decodeWord_iff_wellFormed (c : Word) :
    (∃ i, decodeWord c = .ok i) ↔ (CommandFields.ofWord c).WellFormed := by
  unfold decodeWord
  simp only [CommandFields.decode_eq_ok_iff]
  exact CommandFields.exists_eq_fields_iff _

/-- The legal words of R93 in its second form, as a list: the words of R92. -/
theorem exists_decodeWord_iff_mem (c : Word) : (∃ i, decodeWord c = .ok i) ↔
    c ∈ [0x00000001, 0x00000002, 0x00000003, 0x00000004, 0x00000005, 0x00000105, 0x00000006, (0x00000007 : Word)] := by
  have hwords : [0x00000001, 0x00000002, 0x00000003, 0x00000004, 0x00000005, 0x00000105, 0x00000006,
      (0x00000007 : Word)] = (opcodeTable.map (·.instr)).map encodeWord := by decide
  have hevery : ∀ i : Instr, i ∈ opcodeTable.map (·.instr) := by
    intro i
    cases i <;> decide
  rw [hwords, List.mem_map]
  simp only [decodeWord_eq_ok_iff, hevery, true_and]
  exact exists_congr fun _ => eq_comm

/-! ### Bytes -/

/-- Four bytes are the bytes of the word they make, the first byte lowest (20_memory R64 (d)). -/
theorem wordBytesOf_append_bytes (b0 b1 b2 b3 : Byte) : wordBytesOf (b3 ++ b2 ++ b1 ++ b0) = [b0, b1, b2, b3] := by
  rw [wordBytesOf_eq]
  simp (disch := decide) only [BitVec.extractLsb'_append_eq_of_le, Nat.reduceSub, BitVec.extractLsb'_append_eq_right,
    BitVec.extractLsb'_eq_self]

/-- The decoder answers exactly on the bytes of a word that decodes, and leaves what follows them (30_encoding R91). -/
theorem decode_eq_ok_iff (bytes rest : List Byte) (i : Instr) :
    decode bytes = .ok (i, rest) ↔ ∃ c, decodeWord c = .ok i ∧ bytes = wordBytesOf c ++ rest := by
  constructor
  · intro h
    unfold decode at h
    split at h
    next b0 b1 b2 b3 tail =>
      split at h
      next j hword =>
        cases h
        exact ⟨_, hword, by rw [wordBytesOf_append_bytes]; rfl⟩
      next => cases h
    next => cases h
  · rintro ⟨c, hc, rfl⟩
    rw [decode_wordBytesOf_append, hc]
    rfl

/-- Settles O3: the decoder answers on the bytes of a word that decodes, and that word is the instruction's. -/
theorem decodeAndEncodeAgree : Obligations.DecodeAndEncodeAgree := by
  unfold Obligations.DecodeAndEncodeAgree
  intro bytes rest i
  simp only [decode_eq_ok_iff, decodeWord_eq_ok_iff, exists_eq_left]
  rfl

theorem decode_encode (i : Instr) : decode (encode i) = .ok (i, []) :=
  (decodeAndEncodeAgree _ _ _).2 (List.append_nil _).symm

/-- Settles O1: the bytes are the encodings of the eight commands. -/
theorem specWordsDecode : Obligations.SpecWordsDecode := by
  unfold Obligations.SpecWordsDecode
  exact ⟨decode_encode .keysetup, decode_encode .encblk, decode_encode .decblk, decode_encode .codecEnc,
    decode_encode .codecDec, decode_encode .codecDecStrip, decode_encode .hash, decode_encode .dmcomp⟩

namespace Machine

/-! ### An illegal word, accepted -/

/-- A CMD write while BUSY = 0 is the acceptance of its word, whatever the word (60 R250). -/
theorem step_wr_cmd_of_idle {s : State} {c : Word} {q : List HostEvent} (hidle : s.status.busy = false)
    (hnext : s.NextIs (s.wr .cmd c) q) : step s = .next ((s.afterEvent q).accept c) := by
  rw [step_wr hnext, State.writeReg, if_neg (by simp [hidle])]

/-- What is fetched depends on the latches alone (10_state R47). -/
theorem State.fetchBytes_congr {s t : State} (h : s.latch = t.latch) : s.fetchBytes = t.fetchBytes := by
  unfold State.fetchBytes
  rw [h]

/-- An illegal word in flight ends in IllegalCommand (30_encoding R93, 60 R251). -/
theorem State.completeCommand_of_illegal {s : State} {c : Word} (hfetch : s.fetchBytes = wordBytesOf c)
    (hillegal : ∀ i, decodeWord c ≠ .ok i) : s.completeCommand = .next (s.errorCompletion .illegalCommand) := by
  unfold State.completeCommand
  rw [hfetch, ← List.append_nil (wordBytesOf c), decode_wordBytesOf_append]
  cases hc : decodeWord c with
  | ok i => exact absurd hc (hillegal i)
  | error e => rfl

/-- Settles O2: the two forms of legality, and for an illegal word its acceptance and its completion. -/
theorem exactlyEightWordsAreLegal : Obligations.ExactlyEightWordsAreLegal := by
  unfold Obligations.ExactlyEightWordsAreLegal
  refine ⟨exists_decodeWord_iff_wellFormed, exists_decodeWord_iff_mem, fun s c q hillegal hidle hnext => ?_⟩
  have hfetch : ((s.afterEvent q).accept c).fetchBytes = wordBytesOf c := (s.afterEvent q).fetchBytes_latchCommand c
  refine ⟨_, step_wr_cmd_of_idle hidle hnext, rfl, hfetch, fun u hlatch hcompletes => ?_⟩
  rw [step_of_completionIsNext hcompletes]
  exact State.completeCommand_of_illegal ((State.fetchBytes_congr hlatch).trans hfetch) hillegal

end Machine

end Sys2Proof
end

section
/-! PROOFS. 30_encoding R110: a poll waits for the completion, and then it is a read of STATUS. -/

namespace Sys2Proof.Machine

/-- While BUSY = 1 a poll at the head of the queue makes the completion the next event (log entry 8). -/
theorem State.completionIsNext_of_poll {s : State} {q : List HostEvent} (hrst : s.rst = false)
    (hqueue : s.hostQueue = .poll :: q) (hb : s.status.busy = true) : s.CompletionIsNext :=
  ⟨hrst, hb, .inr (.inr ⟨_, q, hqueue, hb⟩)⟩

/-- A poll that is the next event is the step of a STATUS read in its place. -/
theorem step_poll {s : State} {q : List HostEvent} (h : s.NextIs .poll q) :
    step s = .next ((s.afterEvent q).returnRead (hostAddr s.params Reg.status.offset) (leBytes s.statusWord.toNat 4)) := by
  obtain ⟨hrst, hqueue, hnot⟩ := (s.nextIs_iff _ _).1 h
  rw [step_of_event hrst hnot hqueue]
  show State.hostAccess (s.afterEvent q) _ = _
  unfold State.hostAccess
  rw [(s.afterEvent q).targetOf_register .status _ rfl rfl]
  rfl

/-- Settles O42: with BUSY = 1 the poll waits; with BUSY = 0 it reads STATUS, whose bit 0 is BUSY. -/
theorem pollReturnsAfterCompletion : Obligations.PollReturnsAfterCompletion := by
  unfold Obligations.PollReturnsAfterCompletion
  intro s q hrst hqueue
  refine ⟨fun hb => step_of_completionIsNext (State.completionIsNext_of_poll hrst hqueue hb), fun hidle => ⟨?_, ?_⟩⟩
  · exact step_poll ⟨hrst, hqueue, .inl hidle⟩
  · exact s.statusWord_flags.1.trans hidle

end Sys2Proof.Machine
end

section
/-! PROOFS. 40 R131, R132 and 10_state R41: the schedule changes only at a successful KEYSETUP completion and at
a reset. Each operation of a step keeps it (`State.SameSchedule`) but for these two. -/

namespace Sys2Proof.Machine

/-- The three facts of a completion that latches a schedule (40 R130, 60 R271). -/
structure State.LatchedSchedule (t : State) : Prop where
  schedValid : t.schedValid = true
  done : t.status.done = true
  errcode : t.status.errcode = 0

/-! ### Commands -/

theorem State.keysetupCommit_latchedSchedule (s : State) (sw : WordSize) (key : List Byte) :
    (s.keysetupCommit sw key).LatchedSchedule := ⟨rfl, rfl, rfl⟩

theorem State.errorCompletion_sameSchedule (s : State) (e : ErrorCode) : s.SameSchedule (s.errorCompletion e) :=
  ⟨rfl, rfl⟩

/-- KEYSETUP keeps the schedule, when it ends in an error, or latches a new one. -/
theorem exec_keysetup_schedule {s t : State} (h : exec .keysetup s = .next t) :
    s.SameSchedule t ∨ t.LatchedSchedule := by
  rw [exec_keysetup] at h
  cases hw : WordSize.ofWsel s.latch.wsel with
  | none =>
    rw [execKeysetup_of_none hw] at h
    cases h
    exact .inl (s.errorCompletion_sameSchedule _)
  | some sw =>
    rw [execKeysetup_of_some hw] at h
    obtain ⟨e, -, rfl⟩ | ⟨key, -, -, rfl⟩ := State.runCommand_next h
    · exact .inl (s.errorCompletion_sameSchedule e)
    · exact .inr (s.keysetupCommit_latchedSchedule sw key)

/-- Every other command keeps the schedule (40 R132). -/
theorem exec_sameSchedule {i : Instr} {s t : State} (hi : i ≠ .keysetup) (h : exec i s = .next t) :
    s.SameSchedule t := by
  obtain ⟨e, rfl⟩ | ⟨_, _, _, _, _, rfl, hkept⟩ := exec_next h
  · exact s.errorCompletion_sameSchedule e
  · obtain ⟨hsched, hvalid⟩ := hkept hi
    exact ⟨hsched, hvalid⟩

theorem State.completeCommand_schedule {s t : State} (h : s.completeCommand = .next t) :
    s.SameSchedule t ∨ (∃ rest, decode s.fetchBytes = .ok (.keysetup, rest)) ∧ t.LatchedSchedule := by
  obtain ⟨i, rest, hdecode, h⟩ | ⟨-, rfl⟩ := State.completeCommand_next h
  · by_cases hi : i = .keysetup
    · subst hi
      exact (exec_keysetup_schedule h).imp_right fun hlatched => ⟨⟨rest, hdecode⟩, hlatched⟩
    · exact .inl (exec_sameSchedule hi h)
  · exact .inl (s.errorCompletion_sameSchedule _)

/-! ### Host events -/

theorem State.writeReg_sameSchedule (s : State) (r : Reg) (v : Word) : s.SameSchedule (s.writeReg r v) := by
  obtain ⟨_, _, h⟩ | ⟨_, _, h⟩ | ⟨_, h⟩ | ⟨_, _, h⟩ | ⟨_, _, _, _, _, _, _, h⟩ := s.writeReg_cases r v
  all_goals
    rw [h]
    exact ⟨rfl, rfl⟩

theorem State.hostAccess_sameSchedule {s t : State} {a : HostAccess} (h : s.hostAccess a = .next t) :
    s.SameSchedule t := by
  obtain ⟨_, h'⟩ | ⟨r, v, _, _, _, _, h'⟩ | ⟨_, _, _, _, _, h'⟩ | ⟨_, _, _, _, _, _, h'⟩ |
    ⟨_, _, _, _, _, _, _, h'⟩ | ⟨_, _, _, _, _, _, h'⟩ := s.hostAccess_cases a <;> rw [h'] at h <;> cases h
  · exact s.writeReg_sameSchedule r v
  · exact ⟨rfl, rfl⟩
  · exact ⟨rfl, rfl⟩
  · exact ⟨rfl, rfl⟩

/-- Of the host events only the assertion of reset reaches the schedule, and it leaves none (70 R290). -/
theorem State.hostEvent_schedule {s t : State} {e : HostEvent} (h : s.hostEvent e = .next t) :
    s.SameSchedule t ∨ e = .assertReset ∧ t.schedValid = false := by
  cases e with
  | access a => exact .inl (State.hostAccess_sameSchedule h)
  | poll => exact .inl (State.hostAccess_sameSchedule h)
  | assertReset =>
    cases h
    exact .inr ⟨rfl, rfl⟩
  | releaseReset =>
    cases h
    exact .inl ⟨rfl, rfl⟩

theorem State.resetStep_sameSchedule {s t : State} (h : s.resetStep = .next t) : s.SameSchedule t := by
  obtain ⟨-, -, -, -, -, -, hsched, hvalid, -⟩ := State.resetStep_staysInFlight h
  exact ⟨hsched, hvalid⟩

/-! ### The step -/

/-- What a step does to the schedule: it keeps it, or it is one of the two events that replace it. -/
theorem step_schedule {s t : State} (h : step s = .next t) :
    s.SameSchedule t ∨
    (s.CompletionIsNext ∧ (∃ rest, decode s.fetchBytes = .ok (.keysetup, rest)) ∧ t.LatchedSchedule) ∨
    (∃ q, s.NextIs .assertReset q ∧ t.schedValid = false) := by
  obtain ⟨_, h⟩ | ⟨hrst, hcompletes, h⟩ | ⟨_, _, _, rfl⟩ | ⟨hrst, hnot, e, q, hqueue, h⟩ := step_next h
  · exact .inl (State.resetStep_sameSchedule h)
  · have hnext : s.CompletionIsNext := s.completionIsNext_iff.2 ⟨hrst, hcompletes⟩
    exact (State.completeCommand_schedule h).imp_right fun hlatched => .inl ⟨hnext, hlatched⟩
  · exact .inl ⟨rfl, rfl⟩
  · obtain ⟨hsched, hvalid⟩ | ⟨rfl, hinvalid⟩ := State.hostEvent_schedule h
    · exact .inl ⟨hsched, hvalid⟩
    · exact .inr (.inr ⟨q, (s.nextIs_iff _ q).2 ⟨hrst, hqueue, hnot⟩, hinvalid⟩)

/-- Settles O21: a step that changes the schedule does not keep it, so it is one of the other two cases. -/
theorem onlyKeysetupOrResetChangesTheSchedule : Obligations.OnlyKeysetupOrResetChangesTheSchedule := by
  unfold Obligations.OnlyKeysetupOrResetChangesTheSchedule
  intro s t hstep hchanged
  obtain ⟨hsched, hvalid⟩ | ⟨hnext, hdecode, hlatched⟩ | hreset := step_schedule hstep
  · exact absurd hchanged (by simp [hsched, hvalid])
  · exact .inl ⟨hnext, hdecode, hlatched.schedValid, hlatched.done, hlatched.errcode⟩
  · exact .inr hreset

end Sys2Proof.Machine
end

section
/-! PROOFS. 40 R130 and 10_state R41: a KEYSETUP that passes its checks commits the schedule of its key. -/

namespace Sys2Proof.Machine

/-- KEYSETUP's checks after UnsupportedWordSize pass when the key is no longer than allowed and lies inside BUF. -/
theorem State.firstError_keysetupChecks_eq_none {s : State} (hlen : s.lenL ≤ s.params.keyMaxBytes)
    (hfit : s.inBuf s.srcL s.lenL) : firstError s.keysetupChecks = none := by
  simp [State.keysetupChecks, Nat.not_lt.2 hlen, hfit]

/-- A KEYSETUP none of whose checks applies commits the key it reads (40 R130). -/
theorem exec_keysetup_of_input {s : State} {sw : WordSize} {key : List Byte} (hw : s.latch.wsel = sw.toWsel)
    (hchecks : firstError s.keysetupChecks = none) (hkey : s.InputIs s.srcL s.lenL key) :
    exec .keysetup s = .next (s.keysetupCommit sw key) := by
  rw [exec_keysetup, execKeysetup_of_some (hw ▸ sw.ofWsel_toWsel)]
  exact State.runCommand_of_input hchecks ((s.inputIs_iff _ _ _).1 hkey) _

/-- Settles O8: the next state is `State.keysetupCommit`, whose fields are as stated. -/
theorem keysetupLatchesTheSchedule : Obligations.KeysetupLatchesTheSchedule := by
  unfold Obligations.KeysetupLatchesTheSchedule
  intro s sw key hw hlen hfit hkey
  have hchecks : firstError s.keysetupChecks = none := State.firstError_keysetupChecks_eq_none hlen hfit
  have hsucceeded : s.Succeeded (s.keysetupCommit sw key) := ⟨rfl, rfl, rfl, rfl⟩
  have hcontrol : s.SameControl (s.keysetupCommit sw key) :=
    ⟨rfl, rfl, rfl, rfl, rfl, rfl, rfl, rfl, rfl, rfl, rfl, rfl, rfl⟩
  exact ⟨_, exec_keysetup_of_input hw hchecks hkey, rfl, rfl, hw.symm, rfl, rfl, hsucceeded, hcontrol, rfl,
    fun _ => rfl⟩

end Sys2Proof.Machine
end

section
/-! PROOFS. 40 R122, R123 and R126: the number of zeros that pad a key is the least that fills its last word. From that
come the size of the aligned key and the keys that are padded alike. -/

namespace Sys2Proof

/-- The number of zeros `padKey` appends to a non-empty key of `n` bytes (40 R123). -/
def keyFill (sw : WordSize) (n : Nat) : Nat := (sw.wordBytes - n % sw.wordBytes) % sw.wordBytes

theorem keyFill_lt (sw : WordSize) (n : Nat) : keyFill sw n < sw.wordBytes := Nat.mod_lt _ sw.wordBytes_pos

theorem padKey_nil (sw : WordSize) : padKey sw [] = zeros sw.wordBytes := rfl

theorem padKey_of_ne_nil (sw : WordSize) {key : List Byte} (h : key ≠ []) :
    padKey sw key = key ++ zeros (keyFill sw key.length) := if_neg (mt List.length_eq_zero_iff.1 h)

theorem dvd_add_keyFill (sw : WordSize) (n : Nat) : sw.wordBytes ∣ n + keyFill sw n := by
  have hlt : n % sw.wordBytes < sw.wordBytes := Nat.mod_lt _ sw.wordBytes_pos
  rw [Nat.dvd_iff_mod_eq_zero, keyFill, Nat.add_mod_mod, ← Nat.mod_add_mod, Nat.add_sub_cancel' hlt.le, Nat.mod_self]

/-- `keyFill` is the only number below wordBytes that fills the last word. -/
theorem keyFill_eq (sw : WordSize) {n m : Nat} (hlt : m < sw.wordBytes) (hdvd : sw.wordBytes ∣ n + m) :
    keyFill sw n = m := by
  have hmod : n + keyFill sw n ≡ n + m [MOD sw.wordBytes] :=
    (Nat.modEq_zero_iff_dvd.2 (dvd_add_keyFill sw n)).trans (Nat.modEq_zero_iff_dvd.2 hdvd).symm
  exact (Nat.ModEq.add_left_cancel' n hmod).eq_of_lt_of_lt (keyFill_lt sw n) hlt

/-! ### Sizes -/

/-- A non-empty key fills `ceil(b / wordBytes)` words. -/
theorem padKey_length_of_ne_nil (sw : WordSize) {key : List Byte} (h : key ≠ []) :
    (padKey sw key).length = sw.wordBytes * ((key.length + sw.wordBytes - 1) / sw.wordBytes) := by
  have hlt := keyFill_lt sw key.length
  obtain ⟨c, hc⟩ := dvd_add_keyFill sw key.length
  have hpos : 0 < key.length := List.length_pos_iff.2 h
  have hdiv : (key.length + sw.wordBytes - 1) / sw.wordBytes = c :=
    Nat.div_eq_of_lt_le (by rw [Nat.mul_comm]; omega) (by rw [Nat.mul_comm, Nat.mul_succ]; omega)
  rw [padKey_of_ne_nil sw h, List.length_append, zeros_length, hc, hdiv]

/-- The aligned key has `c = max(1, ceil(b / wordBytes))` words (40 R122). -/
theorem alignKey_length (sw : WordSize) (key : List Byte) :
    (alignKey sw key).length = max 1 ((key.length + sw.wordBytes - 1) / sw.wordBytes) := by
  have hw := sw.wordBytes_pos
  have hc : (alignKey sw key).length = (padKey sw key).length / sw.wordBytes := by simp [alignKey]
  rw [hc]
  by_cases h : key = []
  · subst h
    have hzero : (([] : List Byte).length + sw.wordBytes - 1) / sw.wordBytes = 0 :=
      Nat.div_eq_of_lt (by rw [List.length_nil]; omega)
    rw [hzero, padKey_nil, zeros_length, Nat.div_self hw, Nat.max_zero]
  · have hpos : 0 < key.length := List.length_pos_iff.2 h
    have hone : 1 ≤ (key.length + sw.wordBytes - 1) / sw.wordBytes := Nat.div_pos (by omega) hw
    rw [padKey_length_of_ne_nil sw h, Nat.mul_div_cancel_left _ hw, Nat.max_eq_right hone]

/-- Settles O23: the lengths of the aligned key and of the schedule, and bounds that follow from them. -/
theorem keyScheduleSizes : Obligations.KeyScheduleSizes := by
  unfold Obligations.KeyScheduleSizes
  intro p sw rounds key hrounds
  have haligned := alignKey_length sw key
  have htable : (keyExpand p sw rounds key).length = 2 * (rounds + 1) := keyExpand_length p sw rounds key
  exact ⟨rfl, haligned, haligned ▸ Nat.le_max_left _ _, htable, by omega, by omega⟩

/-! ### Keys that are padded alike -/

/-- `KeyExpand` reads the key through its padding alone (40 R123). -/
theorem keyExpand_congr_padKey (p : Params) {sw : WordSize} (rounds : Nat) {key key' : List Byte}
    (h : padKey sw key = padKey sw key') : keyExpand p sw rounds key = keyExpand p sw rounds key' := by
  have halign : alignKey sw key = alignKey sw key' := by simp only [alignKey, h]
  simp only [keyExpand, halign]

theorem zeros_append_zeros (m n : Nat) : zeros m ++ zeros n = zeros (m + n) := List.replicate_append_replicate

/-- The empty key is padded as one zero word (40 R126 (a)). -/
theorem padKey_zeros_wordBytes (sw : WordSize) : padKey sw (zeros sw.wordBytes) = padKey sw [] := by
  have hw := sw.wordBytes_pos
  have hne : zeros sw.wordBytes ≠ [] := List.length_pos_iff.1 (by rwa [zeros_length])
  have hfill : keyFill sw sw.wordBytes = 0 := keyFill_eq sw hw dvd_rfl
  rw [padKey_of_ne_nil sw hne, zeros_length, hfill, zeros_zero, List.append_nil, padKey_nil]

/-- Zeros up to the end of the key's last word are the first of those `padKey` appends (40 R126 (b)). -/
theorem padKey_append_zeros (sw : WordSize) {key : List Byte} {n : Nat} (h : key ≠ [])
    (hn : n ≤ keyFill sw key.length) : padKey sw (key ++ zeros n) = padKey sw key := by
  have hlt := keyFill_lt sw key.length
  have hfill : keyFill sw (key.length + n) = keyFill sw key.length - n := by
    apply keyFill_eq sw (by omega)
    rw [Nat.add_assoc, Nat.add_sub_cancel' hn]
    exact dvd_add_keyFill sw key.length
  rw [padKey_of_ne_nil sw h, padKey_of_ne_nil sw (List.append_ne_nil_of_left_ne_nil h _), List.length_append,
    zeros_length, hfill, List.append_assoc, zeros_append_zeros, Nat.add_sub_cancel' hn]

/-- Settles O24: in both parts the two keys are padded alike. -/
theorem keyPaddingChangesNothing : Obligations.KeyPaddingChangesNothing := by
  unfold Obligations.KeyPaddingChangesNothing
  exact fun p sw rounds => ⟨keyExpand_congr_padKey p rounds (padKey_zeros_wordBytes sw).symm,
    fun _ _ hne hn => keyExpand_congr_padKey p rounds (padKey_append_zeros sw hne hn)⟩

end Sys2Proof
end

section
/-! PROOFS. 41 R150 and R151: the rotations, bit by bit, and that they undo each other. -/

namespace Sys2Proof

/-- The rotation depends on the amount mod w alone (41 R150). -/
theorem rotl_congr_mod {w m n : Nat} (v : BitVec w) (h : m % w = n % w) : rotl v m = rotl v n := by
  simp only [rotl, h]

theorem rotl_of_mod_eq_zero {w n : Nat} (v : BitVec w) (h : n % w = 0) : rotl v n = v := if_pos h

/-- Bit `(i + n) mod w` stands `n mod w` places above bit i, or wraps below it. -/
theorem add_mod_eq_ite_of_lt {w i : Nat} (n : Nat) (hi : i < w) :
    (i + n) % w = if i + n % w < w then i + n % w else i + n % w - w := by
  rw [← Nat.add_mod_mod, Nat.add_mod_eq_ite, Nat.mod_mod, Nat.mod_eq_of_lt hi]
  split <;> split <;> omega

/-- `rotl` moves bit i to bit `(i + n) mod w` (41 R150). -/
theorem getLsbD_rotl_add_mod {w i : Nat} (v : BitVec w) (n : Nat) (hi : i < w) :
    (rotl v n).getLsbD ((i + n) % w) = v.getLsbD i := by
  have hn : n % w < w := Nat.mod_lt n (by omega)
  rw [rotl_eq_rotateLeft, BitVec.getLsbD_rotateLeft, add_mod_eq_ite_of_lt n hi]
  split
  case isTrue h => simp [h]
  case isFalse h =>
    have hlow : i + n % w - w < n % w := by omega
    have hback : w - n % w + (i + n % w - w) = i := by omega
    simp [hlow, hback]

/-- `rotr` moves bit `(i + n) mod w` to bit i (41 R151). -/
theorem getLsbD_rotr {w i : Nat} (v : BitVec w) (n : Nat) (hi : i < w) :
    (rotr v n).getLsbD i = v.getLsbD ((i + n) % w) := by
  have hn : n % w < w := Nat.mod_lt n (by omega)
  rw [rotr_eq_rotateRight, BitVec.getLsbD_rotateRight, add_mod_eq_ite_of_lt n hi]
  split
  case isTrue h =>
    have hlow : i < w - n % w := by omega
    simp [hlow, Nat.add_comm]
  case isFalse h =>
    have hhigh : ¬ i < w - n % w := by omega
    have hback : i - (w - n % w) = i + n % w - w := by omega
    simp [hhigh, hi, hback]

@[simp] theorem rotr_rotl {w : Nat} (v : BitVec w) (n : Nat) : rotr (rotl v n) n = v :=
  BitVec.eq_of_getLsbD_eq fun _ hi => (getLsbD_rotr _ n hi).trans (getLsbD_rotl_add_mod v n hi)

/-- `rotl` with a fixed amount is injective on the finitely many words, so its left inverse is its right inverse. -/
@[simp] theorem rotl_rotr {w : Nat} (v : BitVec w) (n : Nat) : rotl (rotr v n) n = v := by
  have hleft : Function.LeftInverse (fun u : BitVec w => rotr u n) (fun u => rotl u n) := fun u => rotr_rotl u n
  exact hleft.rightInverse_of_surjective (Finite.surjective_of_injective hleft.injective) v

/-- Settles O22: the inverses come from the movement of the bits, the special amounts from the amount mod w. -/
theorem rotationsInvertEachOther : Obligations.RotationsInvertEachOther := by
  unfold Obligations.RotationsInvertEachOther
  exact fun sw v n => ⟨rotr_rotl v n, rotl_rotr v n, rotl_of_mod_eq_zero v (Nat.zero_mod _),
    rotl_of_mod_eq_zero v (Nat.mod_self _), rotl_congr_mod v (Nat.add_mod_left _ _),
    fun _ hi => getLsbD_rotl_add_mod v n hi⟩

end Sys2Proof
end

section
/-! PROOFS. 41 R153 to R155: `Dec` inverts `Enc`, round by round. -/

namespace Sys2Proof

/-! ### One round -/

/-- A round of `Dec` undoes the same round of `Enc`: B first, whose rotation amount is the A that `Enc` ended with. -/
theorem decRound_encRound {w : Nat} (S : List (BitVec w)) (ab : BitVec w × BitVec w) (i : Nat) :
    decRound S (encRound S ab i) i = ab := by
  simp only [decRound, encRound, add_sub_cancel_right, rotr_rotl, xor_xor_cancel_comm, xor_cancel_right]

/-- A round of `Enc` undoes the same round of `Dec`: A first, whose rotation amount is the B that `Dec` found. -/
theorem encRound_decRound {w : Nat} (S : List (BitVec w)) (ab : BitVec w × BitVec w) (i : Nat) :
    encRound S (decRound S ab i) i = ab := by
  simp only [decRound, encRound, xor_cancel_right, rotl_rotr, xor_xor_cancel_comm_assoc, sub_add_cancel]

/-! ### All rounds -/

/-- Steps undone one by one in the reverse order are all undone. -/
theorem foldl_reverse_foldl {α β : Type*} {f g : β → α → β} (h : ∀ b a, g (f b a) a = b) (l : List α) (b : β) :
    l.reverse.foldl g (l.foldl f b) = b := by
  induction l generalizing b with
  | nil => rfl
  | cons a l ih =>
    rw [List.reverse_cons, List.foldl_append, List.foldl_cons (l := l), ih]
    exact h b a

theorem decWords_encWords {w : Nat} (rounds : Nat) (S : List (BitVec w)) (ab : BitVec w × BitVec w) :
    decWords rounds S (encWords rounds S ab) = ab := by
  simp only [decWords, encWords, foldl_reverse_foldl (decRound_encRound S), BitVec.add_sub_cancel]

theorem encWords_decWords {w : Nat} (rounds : Nat) (S : List (BitVec w)) (ab : BitVec w × BitVec w) :
    encWords rounds S (decWords rounds S ab) = ab := by
  have hrounds := foldl_reverse_foldl (encRound_decRound S) (List.range' 1 rounds).reverse ab
  rw [List.reverse_reverse] at hrounds
  simp only [decWords, encWords, BitVec.sub_add_cancel, hrounds]

/-! ### Blocks -/

theorem dec_enc (sw : WordSize) (rounds : Nat) (S : List (BitVec sw.bits)) {x : List Byte}
    (h : x.length = sw.blockBytes) : dec sw rounds S (enc sw rounds S x) = x := by
  rw [dec, enc, splitBlock_joinBlock, decWords_encWords, joinBlock_splitBlock sw x h]

theorem enc_dec (sw : WordSize) (rounds : Nat) (S : List (BitVec sw.bits)) {y : List Byte}
    (h : y.length = sw.blockBytes) : enc sw rounds S (dec sw rounds S y) = y := by
  rw [enc, dec, splitBlock_joinBlock, encWords_decWords, joinBlock_splitBlock sw y h]

/-- Settles O25: the words of a block determine it, and each round inverts the other's. -/
theorem decryptionInvertsEncryption : Obligations.DecryptionInvertsEncryption := by
  unfold Obligations.DecryptionInvertsEncryption
  exact fun sw rounds S _ h => ⟨dec_enc sw rounds S h, enc_dec sw rounds S h⟩

end Sys2Proof
end

section
/-! PROOFS. 41 R160 to R162 and 60 R271: an ENCBLK or DECBLK that passes its checks commits its output block, and the
second of them restores the block of the first. -/

namespace Sys2Proof.Machine

/-! ### The commit of an output -/

/-- The commit stores the output at DST_L and leaves the rest of BUF. -/
theorem State.stores_commitOutput (s : State) (out : List Byte) : s.Stores (s.commitOutput out) s.dstL out :=
  s.stores_writeRange s.dstL out

theorem State.commitOutput_outlen_toNat (s : State) {out : List Byte} (h : out.length < 2 ^ 32) :
    (s.commitOutput out).outlen.toNat = out.length := Nat.mod_eq_of_lt h

theorem State.commitOutput_succeeded (s : State) (out : List Byte) : s.Succeeded (s.commitOutput out) :=
  ⟨rfl, rfl, rfl, rfl⟩

theorem State.commitOutput_sameControl (s : State) (out : List Byte) : s.SameControl (s.commitOutput out) :=
  ⟨rfl, rfl, rfl, rfl, rfl, rfl, rfl, rfl, rfl, rfl, rfl, rfl, rfl⟩

theorem State.commitOutput_sameSchedule (s : State) (out : List Byte) : s.SameSchedule (s.commitOutput out) :=
  ⟨rfl, rfl⟩

/-- OUTLEN of a committed block is bb. -/
theorem State.commitOutput_outlen_of_block (s : State) {out : List Byte} (h : out.length = s.bb) :
    (s.commitOutput out).outlen.toNat = s.bb := by
  have hle := s.bb_le
  rw [s.commitOutput_outlen_toNat (by omega), h]

/-! ### ENCBLK and DECBLK -/

@[simp] theorem State.encBlock_length (s : State) (x : List Byte) : (s.encBlock x).length = s.bb := enc_length _ _ _ x

@[simp] theorem State.decBlock_length (s : State) (y : List Byte) : (s.decBlock y).length = s.bb := dec_length _ _ _ y

/-- The checks of ENCBLK and DECBLK pass with a schedule held, one block of input, and both ranges inside BUF. -/
theorem State.firstError_blockChecks_eq_none_iff (s : State) :
    firstError s.blockChecks = none ↔
      s.schedValid = true ∧ s.lenL = s.bb ∧ s.inBuf s.srcL s.bb ∧ s.inBuf s.dstL s.bb := by
  simp [firstError_eq_none_iff, State.blockChecks]

theorem exec_encblk_of_input {s : State} {x : List Byte} (hchecks : firstError s.blockChecks = none)
    (hx : s.InputIs s.srcL s.bb x) : exec .encblk s = .next (s.commitOutput (s.encBlock x)) :=
  State.runCommand_of_input hchecks ((s.inputIs_iff _ _ x).1 hx) _

theorem exec_decblk_of_input {s : State} {y : List Byte} (hchecks : firstError s.blockChecks = none)
    (hy : s.InputIs s.srcL s.bb y) : exec .decblk s = .next (s.commitOutput (s.decBlock y)) :=
  State.runCommand_of_input hchecks ((s.inputIs_iff _ _ y).1 hy) _

/-- Settles O10: the next state is the commit of `State.encBlock`. -/
theorem encblkStoresTheCiphertext : Obligations.EncblkStoresTheCiphertext := by
  unfold Obligations.EncblkStoresTheCiphertext
  intro s x hvalid hlen hsrc hdst hx
  have hchecks := s.firstError_blockChecks_eq_none_iff.2 ⟨hvalid, hlen, hsrc, hdst⟩
  exact ⟨_, s.encBlock x, exec_encblk_of_input hchecks hx, rfl, s.encBlock_length x, s.stores_commitOutput _,
    s.commitOutput_outlen_of_block (s.encBlock_length x), s.commitOutput_succeeded _, s.commitOutput_sameControl _,
    s.commitOutput_sameSchedule _, rfl⟩

/-- Settles O11: the next state is the commit of `State.decBlock`. -/
theorem decblkStoresThePlaintext : Obligations.DecblkStoresThePlaintext := by
  unfold Obligations.DecblkStoresThePlaintext
  intro s y hvalid hlen hsrc hdst hy
  have hchecks := s.firstError_blockChecks_eq_none_iff.2 ⟨hvalid, hlen, hsrc, hdst⟩
  exact ⟨_, s.decBlock y, exec_decblk_of_input hchecks hy, rfl, s.decBlock_length y, s.stores_commitOutput _,
    s.commitOutput_outlen_of_block (s.decBlock_length y), s.commitOutput_succeeded _, s.commitOutput_sameControl _,
    s.commitOutput_sameSchedule _, rfl⟩

/-! ### DECBLK after ENCBLK -/

/-- The state in which a DECBLK to offset `d` runs on the ciphertext that ENCBLK has stored. -/
def State.decblkAfterEncblk (s : State) (x : List Byte) (d : Word) : State :=
  { s.commitOutput (s.encBlock x) with latch := { s.latch with src := s.latch.dst, dst := d } }

/-- Its input is the ciphertext. -/
theorem State.inputIs_decblkAfterEncblk (s : State) (x : List Byte) (d : Word) :
    (s.decblkAfterEncblk x d).InputIs s.dstL s.bb (s.encBlock x) := by
  obtain ⟨hstored, -⟩ := s.stores_commitOutput (s.encBlock x)
  rw [s.encBlock_length x] at hstored
  exact ⟨s.encBlock_length x, hstored⟩

/-- Under the same schedule, it decrypts to the block that ENCBLK took. -/
theorem State.decBlock_decblkAfterEncblk (s : State) {x : List Byte} (d : Word) (h : x.length = s.bb) :
    (s.decblkAfterEncblk x d).decBlock (s.encBlock x) = x := dec_enc _ _ _ h

/-- Settles O33: the DECBLK is clean, reads the ciphertext, and commits its decryption. -/
theorem decblkAfterEncblkRestoresTheBlock : Obligations.DecblkAfterEncblkRestoresTheBlock := by
  unfold Obligations.DecblkAfterEncblkRestoresTheBlock
  intro s t x d hclean hx hexec hd
  have hchecks : firstError s.blockChecks = none := (s.firstError_checks_eq_none_iff .encblk).2 hclean
  obtain ⟨hvalid, hlen, -, hdst⟩ := s.firstError_blockChecks_eq_none_iff.1 hchecks
  rw [exec_encblk_of_input hchecks hx] at hexec
  cases hexec
  have hchecks' : firstError (s.decblkAfterEncblk x d).blockChecks = none :=
    (State.firstError_blockChecks_eq_none_iff _).2 ⟨hvalid, hlen, hdst, hd⟩
  have hdecblk := exec_decblk_of_input hchecks' (s.inputIs_decblkAfterEncblk x d)
  obtain ⟨hxlen, -⟩ := hx
  rw [s.decBlock_decblkAfterEncblk d hxlen] at hdecblk
  obtain ⟨hstored, -⟩ := (s.decblkAfterEncblk x d).stores_commitOutput x
  rw [hxlen] at hstored
  exact ⟨_, hdecblk, ⟨hxlen, hstored⟩, (s.decblkAfterEncblk x d).commitOutput_outlen_of_block hxlen⟩

end Sys2Proof.Machine
end

section
/-! PROOFS. 42 R180 to R184: the streaming codec as a function. `CodecEnc` is the blocks of the padded stream, each
encrypted, so its length is whole blocks, the input's length is not recorded in it, and `CodecDec` undoes it. -/

namespace Sys2Proof

/-! ### Whole blocks -/

theorem ceilDiv_eq {a b : Nat} (hb : 0 < b) : ceilDiv a b = (a + b - 1) / b := by
  rw [ceilDiv, Nat.add_sub_assoc hb]

theorem le_ceilDiv_mul {b : Nat} (a : Nat) (hb : 0 < b) : a ≤ ceilDiv a b * b := by
  have h : a + (b - 1) < (a + (b - 1)) / b * b + b := Nat.lt_div_mul_add hb
  rw [ceilDiv]
  omega

theorem ceilDiv_mul_self (c : Nat) {b : Nat} (hb : 0 < b) : ceilDiv (c * b) b = c := by
  rw [ceilDiv, Nat.mul_comm, Nat.mul_add_div hb, Nat.div_eq_of_lt (by omega), Nat.add_zero]

/-! ### Padding -/

@[simp] theorem padChunk_length (n : Nat) (x : List Byte) : (padChunk n x).length = max n x.length := by
  rw [padChunk, List.length_append, zeros_length]
  omega

/-- A byte string that is long enough is not padded. -/
theorem padChunk_of_le {n : Nat} {x : List Byte} (h : n ≤ x.length) : padChunk n x = x := by
  rw [padChunk, Nat.sub_eq_zero_of_le h, zeros_zero, List.append_nil]

/-- A part of a padded byte string is the padded part of it. -/
theorem slice_padChunk (x : List Byte) {n a b : Nat} (h : b ≤ n) :
    slice (padChunk n x) a b = padChunk (b - a) (slice x a b) := by
  have hfill : min (b - a - (x.length - a)) (n - x.length - (a - x.length)) = b - a - min (b - a) (x.length - a) := by
    omega
  simp only [slice, padChunk, zeros, List.drop_append, List.take_append, List.drop_replicate, List.take_replicate,
    List.length_drop, List.length_take, hfill]

/-! ### Streams of blocks -/

/-- A stream is the blocks before block `k`, block `k` itself, and the rest. -/
theorem exists_flatMap_range_eq_append {α : Type*} (f : Nat → List α) {k m : Nat} (h : k < m) :
    ∃ rest, (List.range m).flatMap f = (List.range k).flatMap f ++ (f k ++ rest) := by
  obtain ⟨d, rfl⟩ := Nat.exists_eq_add_of_le (Nat.succ_le_of_lt h)
  refine ⟨((List.range d).map (k + 1 + ·)).flatMap f, ?_⟩
  rw [List.range_add, List.flatMap_append, List.range_succ, List.flatMap_append, List.flatMap_singleton,
    List.append_assoc]

theorem slice_append_middle (p q r : List Byte) : slice (p ++ (q ++ r)) p.length (p.length + q.length) = q := by
  simp [slice]

/-- In a stream of blocks of one length, block `k` stands at `k` times that length. -/
theorem slice_flatMap_range {f : Nat → List Byte} {n k m : Nat} (hf : ∀ k, (f k).length = n) (h : k < m) :
    slice ((List.range m).flatMap f) (k * n) ((k + 1) * n) = f k := by
  obtain ⟨rest, hsplit⟩ := exists_flatMap_range_eq_append f h
  have hbefore : ((List.range k).flatMap f).length = k * n := by simp [List.length_flatMap, hf]
  have hmiddle := slice_append_middle ((List.range k).flatMap f) (f k) rest
  rwa [hbefore, hf, ← Nat.succ_mul, ← hsplit] at hmiddle

/-- The first `c` blocks of a byte string are its first `c * n` bytes. -/
theorem flatMap_range_slice (x : List Byte) (n c : Nat) :
    (List.range c).flatMap (fun k => slice x (k * n) ((k + 1) * n)) = x.take (c * n) := by
  induction c with
  | zero => simp
  | succ c ih =>
    have hblock : (c + 1) * n - c * n = n := by rw [Nat.succ_mul, Nat.add_sub_cancel_left]
    rw [List.range_succ, List.flatMap_append, ih, List.flatMap_singleton, slice, hblock, Nat.succ_mul, List.take_add]

/-! ### The padded stream -/

/-- The stream filled with zeros to whole blocks, as `CodecEnc` encrypts it (42 R180). -/
def padStream (sw : WordSize) (data : List Byte) : List Byte :=
  padChunk (ceilDiv data.length sw.blockBytes * sw.blockBytes) data

theorem padStream_eq (sw : WordSize) (data : List Byte) : padStream sw data =
    data ++ zeros ((data.length + sw.blockBytes - 1) / sw.blockBytes * sw.blockBytes - data.length) := by
  rw [padStream, padChunk, ceilDiv_eq sw.blockBytes_pos]

theorem padStream_length (sw : WordSize) (data : List Byte) :
    (padStream sw data).length = ceilDiv data.length sw.blockBytes * sw.blockBytes := by
  rw [padStream, padChunk_length, Nat.max_eq_left (le_ceilDiv_mul _ sw.blockBytes_pos)]

/-- A padded stream needs no padding. -/
theorem padStream_padStream (sw : WordSize) (data : List Byte) :
    padStream sw (padStream sw data) = padStream sw data := by
  have hlen := padStream_length sw data
  rw [padStream, hlen, ceilDiv_mul_self _ sw.blockBytes_pos, padChunk_of_le hlen.ge]

/-- Block `k` of the padded stream is the padded chunk `k` (42 R180). -/
theorem slice_padStream {sw : WordSize} (data : List Byte) {k : Nat} (hk : k < ceilDiv data.length sw.blockBytes) :
    slice (padStream sw data) (k * sw.blockBytes) ((k + 1) * sw.blockBytes) =
      padChunk sw.blockBytes (slice data (k * sw.blockBytes) ((k + 1) * sw.blockBytes)) := by
  rw [padStream, slice_padChunk data (Nat.mul_le_mul_right _ hk), Nat.succ_mul, Nat.add_sub_cancel_left]

theorem slice_padStream_length {sw : WordSize} (data : List Byte) {k : Nat}
    (hk : k < ceilDiv data.length sw.blockBytes) :
    (slice (padStream sw data) (k * sw.blockBytes) ((k + 1) * sw.blockBytes)).length = sw.blockBytes := by
  have hchunk : (slice data (k * sw.blockBytes) ((k + 1) * sw.blockBytes)).length ≤ sw.blockBytes := by
    rw [slice_length, Nat.succ_mul]
    omega
  rw [slice_padStream data hk, padChunk_length, Nat.max_eq_left hchunk]

/-! ### CodecEnc -/

/-- `CodecEnc` encrypts the blocks of the padded stream (42 R180). -/
theorem codecEnc_eq_flatMap_padStream (sw : WordSize) (rounds : Nat) (S : List (BitVec sw.bits)) (data : List Byte) :
    codecEnc sw rounds S data = (List.range (ceilDiv data.length sw.blockBytes)).flatMap fun k =>
      enc sw rounds S (slice (padStream sw data) (k * sw.blockBytes) ((k + 1) * sw.blockBytes)) :=
  List.flatMap_congr fun _ hk => congrArg (enc sw rounds S) (slice_padStream data (List.mem_range.1 hk)).symm

/-- The padded stream encrypts as the stream does (42 R181). -/
theorem codecEnc_padStream (sw : WordSize) (rounds : Nat) (S : List (BitVec sw.bits)) (data : List Byte) :
    codecEnc sw rounds S (padStream sw data) = codecEnc sw rounds S data := by
  rw [codecEnc_eq_flatMap_padStream, padStream_padStream, padStream_length, ceilDiv_mul_self _ sw.blockBytes_pos,
    codecEnc_eq_flatMap_padStream sw rounds S data]

theorem codecEnc_nil (sw : WordSize) (rounds : Nat) (S : List (BitVec sw.bits)) : codecEnc sw rounds S [] = [] := by
  have hzero : ceilDiv 0 sw.blockBytes = 0 := by simpa using ceilDiv_mul_self 0 sw.blockBytes_pos
  rw [codecEnc, List.length_nil, hzero, List.range_zero, List.flatMap_nil]

/-- Settles O26: the output is whole blocks, and the padded stream has the same. -/
theorem codecEncLengthIsWholeBlocks : Obligations.CodecEncLengthIsWholeBlocks := by
  unfold Obligations.CodecEncLengthIsWholeBlocks
  rintro sw rounds S data m rfl
  refine ⟨?_, ?_, ?_⟩
  · rw [codecEnc_length, ceilDiv_eq sw.blockBytes_pos]
  · rintro rfl
    exact codecEnc_nil sw rounds S
  · rw [← padStream_eq, codecEnc_padStream]

/-! ### CodecDec -/

/-- With strip mode off every block keeps its length (42 R182). -/
theorem codecDec_false_length (sw : WordSize) (rounds : Nat) (S : List (BitVec sw.bits)) (data : List Byte) :
    (codecDec sw rounds S data false).length = data.length / sw.blockBytes * sw.blockBytes := by
  simp [codecDec, List.length_flatMap]

/-- Block `k` of `CodecEnc` is block `k` of the padded stream, encrypted (42 R180). -/
theorem slice_codecEnc (sw : WordSize) (rounds : Nat) (S : List (BitVec sw.bits)) (data : List Byte) {k : Nat}
    (hk : k < ceilDiv data.length sw.blockBytes) :
    slice (codecEnc sw rounds S data) (k * sw.blockBytes) ((k + 1) * sw.blockBytes) =
      enc sw rounds S (slice (padStream sw data) (k * sw.blockBytes) ((k + 1) * sw.blockBytes)) := by
  rw [codecEnc_eq_flatMap_padStream, slice_flatMap_range (fun _ => enc_length _ _ _ _) hk]

/-- `CodecDec` with strip mode off decrypts the blocks of `CodecEnc` to those of the padded stream (42 R184). -/
theorem codecDec_codecEnc (sw : WordSize) (rounds : Nat) (S : List (BitVec sw.bits)) (data : List Byte) :
    codecDec sw rounds S (codecEnc sw rounds S data) false = padStream sw data := by
  have hblocks : (codecEnc sw rounds S data).length / sw.blockBytes = ceilDiv data.length sw.blockBytes := by
    rw [codecEnc_length, Nat.mul_div_cancel _ sw.blockBytes_pos]
  calc codecDec sw rounds S (codecEnc sw rounds S data) false
    _ = (List.range (ceilDiv data.length sw.blockBytes)).flatMap fun k =>
          dec sw rounds S (slice (codecEnc sw rounds S data) (k * sw.blockBytes) ((k + 1) * sw.blockBytes)) := by
      rw [← hblocks]
      rfl
    _ = (List.range (ceilDiv data.length sw.blockBytes)).flatMap fun k =>
          slice (padStream sw data) (k * sw.blockBytes) ((k + 1) * sw.blockBytes) := by
      refine List.flatMap_congr fun k hk => ?_
      have hk := List.mem_range.1 hk
      rw [slice_codecEnc sw rounds S data hk, dec_enc sw rounds S (slice_padStream_length data hk)]
    _ = padStream sw data := by
      rw [flatMap_range_slice, List.take_of_length_le (padStream_length sw data).le]

/-- Settles O27: the decrypted stream is the padded one. -/
theorem codecRoundTripPadsWithZeros : Obligations.CodecRoundTripPadsWithZeros := by
  unfold Obligations.CodecRoundTripPadsWithZeros
  intro sw rounds S data
  rw [codecDec_codecEnc, padStream_eq]

end Sys2Proof
end

section
/-! PROOFS. 42 R185, R190, R191 and 60 R271: a codec command that passes its checks commits its output stream, whose
blocks stand in BUF with no gaps between them. -/

namespace Sys2Proof.Machine

/-! ### The checks -/

/-- The checks of CODEC_ENC pass with a schedule held and both ranges inside BUF, disjoint or at one offset. -/
theorem State.firstError_codecEncChecks_eq_none_iff (s : State) :
    firstError s.codecEncChecks = none ↔ s.schedValid = true ∧ s.inBuf s.srcL s.lenL ∧ s.inBuf s.dstL s.encLen ∧
      (Overlaps s.srcL s.lenL s.dstL s.encLen → s.srcL = s.dstL) := by
  simp [firstError_eq_none_iff, State.codecEncChecks]

/-- Those of CODEC_DEC and CODEC_DEC.STRIP ask for an input of whole blocks too. -/
theorem State.firstError_codecDecChecks_eq_none_iff (s : State) :
    firstError s.codecDecChecks = none ↔ s.schedValid = true ∧ s.lenL % s.bb = 0 ∧ s.inBuf s.srcL s.lenL ∧
      s.inBuf s.dstL s.lenL ∧ (Overlaps s.srcL s.lenL s.dstL s.lenL → s.srcL = s.dstL) := by
  simp [firstError_eq_none_iff, State.codecDecChecks]

/-! ### The next states -/

theorem exec_codecEnc_of_input {s : State} {x : List Byte} (hchecks : firstError s.codecEncChecks = none)
    (hx : s.InputIs s.srcL s.lenL x) : exec .codecEnc s = .next (s.commitOutput (s.encStream x)) :=
  State.runCommand_of_input hchecks ((s.inputIs_iff _ _ x).1 hx) _

theorem exec_codecDec_of_input {s : State} {x : List Byte} (hchecks : firstError s.codecDecChecks = none)
    (hx : s.InputIs s.srcL s.lenL x) : exec .codecDec s = .next (s.commitOutput (s.decStream x false)) :=
  State.runCommand_of_input hchecks ((s.inputIs_iff _ _ x).1 hx) _

theorem exec_codecDecStrip_of_input {s : State} {x : List Byte} (hchecks : firstError s.codecDecChecks = none)
    (hx : s.InputIs s.srcL s.lenL x) : exec .codecDecStrip s = .next (s.commitOutput (s.decStream x true)) :=
  State.runCommand_of_input hchecks ((s.inputIs_iff _ _ x).1 hx) _

/-! ### Lengths -/

theorem State.encStream_length {s : State} {x : List Byte} (hx : x.length = s.lenL) :
    (s.encStream x).length = s.encLen := by
  rw [State.encStream, codecEnc_length, hx]
  rfl

/-- With strip mode off, whole blocks decrypt to as many bytes (42 R182). -/
theorem State.decStream_false_length {s : State} {x : List Byte} (hx : x.length = s.lenL)
    (hwhole : s.lenL % s.bb = 0) : (s.decStream x false).length = s.lenL := by
  rw [State.decStream, codecDec_false_length, hx]
  exact Nat.div_mul_cancel (Nat.dvd_of_mod_eq_zero hwhole)

theorem State.decStream_length_le {s : State} {x : List Byte} (hx : x.length = s.lenL) (strip : Bool) :
    (s.decStream x strip).length ≤ s.lenL := hx ▸ codecDec_length_le _ _ _ x strip

/-- OUTLEN of a committed output no longer than LEN_L, which is a 32-bit latch. -/
theorem State.commitOutput_outlen_of_le_lenL (s : State) {out : List Byte} (h : out.length ≤ s.lenL) :
    (s.commitOutput out).outlen.toNat = out.length :=
  s.commitOutput_outlen_toNat (h.trans_lt s.latch.len.isLt)

/-! ### CODEC_ENC, CODEC_DEC and CODEC_DEC.STRIP -/

/-- Settles O12: the next state is the commit of `State.encStream`. -/
theorem codecEncStoresTheCiphertext : Obligations.CodecEncStoresTheCiphertext := by
  unfold Obligations.CodecEncStoresTheCiphertext
  intro s x m hvalid hm hsrc hdst hoverlap hbuf hx
  obtain rfl : m = s.encLen := hm
  have hchecks := s.firstError_codecEncChecks_eq_none_iff.2 ⟨hvalid, hsrc, hdst, hoverlap⟩
  have hlen := State.encStream_length hx.1
  have houtlen := s.commitOutput_outlen_toNat (out := s.encStream x) (by omega)
  exact ⟨_, s.encStream x, exec_codecEnc_of_input hchecks hx, rfl, hlen, s.stores_commitOutput _, houtlen.trans hlen,
    s.commitOutput_succeeded _, s.commitOutput_sameControl _, s.commitOutput_sameSchedule _, rfl⟩

/-- Settles O13: the next state is the commit of `State.decStream` with strip mode off. -/
theorem codecDecStoresThePlaintext : Obligations.CodecDecStoresThePlaintext := by
  unfold Obligations.CodecDecStoresThePlaintext
  intro s x hvalid hwhole hsrc hdst hoverlap hx
  have hchecks := s.firstError_codecDecChecks_eq_none_iff.2 ⟨hvalid, hwhole, hsrc, hdst, hoverlap⟩
  have hlen := State.decStream_false_length hx.1 hwhole
  have houtlen : (s.commitOutput (s.decStream x false)).outlen = s.latch.len :=
    BitVec.eq_of_toNat_eq ((s.commitOutput_outlen_of_le_lenL hlen.le).trans hlen)
  exact ⟨_, s.decStream x false, exec_codecDec_of_input hchecks hx, rfl, hlen, s.stores_commitOutput _, houtlen,
    s.commitOutput_succeeded _, s.commitOutput_sameControl _, s.commitOutput_sameSchedule _, rfl⟩

/-- Settles O14: the next state is the commit of `State.decStream` with strip mode on. -/
theorem codecDecStripStoresTheStripped : Obligations.CodecDecStripStoresTheStripped := by
  unfold Obligations.CodecDecStripStoresTheStripped
  intro s x hvalid hwhole hsrc hdst hoverlap hx
  have hchecks := s.firstError_codecDecChecks_eq_none_iff.2 ⟨hvalid, hwhole, hsrc, hdst, hoverlap⟩
  have hlen := State.decStream_length_le hx.1 true
  exact ⟨_, s.decStream x true, exec_codecDecStrip_of_input hchecks hx, rfl, hlen, s.stores_commitOutput _,
    s.commitOutput_outlen_of_le_lenL hlen, s.commitOutput_succeeded _, s.commitOutput_sameControl _,
    s.commitOutput_sameSchedule _, rfl⟩

/-! ### The packing of the output blocks -/

/-- A committed stream of blocks is packed with no gaps: block `k` begins where the blocks before it end (42 R191). -/
theorem State.read_commitOutput_block (s : State) (f : Nat → List Byte) {k m j : Nat} (hk : k < m)
    (hj : j < (f k).length) :
    Memory.read (s.commitOutput ((List.range m).flatMap f)).buf
      (s.dstL + ((List.range k).map fun l => (f l).length).sum + j) = (f k)[j]? := by
  obtain ⟨rest, hsplit⟩ := exists_flatMap_range_eq_append f hk
  obtain ⟨hstored, -⟩ := s.stores_commitOutput ((List.range m).flatMap f)
  rw [← List.length_flatMap, Nat.add_assoc, hstored, hsplit, List.getElem?_append_right (Nat.le_add_right _ _),
    Nat.add_sub_cancel_left, List.getElem?_append_left hj]
  rw [hsplit, List.length_append, List.length_append]
  omega

/-- In a committed stream of blocks of one length, block `k` begins at `k` times that length (42 R191). -/
theorem State.read_commitOutput_block_of_length (s : State) {f : Nat → List Byte} {n k m j : Nat}
    (hf : ∀ l, (f l).length = n) (hk : k < m) (hj : j < n) :
    Memory.read (s.commitOutput ((List.range m).flatMap f)).buf (s.dstL + k * n + j) = (f k)[j]? := by
  have hread := s.read_commitOutput_block f hk (hj.trans_eq (hf k).symm)
  have hbefore : ((List.range k).map fun l => (f l).length).sum = k * n := by simp [hf]
  rwa [hbefore] at hread

/-- With strip mode off the stream is the decrypted blocks (42 R182). -/
theorem State.decStream_false_eq_flatMap {s : State} {x : List Byte} (hx : x.length = s.lenL) :
    s.decStream x false =
      (List.range (s.lenL / s.bb)).flatMap fun k => s.decBlock (slice x (k * s.bb) ((k + 1) * s.bb)) := by
  rw [← hx]
  rfl

/-- With strip mode on the stream is the decrypted blocks, each stripped (42 R183). -/
theorem State.decStream_true_eq_flatMap {s : State} {x : List Byte} (hx : x.length = s.lenL) :
    s.decStream x true =
      (List.range (s.lenL / s.bb)).flatMap fun k => rstrip0 (s.decBlock (slice x (k * s.bb) ((k + 1) * s.bb))) := by
  rw [← hx]
  rfl

/-- Settles O28: both commits store a stream of `LEN_L / bb` blocks, those of CODEC_DEC all one block long. -/
theorem stripPacksTheStrippedBlocks : Obligations.StripPacksTheStrippedBlocks := by
  unfold Obligations.StripPacksTheStrippedBlocks
  intro s x block hclean hx hblock
  have hchecks : firstError s.codecDecChecks = none := (s.firstError_checks_eq_none_iff .codecDecStrip).2 hclean
  obtain ⟨-, hwhole, -⟩ := s.firstError_codecDecChecks_eq_none_iff.1 hchecks
  have hxlen := hx.1
  obtain rfl : block = fun k => rstrip0 (s.decBlock (slice x (k * s.bb) ((k + 1) * s.bb))) := funext hblock
  constructor
  · have hlen := State.decStream_length_le hxlen true
    have houtlen := s.commitOutput_outlen_of_le_lenL hlen
    refine ⟨_, exec_codecDecStrip_of_input hchecks hx, ?_, houtlen.trans_le hlen, fun k hk j hj => ?_⟩
    · rw [houtlen, State.decStream_true_eq_flatMap hxlen, List.length_flatMap]
    · rw [State.decStream_true_eq_flatMap hxlen]
      exact s.read_commitOutput_block _ hk hj
  · have hlen := State.decStream_false_length hxlen hwhole
    have houtlen := s.commitOutput_outlen_of_le_lenL hlen.le
    refine ⟨_, exec_codecDec_of_input hchecks hx, houtlen.trans hlen, fun k hk j hj => ?_⟩
    rw [State.decStream_false_eq_flatMap hxlen]
    exact s.read_commitOutput_block_of_length (fun _ => s.decBlock_length _) hk hj

end Sys2Proof.Machine
end

section
/-! PROOFS. 43 R210, R211, R220 and R222: the padded message is whole blocks with the fewest zeros, and the chaining
value of `HashFn`, block by block. -/

namespace Sys2Proof

/-! ### The padding -/

theorem padZeros_lt {bb : Nat} (n : Nat) (hbb : 0 < bb) : padZeros bb n < bb := Nat.mod_lt _ hbb

/-- The zeros fill the last block (43 R210). -/
theorem dvd_add_padZeros {bb : Nat} (n : Nat) (hbb : 0 < bb) : bb ∣ n + 9 + padZeros bb n := by
  have hlt : (n + 9) % bb < bb := Nat.mod_lt _ hbb
  rw [Nat.dvd_iff_mod_eq_zero, padZeros, Nat.add_mod_mod, ← Nat.mod_add_mod, Nat.add_sub_cancel' hlt.le, Nat.mod_self]

/-- No fewer zeros fill the last block (43 R210): two fills differ by whole blocks. -/
theorem padZeros_le {bb n z : Nat} (hbb : 0 < bb) (hdvd : bb ∣ n + 9 + z) : padZeros bb n ≤ z := by
  by_contra hlt
  have hdiff : bb ∣ padZeros bb n - z := by
    have hsub := Nat.dvd_sub (dvd_add_padZeros n hbb) hdvd
    rwa [Nat.add_sub_add_left] at hsub
  have hle := Nat.le_of_dvd (by omega) hdiff
  have := padZeros_lt n hbb
  omega

/-! ### The padded message -/

theorem hashPad_length (sw : WordSize) (data : List Byte) :
    (hashPad sw data).length = data.length + 9 + padZeros sw.blockBytes data.length := by
  simp only [hashPad, List.length_append, List.length_singleton, zeros_length, leBytes_length]
  omega

theorem prefix_hashPad (sw : WordSize) (data : List Byte) : data <+: hashPad sw data := by
  rw [hashPad, List.append_assoc, List.append_assoc]
  exact List.prefix_append _ _

/-- The padded message ends with the bit length of the data (43 R210). -/
theorem drop_hashPad (sw : WordSize) (data : List Byte) :
    (hashPad sw data).drop ((hashPad sw data).length - 8) = leBytes (8 * data.length) 8 := by
  refine List.drop_left' ?_
  rw [hashPad, List.length_append (bs := leBytes _ _), leBytes_length, Nat.add_sub_cancel]

/-- Settles O29: the length of the padded message is that of the data, 9, and the least number of zeros. -/
theorem paddedMessageIsWholeBlocks : Obligations.PaddedMessageIsWholeBlocks := by
  unfold Obligations.PaddedMessageIsWholeBlocks
  intro sw data
  have hlen := hashPad_length sw data
  refine ⟨?_, by omega, prefix_hashPad sw data, drop_hashPad sw data, fun hbound => ?_, fun z hz => ?_⟩
  · rw [hlen]
    exact Nat.mod_eq_zero_of_dvd (dvd_add_padZeros _ sw.blockBytes_pos)
  · rw [drop_hashPad, leNat_leBytes]
    exact Nat.mod_eq_of_lt (by omega)
  · have hdvd : sw.blockBytes ∣ data.length + 9 + z := Nat.dvd_of_mod_eq_zero (by rw [← hz]; congr 1; omega)
    have hle := padZeros_le sw.blockBytes_pos hdvd
    omega

/-! ### The chaining value -/

/-- The chaining value of `HashFn` after the first `n` blocks of a padded message (43 R222). -/
def chainAfter (p : Params) (sw : WordSize) (rounds : Nat) (padded : List Byte) (n : Nat) : List Byte :=
  (List.range n).foldl
    (fun h k => compress p sw rounds h (slice padded (k * sw.blockBytes) ((k + 1) * sw.blockBytes)))
    (zeros sw.blockBytes)

theorem chainAfter_zero (p : Params) (sw : WordSize) (rounds : Nat) (padded : List Byte) :
    chainAfter p sw rounds padded 0 = zeros sw.blockBytes := rfl

theorem chainAfter_succ (p : Params) (sw : WordSize) (rounds : Nat) (padded : List Byte) (n : Nat) :
    chainAfter p sw rounds padded (n + 1) = compress p sw rounds (chainAfter p sw rounds padded n)
      (slice padded (n * sw.blockBytes) ((n + 1) * sw.blockBytes)) := by
  simp only [chainAfter, List.range_succ, List.foldl_append, List.foldl_cons, List.foldl_nil]

/-- After the last block the chaining value is the hash (43 R222). -/
theorem chainAfter_hashPad (p : Params) (sw : WordSize) (rounds : Nat) (data : List Byte) :
    chainAfter p sw rounds (hashPad sw data) ((hashPad sw data).length / sw.blockBytes) = hashFn p sw rounds data := rfl

end Sys2Proof
end

section
/-! PROOFS. 43 R223 to R231 and 60 R271: a HASH or DMCOMP that passes its checks commits its chaining value, what HASH
and DMCOMP do not depend on, and that one DMCOMP a block computes `HashFn`. -/

namespace Sys2Proof.Machine

/-! ### The checks and the next states -/

/-- The checks of HASH pass with a schedule held and both ranges inside BUF. -/
theorem State.firstError_hashChecks_eq_none_iff (s : State) :
    firstError s.hashChecks = none ↔ s.schedValid = true ∧ s.inBuf s.srcL s.lenL ∧ s.inBuf s.dstL s.dlen := by
  simp [firstError_eq_none_iff, State.hashChecks]

/-- Those of DMCOMP pass with a schedule held and one block of input inside BUF. -/
theorem State.firstError_dmcompChecks_eq_none_iff (s : State) :
    firstError s.dmcompChecks = none ↔ s.schedValid = true ∧ s.lenL = s.bb ∧ s.inBuf s.srcL s.bb := by
  simp [firstError_eq_none_iff, State.dmcompChecks]

theorem exec_hash_of_input {s : State} {x : List Byte} (hchecks : firstError s.hashChecks = none)
    (hx : s.InputIs s.srcL s.lenL x) : exec .hash s = .next (s.hashCommit x) :=
  State.runCommand_of_input hchecks ((s.inputIs_iff _ _ x).1 hx) _

theorem exec_dmcomp_of_input {s : State} {m : List Byte} (hchecks : firstError s.dmcompChecks = none)
    (hm : s.InputIs s.srcL s.bb m) : exec .dmcomp s = .next (s.dmcompCommit m) :=
  State.runCommand_of_input hchecks ((s.inputIs_iff _ _ m).1 hm) _

/-- A HASH whose checks pass and that answers a next state has its input written. -/
theorem exists_input_of_exec_hash {s t : State} (hchecks : firstError s.hashChecks = none)
    (h : exec .hash s = .next t) : ∃ x, s.InputIs s.srcL s.lenL x ∧ t = s.hashCommit x := by
  obtain ⟨e, he, -⟩ | ⟨x, -, hx, rfl⟩ := State.runCommand_next h
  · rw [hchecks] at he
    cases he
  · exact ⟨x, (s.inputIs_iff _ _ x).2 hx, rfl⟩

/-! ### The completion of a command with pending writes to BUF and Hreg -/

theorem State.successCompletion_succeeded (s : State) (buf : Memory) (hreg : Hreg) (n : Nat) :
    s.Succeeded (State.successCompletion { s with buf := buf, hreg := hreg } n) := ⟨rfl, rfl, rfl, rfl⟩

theorem State.successCompletion_sameControl (s : State) (buf : Memory) (hreg : Hreg) (n : Nat) :
    s.SameControl (State.successCompletion { s with buf := buf, hreg := hreg } n) :=
  ⟨rfl, rfl, rfl, rfl, rfl, rfl, rfl, rfl, rfl, rfl, rfl, rfl, rfl⟩

/-! ### The commit of HASH -/

/-- `HashFn` under the word size and round count of the schedule held (43 R223, R225). -/
def State.hashOf (s : State) (data : List Byte) : List Byte := hashFn s.params s.sched.sw s.sched.rounds data

@[simp] theorem State.hashOf_length (s : State) (data : List Byte) : (s.hashOf data).length = s.bb :=
  hashFn_length _ _ _ data

/-- The digest has the length it is cut to, which is at most a block (43 R224). -/
theorem State.take_dlen_hashOf_length (s : State) (data : List Byte) :
    ((s.hashOf data).take s.dlen).length = s.dlen := by
  rw [List.length_take, s.hashOf_length, Nat.min_eq_left s.dlen_le]

/-- Hreg is the chaining value and zeros above it (43 R225). -/
theorem State.hashCommit_hreg_bytes (s : State) (data : List Byte) :
    (s.hashCommit data).hreg.bytes = s.hashOf data ++ zeros (16 - s.bb) := by
  have hle := s.bb_le
  exact Hreg.bytes_ofBytes (s.hashOf data ++ zeros (16 - s.bb))
    (by rw [List.length_append, s.hashOf_length, zeros_length]; omega)

theorem State.take_hashCommit_hreg_bytes (s : State) (data : List Byte) :
    (s.hashCommit data).hreg.bytes.take s.bb = s.hashOf data := by
  rw [s.hashCommit_hreg_bytes, List.take_left' (s.hashOf_length data)]

/-- The digest stands at DST_L, and the rest of BUF is left. -/
theorem State.stores_hashCommit (s : State) (data : List Byte) :
    s.Stores (s.hashCommit data) s.dstL ((s.hashOf data).take s.dlen) := s.stores_writeRange s.dstL _

theorem State.hashCommit_outlen_toNat (s : State) (data : List Byte) : (s.hashCommit data).outlen.toNat = s.dlen := by
  have hdlen := s.dlen_le
  have hbb := s.bb_le
  exact Nat.mod_eq_of_lt (by omega)

/-- Settles O15: the next state is the commit of `State.hashOf`. -/
theorem hashStoresTheDigest : Obligations.HashStoresTheDigest := by
  unfold Obligations.HashStoresTheDigest
  rintro s data h hvalid hsrc hdst hx rfl
  have hchecks := s.firstError_hashChecks_eq_none_iff.2 ⟨hvalid, hsrc, hdst⟩
  exact ⟨_, exec_hash_of_input hchecks hx, s.hashOf_length data, s.hashCommit_hreg_bytes data, s.stores_hashCommit data,
    s.take_dlen_hashOf_length data, s.hashCommit_outlen_toNat data,
    s.successCompletion_succeeded _ _ _, s.successCompletion_sameControl _ _ _, ⟨rfl, rfl⟩⟩

/-! ### The commit of DMCOMP -/

/-- The chaining value in the low bytes of Hreg is one block wide. -/
theorem State.take_hreg_bytes_length (s : State) : (s.hreg.bytes.take s.bb).length = s.bb := by
  rw [List.length_take, Hreg.bytes_length, Nat.min_eq_left s.bb_le]

theorem State.compress_hreg_length (s : State) (m : List Byte) :
    (compress s.params s.sched.sw s.sched.rounds (s.hreg.bytes.take s.bb) m).length = s.bb := by
  rw [compress_length, s.take_hreg_bytes_length]
  exact Nat.min_self s.bb

/-- Hreg[0..bb) is compressed with the block, Hreg[bb..16) is left (43 R230). -/
theorem State.dmcompCommit_hreg_bytes (s : State) (m : List Byte) : (s.dmcompCommit m).hreg.bytes =
    compress s.params s.sched.sw s.sched.rounds (s.hreg.bytes.take s.bb) m ++ s.hreg.bytes.drop s.bb := by
  refine Hreg.bytes_ofBytes _ ?_
  rw [List.length_append, s.compress_hreg_length, List.length_drop, Hreg.bytes_length, Nat.add_sub_cancel' s.bb_le]

theorem State.take_dmcompCommit_hreg_bytes (s : State) (m : List Byte) :
    (s.dmcompCommit m).hreg.bytes.take s.bb =
      compress s.params s.sched.sw s.sched.rounds (s.hreg.bytes.take s.bb) m := by
  rw [s.dmcompCommit_hreg_bytes, List.take_left' (s.compress_hreg_length m)]

/-- Settles O16: the next state is the commit of `compress` on Hreg. -/
theorem dmcompCompressesHreg : Obligations.DmcompCompressesHreg := by
  unfold Obligations.DmcompCompressesHreg
  intro s m hvalid hlen hsrc hm
  have hchecks := s.firstError_dmcompChecks_eq_none_iff.2 ⟨hvalid, hlen, hsrc⟩
  refine ⟨_, exec_dmcomp_of_input hchecks hm, s.take_dmcompCommit_hreg_bytes m, ?_, fun _ => rfl, rfl,
    s.successCompletion_succeeded _ _ _, s.successCompletion_sameControl _ _ _, ⟨rfl, rfl⟩⟩
  rw [s.dmcompCommit_hreg_bytes, List.drop_left' (s.compress_hreg_length m)]

/-! ### Truncation -/

/-- With PRESENT = 0 the digest is the whole block (43 R224). -/
theorem digestLength_zero (bb : Nat) : digestLength 0 bb = bb := if_pos (.inl rfl)

/-- With PRESENT = 1 and a SIZE of at most a block the digest has SIZE bytes (43 R224). -/
theorem digestLength_of_size {k bb : Nat} (hk : k ≤ bb) (hbb : bb < 2 ^ 31) :
    digestLength (0x80000000 ||| BitVec.ofNat 32 k) bb = k := by
  have hpresent : dsizePresent (0x80000000 ||| BitVec.ofNat 32 k) = true := by
    rw [dsizePresent, BitVec.getLsbD_or]
    rfl
  have hsize : dsizeSize (0x80000000 ||| BitVec.ofNat 32 k) = k := by
    have hhigh : (0x80000000 : Word).toNat % 2 ^ 31 = 0 := rfl
    have hlow : (BitVec.ofNat 32 k).toNat % 2 ^ 31 = k := by
      rw [BitVec.toNat_ofNat]
      omega
    rw [dsizeSize, BitVec.extractLsb'_toNat, Nat.shiftRight_zero, BitVec.toNat_or, Nat.or_mod_two_pow, hhigh, hlow,
      Nat.zero_or]
  rw [digestLength, hpresent, hsize, if_neg (by simp [hk])]

/-- The state in which the command in flight was accepted with DSIZE = `d`. -/
def State.withDsize (s : State) (d : Word) : State := { s with latch := { s.latch with dsize := d } }

/-- A byte of the digest is the byte of the chaining value. -/
theorem State.read_hashCommit (s : State) (data : List Byte) {j : Nat} (hj : j < s.dlen) :
    Memory.read (s.hashCommit data).buf (s.dstL + j) = (s.hashOf data)[j]? := by
  obtain ⟨hstored, -⟩ := s.stores_hashCommit data
  rw [hstored j (hj.trans_eq (s.take_dlen_hashOf_length data).symm), List.getElem?_take_of_lt hj]

/-- A HASH that is clean is clean with a shorter digest, and hashes the same message (43 R226). -/
theorem exec_hash_withDsize {s : State} {d : Word} {x : List Byte} (hchecks : firstError s.hashChecks = none)
    (hx : s.InputIs s.srcL s.lenL x) (hd : (s.withDsize d).dlen ≤ s.dlen) :
    exec .hash (s.withDsize d) = .next ((s.withDsize d).hashCommit x) := by
  obtain ⟨hvalid, hsrc, hdst⟩ := s.firstError_hashChecks_eq_none_iff.1 hchecks
  have hdst' : (s.withDsize d).inBuf s.dstL (s.withDsize d).dlen := (Nat.add_le_add_left hd _).trans hdst
  exact exec_hash_of_input ((State.firstError_hashChecks_eq_none_iff _).2 ⟨hvalid, hsrc, hdst'⟩) hx

/-- Settles O30: both commits store a beginning of one chaining value. -/
theorem digestTruncationIsAPrefix : Obligations.DigestTruncationIsAPrefix := by
  unfold Obligations.DigestTruncationIsAPrefix
  intro s t k hclean hdsize hexec _ hk
  have hchecks : firstError s.hashChecks = none := (s.firstError_checks_eq_none_iff .hash).2 hclean
  obtain ⟨x, hx, rfl⟩ := exists_input_of_exec_hash hchecks hexec
  have hfull : s.dlen = s.bb := by rw [State.dlen, hdsize, digestLength_zero]
  have hcut : (s.withDsize (0x80000000 ||| BitVec.ofNat 32 k)).dlen = k :=
    digestLength_of_size hk (s.bb_le.trans_lt (by decide))
  refine ⟨_, exec_hash_withDsize hchecks hx (by omega), (s.hashCommit_outlen_toNat x).trans hfull,
    (State.hashCommit_outlen_toNat _ x).trans hcut, rfl, fun j hj => ?_⟩
  rw [s.read_hashCommit x (by omega)]
  exact State.read_hashCommit _ x (hj.trans_eq hcut.symm)

/-! ### The schedule's table -/

/-- The state with another table `S`, of the same word size and round count. -/
def State.withTable (s : State) (table : List (BitVec 64)) : State :=
  { s with sched := { s.sched with table := table } }

/-- BUF, Hreg, OUTLEN and the STATUS bits are the same. -/
structure State.SameResults (t u : State) : Prop where
  buf : u.buf = t.buf
  hreg : u.hreg = t.hreg
  outlen : u.outlen = t.outlen
  status : u.status = t.status

/-- A run whose commit does not depend on the table has the same results with another table. -/
theorem State.runCommand_withTable {s t : State} {checks : List (Bool × ErrorCode)} {off n : Nat}
    {commit commit' : List Byte → State} (table : List (BitVec 64)) (h : s.runCommand checks off n commit = .next t)
    (hcommit : ∀ x, (commit x).SameResults (commit' x)) :
    ∃ u, (s.withTable table).runCommand checks off n commit' = .next u ∧ t.SameResults u := by
  obtain ⟨e, he, rfl⟩ | ⟨x, hc, hx, rfl⟩ := State.runCommand_next h
  · exact ⟨_, State.runCommand_of_error he off n commit', ⟨rfl, rfl, rfl, rfl⟩⟩
  · exact ⟨_, State.runCommand_of_input (s := s.withTable table) hc hx commit', hcommit x⟩

/-- Settles O31: the checks and the commits of HASH and DMCOMP read the word size and the round count of the schedule held,
not its table. -/
theorem hashIgnoresTheScheduleTable : Obligations.HashIgnoresTheScheduleTable := by
  unfold Obligations.HashIgnoresTheScheduleTable
  intro i s t table hi hexec
  have hrun : ∃ u, exec i (s.withTable table) = .next u ∧ t.SameResults u := by
    obtain rfl | rfl := hi
    · exact State.runCommand_withTable table hexec fun _ => ⟨rfl, rfl, rfl, rfl⟩
    · exact State.runCommand_withTable table hexec fun _ => ⟨rfl, rfl, rfl, rfl⟩
  obtain ⟨u, hu, hbuf, hhreg, houtlen, hstatus⟩ := hrun
  exact ⟨u, hu, hbuf, hhreg, houtlen, hstatus⟩

/-! ### One DMCOMP a block -/

/-- A part of an input is the input at its place. -/
theorem State.inputIs_slice {s : State} {off n : Nat} {x : List Byte} (hx : s.InputIs off n x) {a b : Nat}
    (hb : b ≤ n) : s.InputIs (off + a) (b - a) (slice x a b) := by
  obtain ⟨hlen, hread⟩ := hx
  refine ⟨by rw [slice_length]; omega, fun k hk => ?_⟩
  rw [Nat.add_assoc, hread _ (by omega), slice, List.getElem?_take_of_lt hk, List.getElem?_drop]

/-- The state in which the DMCOMP of block `n` runs (43 R231). -/
def State.atBlock (s : State) (off n : Nat) : State :=
  { s with latch := { s.latch with src := BitVec.ofNat 32 (off + n * s.bb), len := BitVec.ofNat 32 s.bb } }

theorem State.atBlock_srcL (s : State) {off n : Nat} (h : off + n * s.bb < 2 ^ 32) :
    (s.atBlock off n).srcL = off + n * s.bb := Nat.mod_eq_of_lt h

theorem State.atBlock_lenL (s : State) (off n : Nat) : (s.atBlock off n).lenL = s.bb :=
  Nat.mod_eq_of_lt (s.bb_le.trans_lt (by decide))

theorem dmcompEach_succ {s t : State} {off n : Nat} (h : dmcompEach off n s = .next t) :
    dmcompEach off (n + 1) s = exec .dmcomp (t.atBlock off n) := by
  rw [dmcompEach, h]
  rfl

/-- A schedule is held, and the padded message stands in BUF from offset `off` on, where 32-bit latches reach it. -/
structure State.HoldsMessage (s : State) (off : Nat) (padded : List Byte) : Prop where
  schedValid : s.schedValid = true
  fits : s.inBuf off padded.length
  reachable : off + padded.length < 2 ^ 32
  input : s.InputIs off padded.length padded

/-- The DMCOMP of block `n` passes its checks and reads that block. -/
theorem exec_dmcomp_of_holdsMessage {s : State} {off n : Nat} {padded : List Byte} (h : s.HoldsMessage off padded)
    (hn : (n + 1) * s.bb ≤ padded.length) : exec .dmcomp (s.atBlock off n) =
      .next ((s.atBlock off n).dmcompCommit (slice padded (n * s.bb) ((n + 1) * s.bb))) := by
  obtain ⟨hvalid, hfits, hreach, hinput⟩ := h
  have hend : (n + 1) * s.bb = n * s.bb + s.bb := Nat.succ_mul n s.bb
  have hsrc : (s.atBlock off n).srcL = off + n * s.bb := s.atBlock_srcL (by omega)
  have hblock : s.InputIs (off + n * s.bb) s.bb (slice padded (n * s.bb) ((n + 1) * s.bb)) := by
    have hslice := State.inputIs_slice hinput (a := n * s.bb) hn
    rwa [hend, Nat.add_sub_cancel_left, ← hend] at hslice
  have hin : s.inBuf (off + n * s.bb) s.bb := le_trans (by omega) hfits
  rw [← hsrc] at hblock hin
  exact exec_dmcomp_of_input
    ((State.firstError_dmcompChecks_eq_none_iff _).2 ⟨hvalid, s.atBlock_lenL off n, hin⟩) hblock

/-- What the DMCOMP commands for the first `n` blocks of a padded message leave: the chaining value, and what the next
block's needs. -/
structure State.AfterBlocks (s : State) (off : Nat) (padded : List Byte) (n : Nat) (t : State) : Prop where
  params : t.params = s.params
  sched : t.sched = s.sched
  message : t.HoldsMessage off padded
  chain : t.hreg.bytes.take s.bb = chainAfter s.params s.sched.sw s.sched.rounds padded n

/-- The DMCOMP of the next block compresses that block (43 R222, R231). -/
theorem exec_dmcomp_of_afterBlocks {s t : State} {off n : Nat} {padded : List Byte}
    (h : s.AfterBlocks off padded n t) (hn : (n + 1) * s.bb ≤ padded.length) :
    ∃ u, exec .dmcomp (t.atBlock off n) = .next u ∧ s.AfterBlocks off padded (n + 1) u := by
  obtain ⟨hparams, hsched, hmessage, hchain⟩ := h
  have hbb : t.bb = s.bb := by rw [State.bb, hsched, State.bb]
  refine ⟨_, exec_dmcomp_of_holdsMessage hmessage (hbb ▸ hn), hparams, hsched,
    ⟨hmessage.schedValid, hmessage.fits, hmessage.reachable, hmessage.input⟩, ?_⟩
  rw [chainAfter_succ, ← hchain, ← hparams, ← hsched, ← hbb]
  exact (t.atBlock off n).take_dmcompCommit_hreg_bytes _

/-- The low bytes of a zero Hreg are the chaining value `HashFn` begins with. -/
theorem Hreg.take_bytes_zero {n : Nat} (hn : n ≤ 16) :
    (Hreg.bytes { h0 := 0, h1 := 0, h2 := 0, h3 := 0 }).take n = zeros n := by
  have hbytes : Hreg.bytes { h0 := 0, h1 := 0, h2 := 0, h3 := 0 } = zeros 16 := by decide
  rw [hbytes, zeros, List.take_replicate, Nat.min_eq_left hn, zeros]

/-- From a zero Hreg, one DMCOMP a block leaves the chaining value of `HashFn` after those blocks. -/
theorem dmcompEach_of_holdsMessage {s : State} {off n : Nat} {padded : List Byte} (h : s.HoldsMessage off padded)
    (hzero : s.hreg = { h0 := 0, h1 := 0, h2 := 0, h3 := 0 }) (hn : n * s.bb ≤ padded.length) :
    ∃ t, dmcompEach off n s = .next t ∧ s.AfterBlocks off padded n t := by
  induction n with
  | zero => exact ⟨s, rfl, rfl, rfl, h, hzero ▸ Hreg.take_bytes_zero s.bb_le⟩
  | succ n ih =>
    obtain ⟨t, ht, hafter⟩ := ih ((Nat.mul_le_mul_right _ (Nat.le_succ n)).trans hn)
    obtain ⟨u, hu, hafter'⟩ := exec_dmcomp_of_afterBlocks hafter hn
    exact ⟨u, (dmcompEach_succ ht).trans hu, hafter'⟩

/-- Settles O32: after all blocks the chaining value is `HashFn`, and so is what a HASH leaves. -/
theorem dmcompPerBlockIsHash : Obligations.DmcompPerBlockIsHash := by
  unfold Obligations.DmcompPerBlockIsHash
  intro s data off hvalid hlegal hzero hbuf hx
  obtain ⟨-, hmax, -⟩ := hlegal
  have hmessage : s.HoldsMessage off (hashPad s.sched.sw data) := ⟨hvalid, hbuf, by omega, hx⟩
  obtain ⟨t, ht, hafter⟩ := dmcompEach_of_holdsMessage hmessage hzero (Nat.div_mul_le_self _ s.bb)
  have hchain : t.hreg.bytes.take s.bb = s.hashOf data :=
    hafter.chain.trans (chainAfter_hashPad _ _ _ data)
  refine ⟨t, ht, hchain, fun u v hparams hsw hsr hxu hclean hexec => ?_⟩
  have hchecks : firstError u.hashChecks = none := (u.firstError_checks_eq_none_iff .hash).2 hclean
  rw [exec_hash_of_input hchecks hxu] at hexec
  cases hexec
  have hbb : u.bb = s.bb := congrArg WordSize.blockBytes hsw
  have hhash : u.hashOf data = s.hashOf data := by
    rw [State.hashOf, State.hashOf, Schedule.rounds, Schedule.rounds, hparams, hsw, hsr]
  rw [hchain, ← hhash, ← hbb, u.take_hashCommit_hreg_bytes]

end Sys2Proof.Machine
end

section
/-! PROOFS. 44 R241 to R243: the analyzer's modified buffer differs from the original in the one bit it flips. -/

namespace Sys2Proof

/-! ### The 1 bits of a byte string -/

theorem popcount_cons (b : Byte) (x : List Byte) : popcount (b :: x) = popcount [b] + popcount x := by
  simp [popcount]

/-- A byte string has no bit that differs from itself. -/
theorem popcount_xorBytes_self (x : List Byte) : popcount (xorBytes x x) = 0 := by
  induction x with
  | nil => rfl
  | cons b x ih =>
    have hcons : xorBytes (b :: x) (b :: x) = 0 :: xorBytes x x := by simp [xorBytes]
    rw [hcons, popcount_cons, ih]
    rfl

/-- A byte string and its copy with one byte xored with `d` differ in the 1 bits of `d`. -/
theorem popcount_xorBytes_set (x : List Byte) (d : Byte) {i : Nat} (hi : i < x.length) :
    popcount (xorBytes x (x.set i (x.getD i 0 ^^^ d))) = popcount [d] := by
  induction x generalizing i with
  | nil => simp at hi
  | cons b x ih =>
    cases i with
    | zero =>
      have hcons : xorBytes (b :: x) ((b :: x).set 0 ((b :: x).getD 0 0 ^^^ d)) = d :: xorBytes x x := by
        simp [xorBytes]
      rw [hcons, popcount_cons, popcount_xorBytes_self, Nat.add_zero]
    | succ i =>
      have hcons : xorBytes (b :: x) ((b :: x).set (i + 1) ((b :: x).getD (i + 1) 0 ^^^ d)) =
          0 :: xorBytes x (x.set i (x.getD i 0 ^^^ d)) := by
        simp [xorBytes]
      rw [hcons, popcount_cons, ih (Nat.lt_of_succ_lt_succ hi)]
      exact Nat.zero_add _

/-- The byte with which the analyzer xors has one 1 bit (44 R241). -/
theorem popcount_one_shiftLeft (bitIndex : Nat) : popcount [1#8 <<< (bitIndex % 8)] = 1 := by
  have hbits : ∀ k < 8, popcount [1#8 <<< k] = 1 := by decide
  exact hbits _ (Nat.mod_lt _ (by decide))

/-! ### The buffer and the flipped byte -/

/-- The buffer is the data, or zero bytes up to the index when there are none (44 R242). -/
theorem diffusionBuffer_fst (data : List Byte) (byteIndex : Nat) :
    (diffusionBuffer data byteIndex).1 = if data = [] then zeros (byteIndex + 1) else data := by
  cases data <;> rfl

/-- The flipped byte lies in the buffer. -/
theorem diffusionBuffer_snd_lt (data : List Byte) (byteIndex : Nat) :
    (diffusionBuffer data byteIndex).2 < (diffusionBuffer data byteIndex).1.length := by
  cases data with
  | nil => simp [diffusionBuffer]
  | cons b data => exact Nat.mod_lt _ (Nat.succ_pos _)

theorem diffusionModified_length (data : List Byte) (byteIndex bitIndex : Nat) :
    (diffusionModified data byteIndex bitIndex).length = (diffusionBuffer data byteIndex).1.length :=
  List.length_set

/-- Settles O53: the buffer's flipped byte is xored with a byte of one 1 bit, and a chaining value is one block wide. -/
theorem diffusionFlipsExactlyOneBit : Obligations.DiffusionFlipsExactlyOneBit := by
  unfold Obligations.DiffusionFlipsExactlyOneBit
  intro p sw rounds data byteIndex bitIndex
  refine ⟨?_, ?_, hashFn_length p sw rounds data⟩
  · rw [diffusionModified_length, diffusionBuffer_fst, apply_ite List.length, zeros_length]
  · rw [← diffusionBuffer_fst]
    exact (popcount_xorBytes_set _ _ (diffusionBuffer_snd_lt data byteIndex)).trans (popcount_one_shiftLeft bitIndex)

end Sys2Proof
end

section
/-! PROOFS. 30_encoding R110, R111 and 44 R240: what an idle BCE makes of the lines of a host program, and with them the
run of `Compare` through two HASH commands. A line's effect is said once, for every queue after it and every latency
before it (`State.Performs`), so that lines are put together by `State.Performs.append`. -/

namespace Sys2Proof.Machine

/-! ### Performing host events -/

/-- No reset is asserted and no command is in flight, so that the host's next event is the next step. -/
structure State.Idle (s : State) : Prop where
  rst : s.rst = false
  busy : s.status.busy = false

/-- The machine of `s` before the host events `q`, with some LATENCY left over. -/
def State.before (s : State) (q : List HostEvent) (latency : Nat) : State :=
  { s with hostQueue := q, latency := latency }

/-- The host events `es`, with the completions of `completions` commands among them, lead from the machine of `s` to that
of `t`, whatever the host goes on with after them. -/
def State.Performs (s : State) (es : List HostEvent) (completions : Nat) (t : State) : Prop :=
  ∀ (q : List HostEvent) (latency : Nat), ∃ latency' : Nat,
    Host.Core.run Sys2Proof.core (es.length + completions) (s.before (es ++ q) latency) = .next (t.before q latency')

theorem State.performs_nil (s : State) : s.Performs [] 0 s := fun _ latency => ⟨latency, rfl⟩

theorem State.Performs.append {s t u : State} {es es' : List HostEvent} {m n k : Nat} (h : s.Performs es m t)
    (h' : t.Performs es' n u) (hk : m + n = k) : s.Performs (es ++ es') k u := by
  intro q latency
  obtain ⟨latency₁, hfirst⟩ := h (es' ++ q) latency
  obtain ⟨latency₂, hsecond⟩ := h' q latency₁
  refine ⟨latency₂, ?_⟩
  rw [List.append_assoc, List.length_append,
    show es.length + es'.length + k = (es.length + m) + (es'.length + n) by omega, run_add _ _ hfirst, hsecond]

theorem hostEvents_append (p : Params) (prog prog' : List HostInstr) :
    hostEvents p (prog ++ prog') = hostEvents p prog ++ hostEvents p prog' := List.flatMap_append

/-- A host program whose events are performed runs on a machine that has no other event to come. -/
theorem State.Performs.run_withProgram {s t : State} {prog : List HostInstr} {n : Nat}
    (h : s.Performs (hostEvents s.params prog) n t) (hqueue : s.hostQueue = []) :
    ∃ latency, Host.Core.run Sys2Proof.core ((hostEvents s.params prog).length + n) (s.withProgram prog) =
      .next (t.before [] latency) := by
  have hprogram : s.withProgram prog = s.before (hostEvents s.params prog ++ []) s.latency := by
    rw [State.withProgram, hqueue, List.nil_append, List.append_nil]
    rfl
  rw [hprogram]
  exact h [] s.latency

/-- An idle BCE performs an access in one step. -/
theorem State.Idle.performs_access {s t : State} {a : HostAccess} (hidle : s.Idle)
    (h : ∀ (q : List HostEvent) (latency : Nat), (s.before q latency).hostAccess a = .next (t.before q latency)) :
    s.Performs [.access a] 0 t := by
  intro q latency
  have hnext : (s.before (.access a :: q) latency).NextIs (.access a) q := ⟨hidle.rst, rfl, .inl hidle.busy⟩
  exact ⟨latency - 1, run_succ 0 ((step_access hnext).trans (h q (latency - 1)))⟩

/-- `wr` to a register other than CMD (30_encoding R110). -/
theorem State.Idle.performs_wr {s : State} (hidle : s.Idle) {r : Reg} (v : Word) (hr : r ≠ .cmd) :
    s.Performs [s.wr r v] 0 (s.writeReg r v) := by
  refine hidle.performs_access fun q latency => ?_
  have htarget : (s.before q latency).targetOf (.write .word (hostAddr s.params r.offset) v) = some (.register r) :=
    (s.before q latency).targetOf_register r _ rfl rfl
  rw [State.hostAccess, htarget]
  cases r with
  | cmd => exact absurd rfl hr
  | h0 | h1 | h2 | h3 => simp [State.before, State.writeReg, State.writeHreg, hidle.busy]
  | _ => rfl

/-! ### Messages to BUF and digests back -/

theorem Memory.writeRange_append (m : Memory) (off : Nat) (x y : List Byte) :
    m.writeRange off (x ++ y) = (m.writeRange off x).writeRange (off + x.length) y := by
  induction x generalizing m off with
  | nil => rfl
  | cons b x ih =>
    rw [List.cons_append, Memory.writeRange, Memory.writeRange, ih, List.length_cons, Nat.add_assoc, Nat.add_comm 1]

/-- The lane of its offset carries the byte (20_memory R64 (d)). -/
theorem laneBytes_onLane (off : Nat) (b : Byte) : laneBytes (onLane off b) off .byte = [b] := by
  have hlane : laneByte (onLane off b) off 0 = b := by
    have hmod : off % 4 < 4 := Nat.mod_lt _ (by decide)
    refine BitVec.eq_of_getLsbD_eq fun i hi => ?_
    have hbit : 8 * (off % 4) + i < 32 := by omega
    simp [laneByte, onLane, hi, hbit]
  exact congrArg (fun b => [b]) hlane

/-- A byte of BUF[k] stands at a legal byte address (20_memory R63, R65). -/
theorem State.targetOf_byte (s : State) (q : List HostEvent) (latency : Nat) {a : HostAccess} {k : Nat}
    (hlegal : s.params.legal) (hsize : a.size = .byte) (haddr : a.addr = hostAddr s.params (bufWindow + k))
    (hk : k < s.params.bufBytes) : (s.before q latency).targetOf a = some (.buf k) :=
  (s.before q latency).targetOf_hostAddr_buf hlegal haddr (by rw [hsize]; exact hk) (by rw [hsize]; exact Nat.mod_one k)

/-- One byte of `wrb` (30_encoding R110). -/
theorem State.Idle.performs_writeByte {s : State} (hidle : s.Idle) (hlegal : s.params.legal) {k : Nat} (b : Byte)
    (hk : k < s.params.bufBytes) :
    s.Performs [writeByteEvent s.params k b] 0 { s with buf := s.buf.write k b } := by
  refine hidle.performs_access fun q latency => ?_
  have hoff : (s.before q latency).offsetOf (hostAddr s.params (bufWindow + k)) = bufWindow + k := by
    obtain ⟨-, hmax, -⟩ := hlegal
    exact s.offsetOf_hostAddr _ (by rw [bufWindow]; omega)
  have hwrite := State.hostAccess_write_buf (size := .byte) (addr := hostAddr s.params (bufWindow + k))
    (v := onLane (bufWindow + k) b) (s.targetOf_byte q latency hlegal rfl rfl hk)
  rw [hoff, laneBytes_onLane] at hwrite
  exact hwrite

/-- `wrb` stores its bytes (30_encoding R110). -/
theorem State.Idle.performs_wrb {s : State} (hidle : s.Idle) (hlegal : s.params.legal) {k : Nat} (x : List Byte)
    (hfit : k + x.length ≤ s.params.bufBytes) :
    s.Performs (HostInstr.events s.params (.wrb k x)) 0 { s with buf := s.buf.writeRange k x } := by
  induction x using List.reverseRecOn with
  | nil => exact s.performs_nil
  | append_singleton x b ih =>
    have hlength : (x ++ [b]).length = x.length + 1 := List.length_append
    have hevents : HostInstr.events s.params (.wrb k (x ++ [b])) =
        HostInstr.events s.params (.wrb k x) ++ [writeByteEvent s.params (k + x.length) b] := by
      simp [HostInstr.events, List.zipIdx_append]
    have hlast := State.Idle.performs_writeByte (s := { s with buf := s.buf.writeRange k x })
      ⟨hidle.rst, hidle.busy⟩ hlegal b (show k + x.length < s.params.bufBytes by omega)
    rw [hevents, Memory.writeRange_append]
    exact (ih (by omega)).append hlast rfl

/-- What `rdb k, n` brings back of the bytes `x`, one read a byte. -/
def byteReads (p : Params) (k : Nat) (x : List Byte) : List HostRead :=
  x.mapIdx fun i b => { addr := hostAddr p (bufWindow + k + i), bytes := [b] }

theorem byteReads_append_singleton (p : Params) (k : Nat) (x : List Byte) (b : Byte) : byteReads p k (x ++ [b]) =
    byteReads p k x ++ [{ addr := hostAddr p (bufWindow + k + x.length), bytes := [b] }] := List.mapIdx_concat

@[simp] theorem byteReads_length (p : Params) (k : Nat) (x : List Byte) : (byteReads p k x).length = x.length :=
  List.length_mapIdx

@[simp] theorem byteReads_bytes (p : Params) (k : Nat) (x : List Byte) : (byteReads p k x).flatMap (·.bytes) = x := by
  induction x using List.reverseRecOn with
  | nil => rfl
  | append_singleton x b ih =>
    rw [byteReads_append_singleton, List.flatMap_append, ih]
    rfl

/-- One byte of `rdb` (30_encoding R110). -/
theorem State.Idle.performs_readByte {s : State} (hidle : s.Idle) (hlegal : s.params.legal) {k : Nat} {b : Byte}
    (hk : k < s.params.bufBytes) (hb : Memory.read s.buf k = some b) :
    s.Performs [.access (.read .byte (hostAddr s.params (bufWindow + k)))] 0
      (s.returnRead (hostAddr s.params (bufWindow + k)) [b]) := by
  refine hidle.performs_access fun q latency => ?_
  have hrange : s.buf.readRange k 1 = some [b] := by simp [Memory.readRange, hb]
  exact State.hostAccess_read_buf (s.targetOf_byte q latency hlegal rfl rfl hk) hrange

/-- `rdb` returns the bytes that stand in BUF (30_encoding R110). -/
theorem State.Idle.performs_rdb {s : State} (hidle : s.Idle) (hlegal : s.params.legal) {k : Nat} (x : List Byte)
    (hfit : k + x.length ≤ s.params.bufBytes) (hx : ∀ i < x.length, Memory.read s.buf (k + i) = x[i]?) :
    s.Performs (HostInstr.events s.params (.rdb k x.length)) 0
      { s with hostReads := s.hostReads ++ byteReads s.params k x } := by
  induction x using List.reverseRecOn with
  | nil =>
    rw [show byteReads s.params k [] = [] from rfl, List.append_nil]
    exact s.performs_nil
  | append_singleton x b ih =>
    have hlength : (x ++ [b]).length = x.length + 1 := List.length_append
    have hevents : HostInstr.events s.params (.rdb k (x ++ [b]).length) = HostInstr.events s.params (.rdb k x.length) ++
        [.access (.read .byte (hostAddr s.params (bufWindow + (k + x.length))))] := by
      simp [HostInstr.events, List.range_succ, Nat.add_assoc]
    have hinit : ∀ i < x.length, Memory.read s.buf (k + i) = x[i]? := fun i hi => by
      rw [hx i (by omega), List.getElem?_append_left hi]
    have hbyte : Memory.read s.buf (k + x.length) = some b := by
      rw [hx _ (by omega), List.getElem?_concat_length]
    have hlast := State.Idle.performs_readByte (s := { s with hostReads := s.hostReads ++ byteReads s.params k x })
      ⟨hidle.rst, hidle.busy⟩ hlegal (show k + x.length < s.params.bufBytes by omega) hbyte
    rw [hevents, byteReads_append_singleton, ← List.append_assoc, Nat.add_assoc]
    exact (ih (by omega) hinit).append hlast rfl

/-! ### One HASH -/

/-- What a poll reads once BUSY = 0. -/
def State.statusRead (s : State) : HostRead :=
  { addr := hostAddr s.params Reg.status.offset, bytes := leBytes s.statusWord.toNat 4 }

/-- The host has read STATUS. -/
def State.returnStatus (s : State) : State := { s with hostReads := s.hostReads ++ [s.statusRead] }

/-- A poll waits for the completion of the accepted command, and that is the meaning of the instruction. -/
theorem State.step_accept_poll {s : State} (hrst : s.rst = false) (i : Instr) (q : List HostEvent) (latency : Nat) :
    step ((s.accept (encodeWord i)).before (.poll :: q) latency) =
      exec i ((s.accept (encodeWord i)).before (.poll :: q) latency) := by
  have hdecode : decode (s.latchCommand (encodeWord i)).fetchBytes = .ok (i, []) := by
    rw [State.fetchBytes_latchCommand]
    exact decode_encode i
  exact step_eq_exec (s := (s.accept (encodeWord i)).before _ latency)
    (State.completionIsNext_of_poll hrst rfl rfl) hdecode

/-- `cmd` and `poll` (30_encoding R110): the word is accepted, its command completes, and the poll reads STATUS. -/
theorem State.Idle.performs_cmd_poll {s t : State} {i : Instr} (hidle : s.Idle) (ht : t.Idle)
    (h : ∀ (q : List HostEvent) (latency : Nat),
      exec i ((s.accept (encodeWord i)).before q latency) = .next (t.before q latency)) :
    s.Performs [s.wr .cmd (encodeWord i), .poll] 1 t.returnStatus := by
  intro q latency
  have haccept : step (s.before (s.wr .cmd (encodeWord i) :: .poll :: q) latency) =
      .next ((s.accept (encodeWord i)).before (.poll :: q) (Config.latency s.freeCount)) :=
    step_wr_cmd_of_idle (s := s.before _ latency) hidle.busy ⟨hidle.rst, rfl, .inl hidle.busy⟩
  have hcomplete := (State.step_accept_poll hidle.rst i q (Config.latency s.freeCount)).trans (h _ _)
  have hpoll : step (t.before (.poll :: q) (Config.latency s.freeCount)) =
      .next (t.returnStatus.before q (Config.latency s.freeCount - 1)) := step_poll ⟨ht.rst, rfl, .inl ht.busy⟩
  exact ⟨_, (run_succ 2 haccept).trans ((run_succ 1 hcomplete).trans (run_succ 0 hpoll))⟩

/-- BUF and the operand registers as `hash src, dst, n` with DSIZE = 0 finds them (30_encoding R111). -/
def State.withHashOperands (s : State) (src dst : Nat) (x : List Byte) : State :=
  { s with
    buf := s.buf.writeRange src x
    src := BitVec.ofNat 32 src
    dst := BitVec.ofNat 32 dst
    len := BitVec.ofNat 32 x.length
    dsize := 0 }

/-- The message and the operands are written, one line after the other. -/
theorem State.Idle.performs_hashOperands {s : State} (hidle : s.Idle) (hlegal : s.params.legal) {src : Nat} (dst : Nat)
    {x : List Byte} (hfit : src + x.length ≤ s.params.bufBytes) :
    s.Performs (HostInstr.events s.params (.wrb src x) ++ [s.wr .src (BitVec.ofNat 32 src)] ++
      [s.wr .dst (BitVec.ofNat 32 dst)] ++ [s.wr .len (BitVec.ofNat 32 x.length)] ++ [s.wr .dsize 0]) 0
      (s.withHashOperands src dst x) := by
  have hwr : ∀ (t : State) (r : Reg) (v : Word), t.rst = s.rst → t.status = s.status → r ≠ .cmd →
      t.Performs [t.wr r v] 0 (t.writeReg r v) := fun t r v hrst hstatus hr =>
    State.Idle.performs_wr ⟨hrst.trans hidle.rst, hstatus ▸ hidle.busy⟩ v hr
  have hmessage := hidle.performs_wrb hlegal x hfit
  have hsrc := hmessage.append (hwr _ .src (BitVec.ofNat 32 src) rfl rfl (by decide)) rfl
  have hdst := hsrc.append (hwr _ .dst (BitVec.ofNat 32 dst) rfl rfl (by decide)) rfl
  have hlen := hdst.append (hwr _ .len (BitVec.ofNat 32 x.length) rfl rfl (by decide)) rfl
  exact hlen.append (hwr _ .dsize 0 rfl rfl (by decide)) rfl

/-- HASH of the operands, accepted. -/
def State.hashing (s : State) (src dst : Nat) (x : List Byte) : State :=
  (s.withHashOperands src dst x).accept (encodeWord .hash)

section
variable {s : State} {src dst : Nat} {x : List Byte}

/-- Offsets and lengths within BUF are kept by the operand registers (00_scope R7). -/
theorem State.toNat_ofNat_of_le (hlegal : s.params.legal) {n : Nat} (h : n ≤ s.params.bufBytes) :
    (BitVec.ofNat 32 n).toNat = n := by
  obtain ⟨-, hmax, -⟩ := hlegal
  exact Nat.mod_eq_of_lt (by omega)

/-- With DSIZE = 0 the digest is the whole chaining value (43 R224). -/
theorem State.dlen_hashing : (s.hashing src dst x).dlen = s.bb := digestLength_zero s.bb

theorem State.dstL_hashing (hlegal : s.params.legal) (hdst : dst + s.bb ≤ s.params.bufBytes) :
    (s.hashing src dst x).dstL = dst := State.toNat_ofNat_of_le hlegal (Nat.le_of_add_right_le hdst)

/-- The accepted HASH passes its checks on the written message (43 R225). -/
theorem State.exec_hashing (hlegal : s.params.legal) (hvalid : s.schedValid = true)
    (hsrc : src + x.length ≤ s.params.bufBytes) (hdst : dst + s.bb ≤ s.params.bufBytes) (q : List HostEvent)
    (latency : Nat) : exec .hash ((s.hashing src dst x).before q latency) =
      .next (((s.hashing src dst x).hashCommit x).before q latency) := by
  have hsrcL : (s.hashing src dst x).srcL = src := State.toNat_ofNat_of_le hlegal (by omega)
  have hlenL : (s.hashing src dst x).lenL = x.length := State.toNat_ofNat_of_le hlegal (by omega)
  have hchecks : firstError (s.hashing src dst x).hashChecks = none := by
    rw [State.firstError_hashChecks_eq_none_iff, hsrcL, State.dstL_hashing hlegal hdst, hlenL, State.dlen_hashing]
    exact ⟨hvalid, hsrc, hdst⟩
  have hinput : (s.hashing src dst x).InputIs (s.hashing src dst x).srcL (s.hashing src dst x).lenL x := by
    rw [hsrcL, hlenL]
    exact ⟨rfl, s.buf.read_writeRange_inside src x⟩
  exact exec_hash_of_input (s := (s.hashing src dst x).before q latency) hchecks hinput

/-- Its digest stands at the destination. -/
theorem State.read_hashCommit_hashing (hlegal : s.params.legal) (hdst : dst + s.bb ≤ s.params.bufBytes) {i : Nat}
    (hi : i < (s.hashOf x).length) :
    Memory.read ((s.hashing src dst x).hashCommit x).buf (dst + i) = (s.hashOf x)[i]? := by
  have hread := State.read_hashCommit (s.hashing src dst x) x
    (hi.trans_eq ((s.hashOf_length x).trans State.dlen_hashing.symm))
  rwa [State.dstL_hashing hlegal hdst] at hread

end

/-- The bus transactions of a hash program, in three parts: the operands, the command, the digest. -/
theorem State.hostEvents_hashProgram (s : State) (src dst : Nat) (x : List Byte) :
    hostEvents s.params (hashProgram src dst s.bb x) =
      HostInstr.events s.params (.wrb src x) ++ [s.wr .src (BitVec.ofNat 32 src)] ++
        [s.wr .dst (BitVec.ofNat 32 dst)] ++ [s.wr .len (BitVec.ofNat 32 x.length)] ++ [s.wr .dsize 0] ++
        [s.wr .cmd (encodeWord .hash), .poll] ++ HostInstr.events s.params (.rdb dst (s.hashOf x).length) := by
  simp [hostEvents, hashProgram, Pseudo.expand, operands, HostInstr.events]

/-- The end of a hash program: the machine is idle with its parameters and schedule, and the host has read STATUS and
then the digest `h`. -/
structure State.HasRead (s t : State) (k : Nat) (h : List Byte) : Prop where
  idle : t.Idle
  params : t.params = s.params
  schedule : s.SameSchedule t
  reads : ∃ status, t.hostReads = s.hostReads ++ (status :: byteReads s.params k h)

/-- `hashProgram` on an idle BCE (30_encoding R111, 43 R225): the message is hashed and its chaining value read. -/
theorem State.Idle.performs_hashProgram {s : State} (hidle : s.Idle) (hlegal : s.params.legal)
    (hvalid : s.schedValid = true) {src dst : Nat} {x : List Byte} (hsrc : src + x.length ≤ s.params.bufBytes)
    (hdst : dst + s.bb ≤ s.params.bufBytes) :
    ∃ t, s.Performs (hostEvents s.params (hashProgram src dst s.bb x)) 1 t ∧ s.HasRead t dst (s.hashOf x) := by
  have hoperands := hidle.performs_hashOperands hlegal dst hsrc
  have hhash : (s.withHashOperands src dst x).Performs [s.wr .cmd (encodeWord .hash), .poll] 1
      ((s.hashing src dst x).hashCommit x).returnStatus :=
    State.Idle.performs_cmd_poll ⟨hidle.rst, hidle.busy⟩ ⟨hidle.rst, rfl⟩ (State.exec_hashing hlegal hvalid hsrc hdst)
  have hdigest := State.Idle.performs_rdb (s := ((s.hashing src dst x).hashCommit x).returnStatus) ⟨hidle.rst, rfl⟩
    hlegal (k := dst) (s.hashOf x) (by rw [s.hashOf_length]; exact hdst)
    fun _ => State.read_hashCommit_hashing hlegal hdst
  rw [s.hostEvents_hashProgram]
  exact ⟨_, (hoperands.append hhash rfl).append hdigest rfl, ⟨hidle.rst, rfl⟩, rfl, ⟨rfl, rfl⟩,
    ⟨((s.hashing src dst x).hashCommit x).statusRead, List.append_assoc _ _ _⟩⟩

/-! ### Compare -/

/-- The report on the reads of two hash programs is the report on the two digests (44 R241). -/
theorem compareReport_byteReads (p p' : Params) (k : Nat) {bb : Nat} (status status' : HostRead) {h h' : List Byte}
    (hlen : h.length = bb) (hlen' : h'.length = bb) :
    compareReport bb ((status :: byteReads p k h) ++ (status' :: byteReads p' k h')) = diffusionReport h h' := by
  subst hlen
  have hfirst : (((status :: byteReads p k h) ++ (status' :: byteReads p' k h')).drop 1).take h.length =
      byteReads p k h := List.take_left' (byteReads_length p k h)
  have hsecond : (((status :: byteReads p k h) ++ (status' :: byteReads p' k h')).drop (h.length + 2)).take h.length =
      byteReads p' k h' := by
    simp [List.drop_append, List.drop_of_length_le, List.take_of_length_le, hlen']
  rw [compareReport, hfirst, hsecond, byteReads_bytes, byteReads_bytes]

/-- Settles O54: two hash programs, one after the other; the second finds the parameters and the schedule of the first. -/
theorem compareRunsThroughTwoHashCommands : Obligations.CompareRunsThroughTwoHashCommands := by
  unfold Obligations.CompareRunsThroughTwoHashCommands
  rintro s src dst data byteIndex bitIndex _ hrst hbusy hqueue hvalid hlegal hdata hmodified hdst rfl
  obtain ⟨t, hfirst, hidle, hparams, ⟨hsched, hvalid'⟩, status, hreads⟩ :=
    State.Idle.performs_hashProgram ⟨hrst, hbusy⟩ hlegal hvalid hdata hdst
  have hbb : t.bb = s.bb := by rw [State.bb, hsched, State.bb]
  have hhash : ∀ x, t.hashOf x = s.hashOf x := fun x => by rw [State.hashOf, hparams, hsched, State.hashOf]
  obtain ⟨u, hsecond, hidle', -, -, status', hreads'⟩ := hidle.performs_hashProgram
    (hparams ▸ hlegal) (hvalid'.trans hvalid) (hparams ▸ hmodified) (hparams ▸ hbb ▸ hdst)
  rw [hparams, hbb] at hsecond
  rw [hreads, List.append_assoc, hhash] at hreads'
  have hboth := hfirst.append hsecond (rfl : 1 + 1 = 2)
  rw [← hostEvents_append] at hboth
  obtain ⟨latency, hrun⟩ := hboth.run_withProgram hqueue
  exact ⟨_, _, hrun, ⟨rfl, hidle'.busy⟩, hreads',
    compareReport_byteReads _ _ dst status status' (s.hashOf_length data) (s.hashOf_length _)⟩

end Sys2Proof.Machine
end

section
/-! PROOFS. 60 R255 to R271: which error a command reports, what an error completion changes, and when a command
succeeds. Every command's check list is in the order of 60 R258, so its first check that applies is the first cause. -/

namespace Sys2Proof.Machine

/-! ### The order of the error causes -/

theorem ErrorCode.code_injective : Function.Injective ErrorCode.code := by
  intro e e' h
  cases e <;> cases e' <;> cases h <;> rfl

theorem ErrorCode.priority_injective : Function.Injective ErrorCode.priority := by
  intro e e' h
  cases e <;> cases e' <;> cases h <;> rfl

/-- A check list in the order of 60 R258. -/
abbrev InOrder (checks : List (Bool × ErrorCode)) : Prop :=
  checks.Pairwise fun c d => c.2.priority ≤ d.2.priority

/-- No check that applies comes before the one reported. -/
theorem priority_le_of_firstError {checks : List (Bool × ErrorCode)} {e e' : ErrorCode} (horder : InOrder checks)
    (h : firstError checks = some e) (he' : (true, e') ∈ checks) : e.priority ≤ e'.priority := by
  induction checks with
  | nil => cases h
  | cons c rest ih =>
    obtain ⟨applies, e₀⟩ := c
    obtain ⟨hfirst, hrest⟩ := List.pairwise_cons.1 horder
    cases applies with
    | true =>
      cases h
      obtain heq | hmem := List.mem_cons.1 he'
      · cases heq
        exact le_rfl
      · exact hfirst _ hmem
    | false => exact ih hrest h (by simpa using he')

/-- In a list in order, the error reported is the one that applies with none that applies before it. -/
theorem firstError_eq_some_iff {checks : List (Bool × ErrorCode)} (horder : InOrder checks) (e : ErrorCode) :
    firstError checks = some e ↔
      (true, e) ∈ checks ∧ ∀ e' : ErrorCode, e'.priority < e.priority → (true, e') ∉ checks := by
  constructor
  · intro h
    exact ⟨firstError_mem h, fun e' hlt he' => (priority_le_of_firstError horder h he').not_gt hlt⟩
  · rintro ⟨hmem, hbefore⟩
    cases h : firstError checks with
    | none => exact absurd ((firstError_eq_none_iff _).1 h _ hmem) Bool.noConfusion
    | some e₀ =>
      have hle : e₀.priority ≤ e.priority := priority_le_of_firstError horder h hmem
      have hge : e.priority ≤ e₀.priority := Nat.le_of_not_lt fun hlt => hbefore e₀ hlt (firstError_mem h)
      rw [ErrorCode.priority_injective (hle.antisymm hge)]

theorem State.checks_inOrder (s : State) (i : Instr) : InOrder (s.checks i) := by
  cases i with
  | keysetup => simp [InOrder, State.checks, State.keysetupChecks, ErrorCode.priority]
  | encblk | decblk => simp [InOrder, State.checks, State.blockChecks, ErrorCode.priority]
  | codecEnc => simp [InOrder, State.checks, State.codecEncChecks, ErrorCode.priority]
  | codecDec | codecDecStrip => simp [InOrder, State.checks, State.codecDecChecks, ErrorCode.priority]
  | hash => simp [InOrder, State.checks, State.hashChecks, ErrorCode.priority]
  | dmcomp => simp [InOrder, State.checks, State.dmcompChecks, ErrorCode.priority]

/-- The first check of a command that applies is the error it is to report (60 R258). -/
theorem State.firstError_checks_eq_some_iff (s : State) (i : Instr) (e : ErrorCode) :
    firstError (s.checks i) = some e ↔ s.Reports i e := by
  rw [firstError_eq_some_iff (s.checks_inOrder i)]
  simp only [State.mem_checks_iff]

/-! ### Completions -/

theorem State.errorCompletion_injective (s : State) : Function.Injective s.errorCompletion := fun _ _ h =>
  ErrorCode.code_injective (congrArg (fun t : State => t.status.errcode) h)

/-- An error completion has a code, so it is no success (60 R255). -/
theorem State.not_succeeded_errorCompletion (s u : State) (e : ErrorCode) : ¬ u.Succeeded (s.errorCompletion e) :=
  fun h => e.code_ne_zero h.errcode

/-- A command ends in the error completion with `e` exactly when `e` is its first check that applies. -/
theorem exec_eq_errorCompletion_iff (i : Instr) (s : State) (e : ErrorCode) :
    exec i s = .next (s.errorCompletion e) ↔ firstError (s.checks i) = some e := by
  obtain ⟨commit, hexec, hcommit⟩ := exec_eq_runCommand i s
  rw [hexec]
  constructor
  · intro h
    obtain ⟨e', hfirst, heq⟩ | ⟨x, hpass, -, heq⟩ := State.runCommand_next h
    · rw [hfirst, s.errorCompletion_injective heq]
    · exact absurd (heq ▸ (hcommit hpass x).1) (s.not_succeeded_errorCompletion s e)
  · exact fun h => State.runCommand_of_error h _ _ _

/-- A word in flight that is no command ends in IllegalCommand (30_encoding R93, 60 R251). -/
theorem State.completeCommand_of_not_decode {s : State} (h : ∀ i rest, decode s.fetchBytes ≠ .ok (i, rest)) :
    s.completeCommand = .next (s.errorCompletion .illegalCommand) := by
  unfold State.completeCommand
  split
  next i rest hdecode => exact absurd hdecode (h i rest)
  next => rfl

/-- Settles O17: a command reports its first check that applies, and its checks stand in the order of the causes. -/
theorem firstErrorInOrderIsReported : Obligations.FirstErrorInOrderIsReported := by
  unfold Obligations.FirstErrorInOrderIsReported
  refine ⟨fun i s e => ?_, fun s hnext hillegal => ?_⟩
  · rw [exec_eq_errorCompletion_iff, State.firstError_checks_eq_some_iff]
  · rw [step_of_completionIsNext hnext, State.completeCommand_of_not_decode hillegal]

/-- A completion is an error completion of the state before it, or a success that keeps the control state. -/
theorem step_completion {s t : State} (hnext : s.CompletionIsNext) (h : step s = .next t) :
    (∃ e, t = s.errorCompletion e) ∨ (s.Succeeded t ∧ s.SameControl t) := by
  rw [step_of_completionIsNext hnext] at h
  obtain ⟨i, -, -, h⟩ | ⟨-, rfl⟩ := State.completeCommand_next h
  · obtain ⟨commit, hexec, hcommit⟩ := exec_eq_runCommand i s
    obtain ⟨e, -, rfl⟩ | ⟨x, hpass, -, rfl⟩ := State.runCommand_next (hexec ▸ h)
    · exact .inl ⟨e, rfl⟩
    · exact .inr (hcommit hpass x)
  · exact .inl ⟨_, rfl⟩

/-- Settles O18: a completion with a code is no success, so it is an error completion. -/
theorem errorCompletionIsPrecise : Obligations.ErrorCompletionIsPrecise := by
  unfold Obligations.ErrorCompletionIsPrecise
  intro s t hnext hstep hcode
  obtain ⟨e, rfl⟩ | ⟨hsucceeded, -⟩ := step_completion hnext hstep
  · exact ⟨e, rfl⟩
  · exact absurd hsucceeded.errcode hcode

/-- Settles O20: with no cause that applies the checks pass, with no unwritten byte the range read has a value, and the
commit of that value is a success completion. -/
theorem cleanCommandSucceeds : Obligations.CleanCommandSucceeds := by
  unfold Obligations.CleanCommandSucceeds
  intro i s hclean hwritten
  have hpass : firstError (s.checks i) = none := (s.firstError_checks_eq_none_iff i).2 hclean
  have hread : s.buf.readRange s.srcL (s.inputLen i) ≠ none := by
    rw [Ne, s.buf.readRange_eq_none_iff]
    rintro ⟨k, hk, hunwritten⟩
    exact hwritten k hk hunwritten
  obtain ⟨x, hx⟩ := Option.ne_none_iff_exists'.1 hread
  obtain ⟨commit, hexec, hcommit⟩ := exec_eq_runCommand i s
  exact ⟨commit x, hexec ▸ State.runCommand_of_input hpass hx commit, hcommit hpass x⟩

end Sys2Proof.Machine
end

section
/-! PROOFS. 60 R250 and R289: the acceptance of a command word, and the step with nothing to do. -/

namespace Sys2Proof.Machine

/-- Settles O5: the step is the acceptance, whose fields are as stated. -/
theorem acceptanceLatchesTheOperands : Obligations.AcceptanceLatchesTheOperands := by
  unfold Obligations.AcceptanceLatchesTheOperands
  intro s c q hidle hnext
  have hstep := step_wr_cmd_of_idle hidle hnext
  obtain ⟨hrst, -, -⟩ := hnext
  exact ⟨_, hstep, rfl, rfl, rfl, rfl, rfl, rfl, rfl, rfl, rfl, rfl, rfl, rfl, rfl, rfl, rfl, rfl, rfl, rfl, rfl, rfl,
    rfl, rfl, rfl, hrst, rfl, rfl⟩

theorem State.resetStep_of_no_event {s : State} (h : s.hostQueue = []) : s.resetStep = .next s := by
  simp only [State.resetStep, h]

theorem State.hostStep_of_no_event {s : State} (h : s.hostQueue = []) : s.hostStep = .next s := by
  simp only [State.hostStep, h]

theorem State.completesNext_of_idle {s : State} (h : s.status.busy = false) : s.completesNext = false := by
  simp [State.completesNext, h]

/-- Settles O7: with `rst` asserted the step is a cycle of reset, else a host step, and neither finds an event. -/
theorem finalStateKeepsItsState : Obligations.FinalStateKeepsItsState := by
  unfold Obligations.FinalStateKeepsItsState
  rintro s ⟨hqueue, hidle⟩
  cases hrst : s.rst with
  | true => simp [step, hrst, State.resetStep_of_no_event hqueue]
  | false => simp [step, hrst, State.completesNext_of_idle hidle, State.hostStep_of_no_event hqueue]

end Sys2Proof.Machine
end

section
/-! PROOFS. 60 R280 and R281: the interrupt output. It follows DONE, ERR and IE, so only a completion, a host write to
STATUS, IE or CMD, and a reset can move it (`step_irq`); the first of them alone, or a write to IE, can raise it. -/

namespace Sys2Proof.Machine

theorem State.irq_eq_true_iff (s : State) : s.irq = true ↔
    s.status.done = true ∧ s.ie.doneIe = true ∨ s.status.err = true ∧ s.ie.errIe = true := by
  simp [State.irq]

theorem State.irq_congr {s t : State} (hstatus : t.status = s.status) (hie : t.ie = s.ie) : t.irq = s.irq := by
  rw [State.irq, State.irq, hstatus, hie]

/-- While a command is in flight DONE and ERR are 0 (20_memory R71), so irq is low. -/
theorem State.irq_of_busy {s : State} (hstatus : s.statusOk) (hb : s.status.busy = true) : s.irq = false := by
  obtain ⟨-, hbusy, -⟩ := hstatus
  obtain ⟨hdone, herr⟩ := hbusy hb
  simp [State.irq, hdone, herr]

/-- No completion writes IE (30_encoding R96). -/
theorem step_completion_ie {s t : State} (hnext : s.CompletionIsNext) (h : step s = .next t) : t.ie = s.ie := by
  obtain ⟨e, rfl⟩ | ⟨-, hcontrol⟩ := step_completion hnext h
  · rfl
  · exact hcontrol.ie

/-- A completion leaves irq at the enable of its kind (60 R270, R271, R280). -/
theorem step_completion_irq {s t : State} (hstatus : s.statusOk) (hnext : s.CompletionIsNext) (h : step s = .next t) :
    t.irq = if t.status.errcode = 0 then s.ie.doneIe else s.ie.errIe := by
  have hcompletion := step_completion hnext h
  obtain ⟨-, hb, -⟩ := hnext
  obtain ⟨-, hbusy, -⟩ := hstatus
  obtain ⟨hdone, herr⟩ := hbusy hb
  obtain ⟨e, rfl⟩ | ⟨hsucceeded, hcontrol⟩ := hcompletion
  · rw [if_neg (show (s.errorCompletion e).status.errcode ≠ 0 from e.code_ne_zero)]
    simp [State.irq, hdone]
  · simp [State.irq, hsucceeded.errcode, hsucceeded.done, hsucceeded.err, hcontrol.ie, herr]

/-- Settles O56: the formula, its value while BUSY = 1, and its value after a completion. -/
theorem irqIsTheEnabledCompletion : Obligations.IrqIsTheEnabledCompletion := by
  unfold Obligations.IrqIsTheEnabledCompletion
  exact ⟨State.irq_eq_true_iff, fun _ => State.irq_of_busy, fun _ _ => step_completion_irq⟩

/-! ### Register writes -/

/-- With the same enables, irq is not raised where DONE and ERR are not. -/
theorem State.irq_of_le {s t : State} (hie : t.ie = s.ie) (hdone : t.status.done = true → s.status.done = true)
    (herr : t.status.err = true → s.status.err = true) (h : t.irq = true) : s.irq = true := by
  rw [State.irq_eq_true_iff, hie] at h
  exact s.irq_eq_true_iff.2 (h.imp (And.imp_left hdone) (And.imp_left herr))

/-- The registers a host write to which can move irq. -/
abbrev Reg.MovesIrq (r : Reg) : Prop := r = .status ∨ r = .ie ∨ r = .cmd

theorem State.writeReg_irq_of_not_movesIrq (s : State) {r : Reg} (v : Word) (hr : ¬ r.MovesIrq) :
    (s.writeReg r v).irq = s.irq := by
  cases r with
  | status | ie | cmd => simp at hr
  | h0 | h1 | h2 | h3 =>
    simp only [State.writeReg, State.writeHreg]
    split <;> rfl
  | _ => rfl

/-- A STATUS or CMD write clears DONE and ERR or leaves them, so it does not raise irq (10_state R24, 60 R250). -/
theorem State.irq_of_writeReg_irq {s : State} {r : Reg} {v : Word} (hr : r ≠ .ie) (h : (s.writeReg r v).irq = true) :
    s.irq = true := by
  by_cases hmoves : r.MovesIrq
  · obtain rfl | rfl | rfl := hmoves
    · exact State.irq_of_le (t := s.writeReg .status v) rfl (fun hdone => (Bool.and_eq_true_iff.1 hdone).1)
        (fun herr => (Bool.and_eq_true_iff.1 herr).1) h
    · exact absurd rfl hr
    · simp only [State.writeReg] at h
      split at h
      · exact h
      · exact State.irq_of_le (t := s.accept v) rfl (by simp) (by simp) h
  · rwa [s.writeReg_irq_of_not_movesIrq v hmoves] at h

/-! ### Steps -/

/-- An access that reaches a register is 32 bits wide and at the register's address (20_memory R63, R65). -/
theorem State.access_of_targetOf_register {s : State} {a : HostAccess} {r : Reg}
    (h : s.targetOf a = some (.register r)) : a.size = .word ∧ a.addr = hostAddr s.params r.offset := by
  unfold State.targetOf targetAt at h
  split at h
  · split at h
    next hsize =>
      obtain ⟨r', hreg, heq⟩ := Option.map_eq_some_iff.1 h
      cases heq
      have hoff : r.offset = s.offsetOf a.addr := by simpa using List.find?_some hreg
      refine ⟨hsize, ?_⟩
      rw [hostAddr, hoff, State.offsetOf, BitVec.ofNat_toNat, BitVec.setWidth_eq, add_sub_cancel]
    next => cases h
  · split at h <;> cases h

/-- A host access moves irq only as a write to STATUS, IE or CMD. -/
theorem State.hostAccess_irq {s t : State} {a : HostAccess} (h : s.hostAccess a = .next t) :
    t.irq = s.irq ∨ ∃ r v, a = .write .word (hostAddr s.params r.offset) v ∧ r.MovesIrq ∧ t = s.writeReg r v := by
  obtain ⟨_, h'⟩ | ⟨r, v, size, addr, rfl, htarget, h'⟩ | ⟨_, _, _, _, _, h'⟩ | ⟨_, _, _, _, _, _, h'⟩ |
    ⟨_, _, _, _, _, _, _, h'⟩ | ⟨_, _, _, _, _, _, h'⟩ := s.hostAccess_cases a <;> rw [h'] at h <;> cases h
  · obtain ⟨rfl, rfl⟩ : size = .word ∧ addr = hostAddr s.params r.offset := State.access_of_targetOf_register htarget
    by_cases hr : r.MovesIrq
    · exact .inr ⟨r, v, rfl, hr, rfl⟩
    · exact .inl (s.writeReg_irq_of_not_movesIrq v hr)
  all_goals exact .inl rfl

/-- A host event moves irq only as a write to STATUS, IE or CMD, or as a reset. -/
theorem State.hostEvent_irq {s t : State} {e : HostEvent} (h : s.hostEvent e = .next t) :
    t.irq = s.irq ∨ (∃ r v, e = s.wr r v ∧ r.MovesIrq ∧ t = s.writeReg r v) ∨ e = .assertReset ∧ t.irq = false := by
  cases e with
  | access a =>
    obtain hsame | ⟨r, v, rfl, hr, ht⟩ := State.hostAccess_irq h
    · exact .inl hsame
    · exact .inr (.inl ⟨r, v, rfl, hr, ht⟩)
  | poll =>
    obtain hsame | ⟨_, _, hwrite, -⟩ := State.hostAccess_irq h
    · exact .inl hsame
    · cases hwrite
  | assertReset =>
    cases h
    exact .inr (.inr ⟨rfl, rfl⟩)
  | releaseReset =>
    cases h
    exact .inl rfl

theorem State.resetStep_irq {s t : State} (h : s.resetStep = .next t) : t.irq = s.irq := by
  unfold State.resetStep at h
  split at h <;> cases h <;> rfl

/-- The steps that can move irq: a completion, a write to STATUS, IE or CMD, and a reset. -/
theorem step_irq {s t : State} (h : step s = .next t) :
    t.irq = s.irq ∨ s.CompletionIsNext ∨
    (∃ r v q, s.NextIs (s.wr r v) q ∧ r.MovesIrq ∧ t = (s.afterEvent q).writeReg r v) ∨
    ∃ q, s.NextIs .assertReset q ∧ t.irq = false := by
  obtain ⟨_, h⟩ | ⟨hrst, hcompletes, _⟩ | ⟨_, _, _, rfl⟩ | ⟨hrst, hnot, e, q, hqueue, h⟩ := step_next h
  · exact .inl (State.resetStep_irq h)
  · exact .inr (.inl (s.completionIsNext_iff.2 ⟨hrst, hcompletes⟩))
  · exact .inl rfl
  · have hnext : s.NextIs e q := (s.nextIs_iff e q).2 ⟨hrst, hqueue, hnot⟩
    obtain hsame | ⟨r, v, rfl, hr, ht⟩ | ⟨rfl, hlow⟩ := State.hostEvent_irq h
    · exact .inl hsame
    · exact .inr (.inr (.inl ⟨r, v, q, hnext, hr, ht⟩))
    · exact .inr (.inr (.inr ⟨q, hnext, hlow⟩))

/-- Settles O47: of the steps that can move irq, a reset and a write to STATUS or CMD do not raise it. -/
theorem irqRisesOnlyAtCompletionOrEnable : Obligations.IrqRisesOnlyAtCompletionOrEnable := by
  unfold Obligations.IrqRisesOnlyAtCompletionOrEnable
  intro s t _ hstep hlow hhigh
  obtain hsame | hnext | ⟨r, v, q, hnext, -, rfl⟩ | ⟨q, -, hlow'⟩ := step_irq hstep
  · simp [hsame, hlow] at hhigh
  · rw [State.irq_eq_true_iff, step_completion_ie hnext hstep] at hhigh
    exact .inl ⟨hnext, hhigh⟩
  · by_cases hr : r = .ie
    · subst hr
      exact .inr ⟨_, v, q, hnext, rfl⟩
    · have hhigh' : s.irq = true := State.irq_of_writeReg_irq (s := s.afterEvent q) hr hhigh
      simp [hlow] at hhigh'
  · simp [hlow'] at hhigh

/-- Settles O57: of the steps that can move irq, only a completion is to be excluded, and before it irq is low. -/
theorem irqStaysUntilAcknowledged : Obligations.IrqStaysUntilAcknowledged := by
  unfold Obligations.IrqStaysUntilAcknowledged
  intro s t hstatus hstep hhigh hlow
  obtain hsame | ⟨-, hb, -⟩ | ⟨r, v, q, hnext, hr, -⟩ | ⟨q, hnext, -⟩ := step_irq hstep
  · simp [hsame, hhigh] at hlow
  · simp [State.irq_of_busy hstatus hb] at hhigh
  · exact .inl ⟨r, v, q, hnext, hr⟩
  · exact .inr ⟨q, hnext⟩

end Sys2Proof.Machine
end

section
/-! PROOFS. 70 R300 to R302 and 10_state R47: host writes while a command is in flight. Such a write reaches CFG, the
operand registers, IE, DONE, ERR and OVR only (`State.writeReg_of_busy`), which no command reads. -/

namespace Sys2Proof.Machine

/-! ### What a register write reaches while BUSY = 1 -/

/-- Settles O6: the write is one step, and while BUSY = 1 a CMD write sets OVR. -/
theorem commandWriteWhileBusyIsDropped : Obligations.CommandWriteWhileBusyIsDropped := by
  unfold Obligations.CommandWriteWhileBusyIsDropped
  intro s c q hb hnext
  rw [step_wr hnext, State.writeReg, if_pos hb]

/-- H0 to H3 ignore a write while BUSY = 1. -/
theorem State.writeHreg_of_busy {s : State} (hb : s.status.busy = true) (h : Hreg) : s.writeHreg h = s := if_pos hb

/-- With DONE and ERR 0 a STATUS write has only OVR to clear. -/
theorem Status.writeOneToClear_of_low {st : Status} (hdone : st.done = false) (herr : st.err = false) (v : Word) :
    st.writeOneToClear v = { st with ovr := st.ovr && !v.getLsbD 4 } := by
  simp [Status.writeOneToClear, hdone, herr]

/-- Settles O36: the write is one step, H0 to H3 ignore it, and DONE and ERR are 0 by the STATUS invariant. -/
theorem busyProtectsHregAndStatus : Obligations.BusyProtectsHregAndStatus := by
  unfold Obligations.BusyProtectsHregAndStatus
  intro s r v q hb hstatus hnext
  rw [step_wr hnext]
  refine ⟨?_, ?_⟩
  · rintro (rfl | rfl | rfl | rfl) <;> exact congrArg _ (State.writeHreg_of_busy (s := s.afterEvent q) hb _)
  · rintro rfl
    obtain ⟨-, hbusy, -⟩ := hstatus
    obtain ⟨hdone, herr⟩ := hbusy hb
    rw [State.writeReg, Status.writeOneToClear_of_low hdone herr]

/-- The machine of `s` with the state of `h` that a host write can reach while BUSY = 1. -/
def State.withHostSideOf (s h : State) : State :=
  { s with
    cfg := h.cfg
    src := h.src
    dst := h.dst
    len := h.len
    dsize := h.dsize
    ie := h.ie
    status := { s.status with done := h.status.done, err := h.status.err, ovr := h.status.ovr } }

/-- A register write while BUSY = 1 changes nothing else (70 R300 to R302). -/
theorem State.writeReg_of_busy {s : State} (hb : s.status.busy = true) (r : Reg) (v : Word) :
    ∃ h, s.writeReg r v = s.withHostSideOf h := by
  refine ⟨s.writeReg r v, ?_⟩
  obtain ⟨_, hidle, _⟩ | ⟨_, _, h⟩ | ⟨_, h⟩ | ⟨hidle, _⟩ | ⟨_, _, _, _, _, _, _, h⟩ := s.writeReg_cases r v
  · simp [hb] at hidle
  · rw [h]
    rfl
  · rw [h]
    rfl
  · simp [hb] at hidle
  · rw [h]
    rfl

/-! ### What a command makes of it -/

/-- What a command commits is the same in `t` and in `u`: BUF, Hreg, the schedule, OUTLEN and the result bits. -/
structure State.SameCommit (t u : State) : Prop where
  buf : u.buf = t.buf
  hreg : u.hreg = t.hreg
  sched : u.sched = t.sched
  schedValid : u.schedValid = t.schedValid
  outlen : u.outlen = t.outlen
  errcode : u.status.errcode = t.status.errcode
  done : u.status.done = t.status.done
  err : u.status.err = t.status.err
  busy : u.status.busy = t.status.busy

/-- Two commands end alike: in the same fault, or in states with the same commit. -/
inductive EndAlike : Outcome → Outcome → Prop where
  | fault (f : Fault) : EndAlike (.fault f) (.fault f)
  | next {t u : State} (h : t.SameCommit u) : EndAlike (.next t) (.next u)

theorem EndAlike.fault_iff {o o' : Outcome} (h : EndAlike o o') (f : Fault) : o = .fault f ↔ o' = .fault f := by
  cases h with
  | fault => exact Iff.rfl
  | next => simp

theorem EndAlike.exists_next {o o' : Outcome} {t : State} (h : EndAlike o o') (ht : o = .next t) :
    ∃ u, o' = .next u ∧ t.SameCommit u := by
  subst ht
  cases h with
  | next hsame => exact ⟨_, rfl, hsame⟩

theorem State.errorCompletion_sameCommit {s h : State} (hdone : h.status.done = s.status.done) (e : ErrorCode) :
    (s.errorCompletion e).SameCommit ((s.withHostSideOf h).errorCompletion e) :=
  ⟨rfl, rfl, rfl, rfl, rfl, rfl, hdone, rfl, rfl⟩

/-- A run ends alike when its commits agree, for its input range reads alike. -/
theorem State.runCommand_endAlike {s h : State} (hdone : h.status.done = s.status.done)
    (checks : List (Bool × ErrorCode)) (off n : Nat) {commit commit' : List Byte → State}
    (hcommit : ∀ x, (commit x).SameCommit (commit' x)) :
    EndAlike (s.runCommand checks off n commit) ((s.withHostSideOf h).runCommand checks off n commit') := by
  obtain ⟨e, he, hrun⟩ | ⟨hc, hx, hrun⟩ | ⟨x, hc, hx, hrun⟩ := s.runCommand_cases checks off n commit
  · rw [hrun, State.runCommand_of_error he]
    exact .next (State.errorCompletion_sameCommit hdone e)
  · rw [hrun, State.runCommand_of_unwritten (s := s.withHostSideOf h) hc hx]
    exact .fault _
  · rw [hrun, State.runCommand_of_input (s := s.withHostSideOf h) hc hx]
    exact .next (hcommit x)

/-- A command that stores the same output stores it alike. -/
theorem State.commitOutput_sameCommit {s h : State} (herr : h.status.err = s.status.err) (out : List Byte) :
    (s.commitOutput out).SameCommit ((s.withHostSideOf h).commitOutput out) :=
  ⟨rfl, rfl, rfl, rfl, rfl, rfl, rfl, herr, rfl⟩

/-- The checks, the input and the commit of a command come from the latches, BUF, the schedule, Hreg and the parameters,
none of which a host write reaches while BUSY = 1 (10_state R47). -/
theorem exec_endAlike {s h : State} (hdone : h.status.done = s.status.done) (herr : h.status.err = s.status.err)
    (i : Instr) : EndAlike (exec i s) (exec i (s.withHostSideOf h)) := by
  cases i with
  | keysetup =>
    cases hw : WordSize.ofWsel s.latch.wsel with
    | none =>
      rw [exec_keysetup, exec_keysetup, execKeysetup_of_none hw, execKeysetup_of_none (s := s.withHostSideOf h) hw]
      exact .next (State.errorCompletion_sameCommit hdone _)
    | some sw =>
      rw [exec_keysetup, exec_keysetup, execKeysetup_of_some hw, execKeysetup_of_some (s := s.withHostSideOf h) hw]
      exact State.runCommand_endAlike hdone _ _ _ fun _ => ⟨rfl, rfl, rfl, rfl, rfl, rfl, rfl, herr, rfl⟩
  | encblk | decblk | codecEnc | codecDec | codecDecStrip =>
    exact State.runCommand_endAlike hdone _ _ _ fun _ => State.commitOutput_sameCommit herr _
  | hash | dmcomp =>
    exact State.runCommand_endAlike hdone _ _ _ fun _ => ⟨rfl, rfl, rfl, rfl, rfl, rfl, rfl, herr, rfl⟩

/-- Settles O37: the write reaches nothing a command reads, and DONE and ERR, 0 by the STATUS invariant, stay 0. -/
theorem busyWritesDoNotReachTheCommand : Obligations.BusyWritesDoNotReachTheCommand := by
  unfold Obligations.BusyWritesDoNotReachTheCommand
  intro i s r v hb hstatus
  obtain ⟨-, hbusy, -⟩ := hstatus
  obtain ⟨hdone, herr⟩ := hbusy hb
  have hstays := State.writeReg_staysInFlight hb r v
  obtain ⟨h, hwrite⟩ := State.writeReg_of_busy hb r v
  rw [hwrite] at hstays ⊢
  have hdone' : h.status.done = s.status.done := (hstays.done hdone).trans hdone.symm
  have herr' : h.status.err = s.status.err := (hstays.err herr).trans herr.symm
  have halike := exec_endAlike hdone' herr' i
  refine ⟨halike.fault_iff, fun t ht => ?_⟩
  obtain ⟨u, hu, hbuf, hhreg, hsched, hvalid, houtlen, hcode, hdone, herr, hbusy⟩ := halike.exists_next ht
  exact ⟨u, hu, hbuf, hhreg, hsched, hvalid, houtlen, hcode, hdone, herr, hbusy⟩

end Sys2Proof.Machine
end

section
/-! PROOFS. 70 R311: every accepted command comes to its completion. A step of a command in flight is its completion, a
reset, the fault of a host access, or a host event that lowers what is left of LATENCY (`step_inFlight`). -/

namespace Sys2Proof.Machine

/-! ### The completion -/

/-- A command runs to a completion or faults with UnwrittenRead (20_memory R62). -/
theorem exec_ends (i : Instr) (s : State) : exec i s = .fault .unwrittenRead ∨ ∃ t, exec i s = .next t := by
  obtain ⟨commit, hexec, -⟩ := exec_eq_runCommand i s
  rw [hexec]
  obtain ⟨_, _, h⟩ | ⟨_, _, h⟩ | ⟨_, _, _, h⟩ := s.runCommand_cases (s.checks i) s.srcL (s.inputLen i) commit
  · exact .inr ⟨_, h⟩
  · exact .inl h
  · exact .inr ⟨_, h⟩

theorem State.completeCommand_ends (s : State) :
    s.completeCommand = .fault .unwrittenRead ∨ ∃ t, s.completeCommand = .next t := by
  by_cases h : ∃ i rest, decode s.fetchBytes = .ok (i, rest)
  · obtain ⟨i, rest, hdecode⟩ := h
    rw [State.completeCommand_of_decode hdecode]
    exact exec_ends i s
  · exact .inr ⟨_, State.completeCommand_of_not_decode fun i rest hdecode => h ⟨i, rest, hdecode⟩⟩

/-- The command in flight comes to its end at the next step: it completes, or faults on an unwritten input byte. -/
abbrev State.EndsNow (s : State) : Prop :=
  step s = .fault .unwrittenRead ∨
    ∃ t, step s = .next t ∧ t.status.busy = false ∧ (t.status.done = true ∨ t.status.err = true)

theorem State.endsNow_of_completionIsNext {s : State} (hnext : s.CompletionIsNext) : s.EndsNow := by
  obtain hfault | ⟨t, ht⟩ := s.completeCommand_ends
  · exact .inl ((step_of_completionIsNext hnext).trans hfault)
  · have hstep : step s = .next t := (step_of_completionIsNext hnext).trans ht
    refine .inr ⟨t, hstep, ?_⟩
    obtain ⟨e, rfl⟩ | ⟨hsucceeded, -⟩ := step_completion hnext hstep
    · exact ⟨rfl, .inr rfl⟩
    · exact ⟨hsucceeded.busy, .inl hsucceeded.done⟩

/-! ### The steps before it -/

/-- From `s` to `t` the command stays in flight with its latches, and one less host event comes before its completion. -/
structure State.ComesNearer (s t : State) : Prop where
  rst : t.rst = false
  busy : t.status.busy = true
  latch : t.latch = s.latch
  latency : t.latency < s.latency

/-- A host event comes before the completion only when LATENCY is left and it need not wait (20_memory R72, R73). -/
theorem State.not_waits_of_nextIs {s : State} {e : HostEvent} {q : List HostEvent} (hb : s.status.busy = true)
    (hnext : s.NextIs e q) : s.latency ≠ 0 ∧ s.waits e = false := by
  obtain ⟨-, -, hidle | hready⟩ := hnext
  · simp [hb] at hidle
  · exact hready

/-- An access that need not wait for the completion ends in a bus error or comes to a register, so it keeps the command
in flight. -/
theorem step_access_inFlight {s : State} {a : HostAccess} {q : List HostEvent} (hb : s.status.busy = true)
    (hnext : s.NextIs (.access a) q) : step s = .fault .busError ∨ ∃ t, step s = .next t ∧ s.ComesNearer t := by
  rw [step_access hnext]
  obtain ⟨hlatency, hheld⟩ := State.not_waits_of_nextIs hb hnext
  obtain ⟨hrst, -, -⟩ := hnext
  have hlt : s.latency - 1 < s.latency := by omega
  have hnot : ∀ {k}, (s.afterEvent q).targetOf a ≠ some (.buf k) := fun htarget => by
    have hholds : s.holds a = true := State.holds_of_targetOf_buf (s := s.afterEvent q) hb htarget
    exact Bool.noConfusion (hheld.symm.trans hholds)
  obtain ⟨-, h⟩ | ⟨r, v, _, _, _, _, h⟩ | ⟨_, _, _, _, _, h⟩ | ⟨_, _, _, _, _, htarget, _⟩ |
    ⟨_, _, _, _, _, htarget, _⟩ | ⟨_, _, _, _, htarget, _⟩ := (s.afterEvent q).hostAccess_cases a
  · exact .inl h
  · obtain ⟨h', hwrite⟩ := State.writeReg_of_busy (s := s.afterEvent q) hb r v
    rw [h, hwrite]
    exact .inr ⟨_, rfl, hrst, hb, rfl, hlt⟩
  · exact .inr ⟨_, h, hrst, hb, rfl, hlt⟩
  all_goals exact absurd htarget hnot

/-- Every way a command comes to its end: at its completion, at a reset, or at a bus error of the host. -/
abbrev State.ComesToItsEnd (s : State) : Prop :=
  s.CompletionIsNext ∧ s.EndsNow ∨ (∃ q, s.NextIs .assertReset q) ∨
    ∃ a q, s.NextIs (.access a) q ∧ step s = .fault .busError

/-- A command in flight is at its end, or the next step brings it nearer. -/
theorem step_inFlight {s : State} (hrst : s.rst = false) (hb : s.status.busy = true) :
    s.ComesToItsEnd ∨ ∃ t, step s = .next t ∧ s.ComesNearer t := by
  cases hcompletes : s.completesNext with
  | true =>
    have hnext : s.CompletionIsNext := s.completionIsNext_iff.2 ⟨hrst, hcompletes⟩
    exact .inl (.inl ⟨hnext, State.endsNow_of_completionIsNext hnext⟩)
  | false =>
    cases hqueue : s.hostQueue with
    | nil => simp [State.completesNext, hb, hqueue] at hcompletes
    | cons e q =>
      have hnext : s.NextIs e q := (s.nextIs_iff e q).2 ⟨hrst, hqueue, hcompletes⟩
      obtain ⟨hlatency, hwaits⟩ := State.not_waits_of_nextIs hb hnext
      cases e with
      | access a =>
        exact (step_access_inFlight hb hnext).imp_left fun hfault => .inr (.inr ⟨a, q, hnext, hfault⟩)
      | poll => exact absurd (hwaits.symm.trans hb) Bool.false_ne_true
      | assertReset => exact .inl (.inr (.inl ⟨q, hnext⟩))
      | releaseReset =>
        exact .inr ⟨_, step_of_event hrst hcompletes hqueue, hrst, hb, rfl, Nat.sub_one_lt hlatency⟩

/-- Settles O51: by induction on what is left of LATENCY, which every step that is not the end lowers. -/
theorem everyCommandCompletes : Obligations.EveryCommandCompletes := by
  unfold Obligations.EveryCommandCompletes
  intro s hrst hb
  induction hk : s.latency using Nat.strongRecOn generalizing s with
  | ind k ih =>
    obtain hend | ⟨t, hstep, hrst', hb', hlatch, hlt⟩ := step_inFlight hrst hb
    · exact ⟨0, Nat.zero_le _, s, rfl, hb, rfl, hend⟩
    · obtain ⟨n, hn, u, hrun, hu, hlatch', hend⟩ := ih t.latency (hk ▸ hlt) t hrst' hb' rfl
      exact ⟨n + 1, by omega, u, (run_succ n hstep).trans hrun, hu, hlatch'.trans hlatch, hend⟩

end Sys2Proof.Machine
end

section
/-! PROOFS. 70 R290 to R293: the steps while `rst` is asserted, and a reset with its release. -/

namespace Sys2Proof.Machine

/-! ### A cycle of reset, for each event that can be next -/

/-- While `rst` is asserted every step is a cycle of reset. -/
theorem step_of_rst {s : State} (hrst : s.rst = true) : step s = s.resetStep := if_pos hrst

theorem step_releaseReset {s : State} {q : List HostEvent} (hrst : s.rst = true)
    (hqueue : s.hostQueue = .releaseReset :: q) : step s = .next { s with rst := false, hostQueue := q } := by
  simp only [step_of_rst hrst, State.resetStep, hqueue]

theorem step_assertReset_again {s : State} {q : List HostEvent} (hrst : s.rst = true)
    (hqueue : s.hostQueue = .assertReset :: q) : step s = .next { s with hostQueue := q } := by
  simp only [step_of_rst hrst, State.resetStep, hqueue]

theorem step_access_refused {s : State} {a : HostAccess} {q : List HostEvent} (hrst : s.rst = true)
    (hqueue : s.hostQueue = .access a :: q) : step s = .refused .accessDuringReset := by
  simp only [step_of_rst hrst, State.resetStep, hqueue]

theorem step_poll_refused {s : State} {q : List HostEvent} (hrst : s.rst = true)
    (hqueue : s.hostQueue = .poll :: q) : step s = .refused .accessDuringReset := by
  simp only [step_of_rst hrst, State.resetStep, hqueue]

/-- Everything a cycle of reset can do: it moves the reset level and the host's events. -/
theorem State.resetStep_next {s t : State} (h : s.resetStep = .next t) :
    ∃ rst q, t = { s with rst := rst, hostQueue := q } := by
  unfold State.resetStep at h
  split at h <;> cases h <;> exact ⟨_, _, rfl⟩

/-! ### A reset with its release, and accesses under reset -/

/-- Settles O58: two steps, the assertion and the release, and registers show nothing of what the release changes. -/
theorem releaseOfResetKeepsTheResetValues : Obligations.ReleaseOfResetKeepsTheResetValues := by
  unfold Obligations.ReleaseOfResetKeepsTheResetValues
  refine ⟨fun s q hnext => ?_, fun s q hrst => ⟨step_releaseReset hrst, step_assertReset_again hrst⟩⟩
  have hassert := step_assertReset hnext
  have hrelease := step_releaseReset (s := (s.afterEvent (.releaseReset :: q)).resetAsserted) rfl rfl
  refine ⟨_, (run_succ 1 hassert).trans (run_succ 0 hrelease), rfl, rfl, rfl, rfl, rfl, Memory.read_nil, rfl,
    fun r => ?_⟩
  rw [← State.readReg_reset]
  cases r <;> rfl

/-- Settles O46: accesses and polls are refused, and every other cycle of reset moves only `rst` and the host's events. -/
theorem accessDuringResetIsRefused : Obligations.AccessDuringResetIsRefused := by
  unfold Obligations.AccessDuringResetIsRefused
  intro s hrst
  refine ⟨fun _ _ => step_access_refused hrst, fun _ => step_poll_refused hrst, fun t ht => ?_⟩
  rw [step_of_rst hrst] at ht
  obtain ⟨_, _, rfl⟩ := State.resetStep_next ht
  rw [← hrst]

end Sys2Proof.Machine
end
